-- ==== Sys2Proof/Word.lean ====
section
/-! DEFINITION. The word types of the HCE: registers, bytes, symbols, stored codes and bit strings. -/

namespace Sys2Proof

/-- A host-visible register or command word: REG_BITS = 32 (`00_scope.md` R8). -/
abbrev Word := BitVec 32

/-- One element of an internal memory (`20_memory.md` R100). -/
abbrev Byte := BitVec 8

/-- A symbol: SYM_BITS = 8 (`00_scope.md` R8). -/
abbrev Symbol := BitVec 8

/-- The stored code value of one code-table entry: CODE_BITS = 256 (`00_scope.md` R8). -/
abbrev Code := BitVec 256

/-- A byte offset in the register space: ADDR_BITS = 12 (`00_scope.md` R8). -/
abbrev Offset := BitVec 12

/-- A bit string, its first bit at the head (`00_scope.md` R11). -/
abbrev BitString := List Bool

/-- An array indexed by the NSYM = 256 symbols (`00_scope.md` R8). -/
abbrev Table (α : Type) := Vector α 256

end Sys2Proof
end

