-- ==== Sys2Proof/Syntax.lean ====
section
/-! DEFINITION. The syntax of the HCE, whole: the seven commands, the fields of a command word, the names of the registers,
host accesses, and the host-program lines of `30_encoding.md` R156 and R157. -/

namespace Sys2Proof

/-- The commands, one constructor per row of `opcode_table.json` (`30_encoding.md` R152). No command has an operand field
(`30_encoding.md` R153). -/
inductive Instr where
  | nop
  | count
  | build
  | pack
  | encode
  | decode
  | ctclr
deriving DecidableEq, Repr

/-- The fields of the one format, CMD (`30_encoding.md` R150). -/
structure CommandWord where
  op   : BitVec 4
  rsvd : BitVec 28
deriving DecidableEq, Repr

/-- Every register of the register map (`10_state.md` R34). -/
inductive Reg where
  | id | version | ctrl | cmd | status | errPos
  | inLen | bitLen | pkLen | outLen | ndist | rootWeight | maxLen
  | cfgInDepth | cfgPkDepth | cfgOutDepth
  | inAddr | inData | pkAddr | pkData | outAddr | outData
  | ftSel | ftCount | ftRank | ftRankSym
  | ctSel | ctLen
  | ctCode (k : Fin 8)
deriving DecidableEq, Repr

/-- One HOST step: a read or a write of one 32-bit word at a byte offset (`20_memory.md` R103). -/
inductive Access where
  | read  (off : Offset)
  | write (off : Offset) (wdata : Word)
deriving DecidableEq, Repr

/-- `reg` of a host-program line: a register's name or a byte offset (`30_encoding.md` R156). -/
inductive Target where
  | named  (r : Reg)
  | offset (off : Offset)
deriving DecidableEq, Repr

/-- A line of a host program (`30_encoding.md` R156) or a pseudo-instruction (R157). `polls` of a WAIT is how often its loop
reads BUSY = 1 before the completion step of a running command falls (assumption 11); `expect` is the line's `=> value`, a statement and no operation. -/
inductive Line where
  | wr    (reg : Target) (value : Word)
  | rd    (reg : Target) (expect : Option Word)
  | cmd   (m : Instr)
  | wait  (polls : Nat) (expect : Option Word)
  | clrst
  | wrb   (win : Reg) (bytes : List Byte)
  | rdb   (win : Reg) (k : Nat)
  | setct (s : Symbol) (len : BitVec 8) (v : Code)
  | rdct  (s : Symbol)
deriving DecidableEq, Repr

end Sys2Proof
end

