-- ==== Sys2Proof/Decode.lean ====
section
/-! DEFINITION. Decoding a command word (`30_encoding.md` R155), total on all 2^32 words and rejecting by name, and the encoder. -/

namespace Sys2Proof

/-- Why a word is illegal (`30_encoding.md` R154). The machine does not tell the two apart. -/
inductive IllegalWord where
  | reservedBits
  | reservedOp
deriving DecidableEq, Repr

/-- The fields OP = w[3:0] and RSVD = w[31:4] (`30_encoding.md` R150). -/
def CommandWord.ofWord (w : Word) : CommandWord :=
  ⟨w.extractLsb' 0 4, w.extractLsb' 4 28⟩

/-- The word with these fields (`30_encoding.md` R150). -/
def CommandWord.toWord (f : CommandWord) : Word :=
  f.rsvd ++ f.op

/-- The opcode map (`30_encoding.md` R152). -/
def opOf : Instr → BitVec 4
  | .nop    => 0x0
  | .count  => 0x1
  | .build  => 0x2
  | .pack   => 0x3
  | .encode => 0x4
  | .decode => 0x5
  | .ctclr  => 0x6

/-- The decoding procedure (`30_encoding.md` R155). -/
def decode (w : Word) : Except IllegalWord Instr :=
  if (CommandWord.ofWord w).rsvd ≠ 0 then .error .reservedBits
  else match (CommandWord.ofWord w).op.toNat with
    | 0 => .ok .nop
    | 1 => .ok .count
    | 2 => .ok .build
    | 3 => .ok .pack
    | 4 => .ok .encode
    | 5 => .ok .decode
    | 6 => .ok .ctclr
    | _ => .error .reservedOp

/-- The command word of a command (`30_encoding.md` R150, R152). -/
def encode (i : Instr) : Word :=
  CommandWord.toWord ⟨opOf i, 0⟩

/-- The decoder on a row of `opcode_table.json`: every command is exactly one 32-bit word (`30_encoding.md` R151). -/
def decodeTableWord (nbits w : Nat) : Option Instr :=
  if w % 2 ^ nbits < 2 ^ 32 then
    match decode (BitVec.ofNat 32 (w % 2 ^ nbits)) with
    | .ok i => some i
    | .error _ => none
  else none

end Sys2Proof
end

