-- ==== Sys2Proof/Config.lean ====
section
/-! DEFINITION. The OPEN parameters of the HCE (`00_scope.md` R8) and its fixed capacities. A parameter is an argument of the
model, so a value of `Config` is held in State and never changes (assumption 5). -/

namespace Sys2Proof

/-- IN_DEPTH, PK_DEPTH and OUT_DEPTH (`00_scope.md` R8). -/
structure Config where
  inDepth  : Nat
  pkDepth  : Nat
  outDepth : Nat
deriving DecidableEq, Repr

/-- The default parameters (`00_scope.md` R8). -/
def Config.default : Config := ⟨4096, 4096, 32768⟩

/-- NSYM: the number of symbols (`00_scope.md` R8). -/
def Config.nsym : Nat := 256

/-- MAX_CODE_LEN: the longest code an entry can hold (`00_scope.md` R8). -/
def Config.maxCodeLen : Nat := 255

/-- NODE_CAP = 2 * NSYM - 1: the nodes of the internal tree store (`00_scope.md` R8). -/
def Config.nodeCap : Nat := 511

end Sys2Proof
end

