-- ==== Sys2Proof/Machine/State.lean ====
section
/-! DEFINITION. The state of the HCE, as plain data: the persistent state of `10_state.md` R61, the parameters, and the two
model fields that say who moves next (`schedule`) and what the host's reads returned (`reads`). -/

namespace Sys2Proof.Machine

/-- ENGINE.phase (`10_state.md` R31). -/
inductive Phase where
  | idle
  | run
deriving DecidableEq, Repr

/-- ENGINE.op: the command being run; ILLEGAL is a value (`10_state.md` R31, `47_control_commands.md` R340, assumption 12). -/
inductive EngineOp where
  | command (i : Instr)
  | illegal
deriving DecidableEq, Repr

/-- The names of ERR_CODE, in the order of their codes 0 to 9 (`60_exceptions.md` R400). -/
inductive ErrorCode where
  | none
  | emptyInput
  | emptyQueue
  | unknownSymbol
  | undecodable
  | illegalCmd
  | length
  | capacity
  | badTable
  | badPad
deriving DecidableEq, Repr

/-- One entry of the code table (`10_state.md` R59): LEN = 0 means absent, the code is right-aligned in CODE. -/
structure CtEntry where
  len  : BitVec 8
  code : Code
deriving DecidableEq, Repr

/-- An internal memory: the elements that differ from `Memory.unlisted`, by rising index (`20_memory.md` R100). -/
abbrev Memory := List Host.Cell

/-- What a reset leaves unspecified (`70_reset_and_hazards.md` R451): a draw, an argument of the reset. -/
structure Draw where
  op     : EngineOp
  codes  : Table Code
  inMem  : Memory
  pkMem  : Memory
  outMem : Memory
deriving DecidableEq, Repr

/-- Who moves next (`10_state.md` R32): the HOST with one access, the ENGINE with its completion step, the reset input
(`70_reset_and_hazards.md` R450) with the values it draws, or the HOST in the loop of a WAIT (`30_encoding.md` R157), with how
many more reads of BUSY = 1 fall before the completion step (assumption 11). -/
inductive Turn where
  | host   (a : Access)
  | engine
  | reset  (d : Draw)
  | wait   (polls : Nat)
deriving DecidableEq, Repr

/-- The machine. Each field's docstring names its register and rule; `cfg`, `schedule` and `reads` are the model's own. -/
structure State where
  /-- the OPEN parameters (`00_scope.md` R8), read back through CFG_* (`10_state.md` R48); no step changes them -/
  cfg        : Config
  /-- ENGINE.phase (`10_state.md` R31) -/
  phase      : Phase
  /-- ENGINE.op (`10_state.md` R31) -/
  op         : EngineOp
  /-- CTRL.IRQ_EN (`10_state.md` R37) -/
  irqEn      : Bool
  /-- STATUS.DONE (`10_state.md` R39) -/
  done       : Bool
  /-- STATUS.ERR (`10_state.md` R39) -/
  err        : Bool
  /-- STATUS.ACC_ERR (`10_state.md` R39) -/
  accErr     : Bool
  /-- STATUS.ERR_CODE (`10_state.md` R39) -/
  errCode    : ErrorCode
  /-- ERR_POS (`10_state.md` R40) -/
  errPos     : Word
  /-- IN_LEN (`10_state.md` R41) -/
  inLen      : Word
  /-- BIT_LEN (`10_state.md` R42) -/
  bitLen     : Word
  /-- OUT_LEN (`10_state.md` R44) -/
  outLen     : Word
  /-- NDIST (`10_state.md` R45) -/
  ndist      : BitVec 9
  /-- ROOT_WEIGHT (`10_state.md` R46) -/
  rootWeight : Word
  /-- MAXLEN (`10_state.md` R47) -/
  maxLen     : BitVec 8
  /-- IN_ADDR (`10_state.md` R49) -/
  inAddr     : Word
  /-- PK_ADDR (`10_state.md` R50) -/
  pkAddr     : Word
  /-- OUT_ADDR (`10_state.md` R51) -/
  outAddr    : Word
  /-- FT_SEL (`10_state.md` R52) -/
  ftSel      : BitVec 8
  /-- FT_RANK (`10_state.md` R53) -/
  ftRank     : BitVec 8
  /-- CT_SEL (`10_state.md` R54) -/
  ctSel      : BitVec 8
  /-- FREQ (`10_state.md` R57) -/
  freq       : Table Word
  /-- ORDER (`10_state.md` R58, assumption 14) -/
  order      : List Symbol
  /-- CT (`10_state.md` R59) -/
  ct         : Table CtEntry
  /-- IN_MEM (`20_memory.md` R100) -/
  inMem      : Memory
  /-- PK_MEM (`20_memory.md` R100) -/
  pkMem      : Memory
  /-- OUT_MEM (`20_memory.md` R100) -/
  outMem     : Memory
  /-- the turns still to be taken, next first; when it is empty only the engine moves (assumptions 3 and 4) -/
  schedule   : List Turn
  /-- the words the host's reads returned, newest first (assumption 6) -/
  reads      : List Word
deriving DecidableEq, Repr

/-- What stops the model. -/
inductive Fault where
  /-- BUILD or ENCODE popped an empty priority queue. The HCE cannot reach it (`60_exceptions.md` R407), so reaching it is a
  fault of the model; only a state with NDIST ≥ 1 and an empty ORDER, which no run reaches, raises it in BUILD (assumption 15). Safe. -/
  | emptyQueue
deriving DecidableEq, Repr

/-- Why an instruction has no meaning. -/
inductive Refusal where
  /-- The instruction of this mnemonic is not modelled yet. Raised by no arm of this model. Safe. -/
  | notModelled (mnemonic : String)
deriving DecidableEq, Repr

/-- The machine right after reset (`70_reset_and_hazards.md` R451), with the default parameters (`00_scope.md` R8). ENGINE.op,
CODE and the memories are unspecified there: op NOP, CODE 0 and nothing listed are a DESIGN CHOICE (assumption 1). -/
def State.reset : State where
  cfg        := Config.default
  phase      := .idle
  op         := .command .nop
  irqEn      := false
  done       := false
  err        := false
  accErr     := false
  errCode    := .none
  errPos     := 0
  inLen      := 0
  bitLen     := 0
  outLen     := 0
  ndist      := 0
  rootWeight := 0
  maxLen     := 0
  inAddr     := 0
  pkAddr     := 0
  outAddr    := 0
  ftSel      := 0
  ftRank     := 0
  ctSel      := 0
  freq       := Vector.replicate 256 0
  order      := []
  ct         := Vector.replicate 256 ⟨0, 0⟩
  inMem      := []
  pkMem      := []
  outMem     := []
  schedule   := []
  reads      := []

end Sys2Proof.Machine
end

