-- ==== Sys2Proof/WellFormed.lean ====
section
/-! DEFINITION. Well-formedness: the ranges of the parameters, of a command word's fields, and of a host-program line. -/

namespace Sys2Proof

/-- The legal ranges of the OPEN parameters (`00_scope.md` R8). -/
abbrev Config.wf (c : Config) : Prop :=
  (1 ≤ c.inDepth ∧ c.inDepth ≤ 2 ^ 24) ∧
  (1 ≤ c.pkDepth ∧ c.pkDepth ≤ 2 ^ 24) ∧
  (1 ≤ c.outDepth ∧ c.outDepth ≤ 2 ^ 27)

/-- RSVD must be zero and OP one of the seven operations (`30_encoding.md` R150, R154). -/
def CommandWord.wf (f : CommandWord) : Bool :=
  f.rsvd == 0 && f.op.toNat < 7

/-- Every command is well formed: none has a register field or an immediate (`30_encoding.md` R153). -/
def Instr.wf : Instr → Bool
  | .nop | .count | .build | .pack | .encode | .decode | .ctclr => true

/-- The windows (`20_memory.md` R104). A write to OUT_DATA is legal and ignored (R105). -/
def Reg.isWindow : Reg → Bool
  | .inData | .pkData | .outData => true
  | _ => false

/-- `WRB` and `RDB` name a window (`30_encoding.md` R157); `WRB` lists at least one byte. -/
def Line.wf : Line → Bool
  | .wrb win bytes => win.isWindow && !bytes.isEmpty
  | .rdb win _ => win.isWindow
  | .wr _ _ | .rd _ _ | .cmd _ | .wait _ _ | .clrst | .setct _ _ _ | .rdct _ => true

end Sys2Proof
end

