-- ==== Sys2Proof/Machine/Ops.lean ====
section
/-! DEFINITION. The shared operations: bit strings, tables, memories, the error report and the completion of a command,
command acceptance, and reset. -/

namespace Sys2Proof.Machine

/-! ### Bit strings (`00_scope.md` R11) -/

/-- `bin_L(v)`: the `L`-bit big-endian binary expansion of `v` (`00_scope.md` R11). -/
def bin : Nat → Nat → BitString
  | 0, _ => []
  | L + 1, v => v.testBit L :: bin L v

/-- `val(bs)`: the unsigned integer whose binary expansion is `bs` (`00_scope.md` R11). -/
def val : BitString → Nat
  | [] => 0
  | b :: bs => b.toNat * 2 ^ bs.length + val bs

/-- The least integer ≥ a / b (`00_scope.md` R15). -/
def ceilDiv (a b : Nat) : Nat := (a + b - 1) / b

/-! ### Tables indexed by symbol (`20_memory.md` R101) -/

/-- Entry `s` of a table. -/
def Table.get {α : Type} (t : Table α) (s : Symbol) : α := t[s.toNat]'s.isLt

/-- The table with entry `s` replaced. -/
def Table.set {α : Type} (t : Table α) (s : Symbol) (a : α) : Table α := Vector.set t s.toNat a s.isLt

/-- The 256 symbols in rising order. -/
def symbols : List Symbol := (List.range 256).map (BitVec.ofNat 8)

/-- The table whose entry `s` is `f s`. -/
def Table.tabulate {α : Type} (f : Symbol → α) : Table α :=
  ⟨(symbols.map f).toArray, by simp [symbols]⟩

/-! ### Internal memories (`00_scope.md` R13, `20_memory.md` R100) -/

/-- What an element that is not listed holds. DESIGN CHOICE (assumption 2). -/
def Memory.unlisted : Byte := 0

/-- `MemRead(M, i, 1)`. -/
def Memory.read : Memory → Nat → Byte
  | [], _ => Memory.unlisted
  | c :: m, i => if c.1 = i then c.2 else Memory.read m i

/-- `MemWrite(M, i, 1, v)`, keeping the canonical form. -/
def Memory.write : Memory → Nat → Byte → Memory
  | [], i, v => if v = Memory.unlisted then [] else [(i, v)]
  | c :: m, i, v =>
    if i < c.1 then (if v = Memory.unlisted then c :: m else (i, v) :: c :: m)
    else if i = c.1 then (if v = Memory.unlisted then m else (i, v) :: m)
    else c :: Memory.write m i v

/-- The bytes `vs` written to elements `i`, `i + 1`, … in order. -/
def Memory.writeFrom : Memory → Nat → List Byte → Memory
  | m, _, [] => m
  | m, i, v :: vs => Memory.writeFrom (Memory.write m i v) (i + 1) vs

/-- Elements 0 to n - 1 in order. -/
def Memory.first (m : Memory) (n : Nat) : List Byte := (List.range n).map (Memory.read m)

/-- The canonical form: rising indices, and nothing listed that reads as an unlisted element does. -/
abbrev Memory.wf (m : Memory) : Prop :=
  m.Pairwise (fun c d => c.1 < d.1) ∧ ∀ c ∈ m, c.2 ≠ Memory.unlisted

/-- Only elements below the memory's depth exist (`20_memory.md` R100). -/
abbrev Memory.within (m : Memory) (depth : Nat) : Prop := ∀ c ∈ m, c.1 < depth

/-- The memory that holds the drawn cells that lie below its depth: what a reset leaves in it (`70_reset_and_hazards.md`
R451). -/
def Memory.drawn (depth : Nat) (cells : Memory) : Memory :=
  (cells.filter (fun c => c.1 < depth)).foldl (fun m c => Memory.write m c.1 c.2) []

/-! ### Raising an error and completing a command (`60_exceptions.md` R402, R403) -/

/-- How a command body ends without its writes: `raise E(pos)` (`00_scope.md` R14), or a fault of the model. -/
inductive Stop where
  | raise (code : ErrorCode) (pos : Nat)
  | fault (f : Fault)
deriving DecidableEq, Repr

/-- The result of a command body: the state with every write of the body, or why none of them takes effect. -/
abbrev Body := Except Stop State

/-- The error report, the analogue of taking an exception (`60_exceptions.md` R402). -/
def reportError (code : ErrorCode) (pos : Nat) (s : State) : State :=
  { s with errCode := code, errPos := BitVec.ofNat 32 pos, err := true, done := true, phase := .idle }

/-- The report of a command that succeeded (`60_exceptions.md` R403). -/
def reportSuccess (s : State) : State :=
  { s with errCode := .none, errPos := 0, err := false, done := true, phase := .idle }

/-- The completion step (`60_exceptions.md` R403): commit every write of the body, or, where it raised, none of them (R404). -/
def complete (s : State) : Body → Host.Outcome State Fault Refusal
  | .ok t => .next (reportSuccess t)
  | .error (.raise code pos) => .next (reportError code pos s)
  | .error (.fault f) => .fault f

/-- Clearing a report, the analogue of returning from an exception (`60_exceptions.md` R409): a write of `w` to STATUS clears
DONE, ERR and ACC_ERR where it has a 1 and changes nothing else (`10_state.md` R39). -/
def clearReport (w : Word) (s : State) : State :=
  { s with
    done   := s.done && !w.getLsbD 1
    err    := s.err && !w.getLsbD 2
    accErr := s.accErr && !w.getLsbD 3 }

/-- A refused host access (`20_memory.md` R106, R107, `47_control_commands.md` R340). -/
def refuse (s : State) : State := { s with accErr := true }

/-! ### Command acceptance (`47_control_commands.md` R340) -/

/-- ENGINE.op for a command word: ILLEGAL is a value (`30_encoding.md` R155). -/
def opOfWord (w : Word) : EngineOp :=
  match Sys2Proof.decode w with
  | .ok i => .command i
  | .error _ => .illegal

/-- The acceptance of a command word. -/
def accept (w : Word) (s : State) : State :=
  { s with
    done := false, err := false, errCode := .none, errPos := 0
    op := opOfWord w
    phase := .run }

/-- A host write of `w` to CMD: dropped while RUN, accepted otherwise. -/
def issue (w : Word) (s : State) : State :=
  match s.phase with
  | .run => refuse s
  | .idle => accept w s

/-! ### Reset (`70_reset_and_hazards.md` R450, R451) -/

/-- The machine after a reset that drew `d`: every field of R451 at its value, the unspecified ones as drawn. The parameters,
the turns to come and what the host has read are none of the block's state. -/
def resetTo (d : Draw) (s : State) : State :=
  { State.reset with
    cfg := s.cfg
    op := d.op
    ct := Table.tabulate fun x => ⟨0, Table.get d.codes x⟩
    inMem := Memory.drawn s.cfg.inDepth d.inMem
    pkMem := Memory.drawn s.cfg.pkDepth d.pkMem
    outMem := Memory.drawn s.cfg.outDepth d.outMem
    schedule := s.schedule
    reads := s.reads }

end Sys2Proof.Machine
end

