-- ==== Sys2Proof/Machine/Flags.lean ====
section
/-! DEFINITION. The STATUS word, the codes of ERR_CODE, and the interrupt output. The HCE has no other flags
(`10_state.md` R62). -/

namespace Sys2Proof.Machine

/-- ERR_CODE values (`60_exceptions.md` R400). -/
def ErrorCode.bits : ErrorCode → BitVec 4
  | .none          => 0
  | .emptyInput    => 1
  | .emptyQueue    => 2
  | .unknownSymbol => 3
  | .undecodable   => 4
  | .illegalCmd    => 5
  | .length        => 6
  | .capacity      => 7
  | .badTable      => 8
  | .badPad        => 9

/-- STATUS.BUSY: 1 exactly when ENGINE.phase = RUN (`10_state.md` R39). -/
def State.busy (s : State) : Bool :=
  match s.phase with
  | .run => true
  | .idle => false

/-- The STATUS word: BUSY, DONE, ERR, ACC_ERR in bits 0 to 3, ERR_CODE in bits [11:8], the rest 0 (`10_state.md` R39). -/
def statusWord (s : State) : Word :=
  0#20 ++ s.errCode.bits ++ 0#4 ++ BitVec.ofBool s.accErr ++ BitVec.ofBool s.err ++ BitVec.ofBool s.done
    ++ BitVec.ofBool s.busy

/-- The CTRL word: IRQ_EN in bit 0, the rest 0 (`10_state.md` R37). -/
def ctrlWord (s : State) : Word := 0#31 ++ BitVec.ofBool s.irqEn

/-- The interrupt output: IRQ = CTRL.IRQ_EN AND STATUS.DONE (`60_exceptions.md` R410). -/
def State.irq (s : State) : Bool := s.irqEn && s.done

end Sys2Proof.Machine
end

