-- ==== Sys2Proof/Machine/Operands.lean ====
section
/-! DEFINITION. The implicit operands of the commands (`30_encoding.md` R153): the input sequence, the code of a symbol, the
present symbols, and the derived registers. -/

namespace Sys2Proof.Machine

/-- `IN_MEM[0..IN_LEN)`, the input of COUNT, PACK and ENCODE (`10_state.md` R41, `41_frequency_table.md` R200). -/
def State.input (s : State) : List Symbol := Memory.first s.inMem s.inLen.toNat

/-- An entry is present when LEN ≥ 1 (`10_state.md` R59). -/
def CtEntry.present (e : CtEntry) : Bool := e.len != 0

/-- The code of an entry: `bin_L(CODE[L-1:0])` with L = LEN (`10_state.md` R59). -/
def CtEntry.bits (e : CtEntry) : BitString := bin e.len.toNat e.code.toNat

/-- `code(s)` (`44_code_table.md` R265). -/
def codeOf (ct : Table CtEntry) (s : Symbol) : BitString := (Table.get ct s).bits

/-- Whether symbol `s` is in the table (`44_code_table.md` R265). -/
def isPresent (ct : Table CtEntry) (s : Symbol) : Bool := (Table.get ct s).present

/-- The symbols of the table in rising order: one pass over the 256 entries, each beside its symbol. -/
def presentSymbols (ct : Table CtEntry) : List Symbol :=
  ((symbols.zip ct.toList).filter fun p => p.2.present).map (·.1)

/-- PK_LEN = ceil_div(BIT_LEN, 8) (`10_state.md` R43). -/
def State.pkLen (s : State) : Word := BitVec.ofNat 32 (ceilDiv s.bitLen.toNat 8)

/-- The NDIST symbols of ORDER, the leaves BUILD pushes (`10_state.md` R58, `43_tree_builder.md` R241). -/
def State.ranked (s : State) : List Symbol := s.order.take s.ndist.toNat

/-- FT_RANK_SYM: `ORDER[FT_RANK]` when FT_RANK < NDIST, and 0 otherwise (`10_state.md` R53). -/
def State.rankSym (s : State) : Symbol := (s.ranked[s.ftRank.toNat]?).getD 0

/-- `CODE[32k+31:32k]` (`10_state.md` R56). -/
def codeWord (c : Code) (k : Fin 8) : Word := c.extractLsb' (32 * k.val) 32

/-- CODE with bits [32k+31:32k] replaced by `w` (`10_state.md` R56). -/
def setCodeWord (c : Code) (k : Fin 8) (w : Word) : Code :=
  (c &&& ~~~((BitVec.allOnes 32).setWidth 256 <<< (32 * k.val))) ||| (w.setWidth 256 <<< (32 * k.val))

end Sys2Proof.Machine
end

