-- ==== Sys2Proof/Machine/BitPacker.lean ====
section
/-! DEFINITION. BitPacker and BitUnpacker: stringify, bytify, unbytify and command PACK (`45_bit_packer.md`). -/

namespace Sys2Proof.Machine

/-- stringify: the codes of the symbols, concatenated in order (`45_bit_packer.md` R280). -/
def stringify (ct : Table CtEntry) (input : List Symbol) : BitString := input.flatMap (codeOf ct)

/-- Group `j` of a bit string as a base-2 unsigned integer: a full group of 8 bits has its first bit at bit 7, a final group
of r bits has it at bit r - 1 (`45_bit_packer.md` R282). -/
def group (bs : BitString) (j : Nat) : Byte := BitVec.ofNat 8 (val ((bs.drop (8 * j)).take 8))

/-- bytify: the bytes of PK_MEM[0 .. ceil_div(B, 8)) (`45_bit_packer.md` R282). -/
def bytify (bs : BitString) : List Byte := (List.range (ceilDiv bs.length 8)).map (group bs)

/-- The whole bytes of unbytify (`45_bit_packer.md` R283). -/
def unpackFull (pk : Memory) (n : Nat) : BitString :=
  (List.range n).flatMap fun j => bin 8 (Memory.read pk j).toNat

/-- unbytify(B); a partial last byte with a bit set above its r bits raises BAD_PAD (`45_bit_packer.md` R283,
`46_decoder.md` R314). -/
def unbytify (pk : Memory) (B : Nat) : Except Stop BitString :=
  if B % 8 = 0 then .ok (unpackFull pk (B / 8))
  else if 2 ^ (B % 8) ≤ (Memory.read pk (B / 8)).toNat then .error (.raise .badPad (B / 8))
  else .ok (unpackFull pk (B / 8) ++ bin (B % 8) (Memory.read pk (B / 8)).toNat)

/-- The least input index whose symbol has no entry (`45_bit_packer.md` R281). -/
def firstUnknown (ct : Table CtEntry) (input : List Symbol) : Option Nat :=
  input.findIdx? fun s => !isPresent ct s

/-- The least input index, counting from `i`, at which the running bit count, now `B`, exceeds `limit`
(`45_bit_packer.md` R285, R286). -/
def firstOverflow (ct : Table CtEntry) (limit : Nat) : Nat → Nat → List Symbol → Option Nat
  | _, _, [] => none
  | B, i, s :: rest =>
    if limit < B + (Table.get ct s).len.toNat then some i
    else firstOverflow ct limit (B + (Table.get ct s).len.toNat) (i + 1) rest

/-- The body of PACK (`45_bit_packer.md` R285). -/
def packBody (s : State) : Body :=
  if s.cfg.inDepth < s.inLen.toNat then .error (.raise .length 0)
  else match firstUnknown s.ct s.input with
    | some i => .error (.raise .unknownSymbol i)
    | none =>
      match firstOverflow s.ct (8 * s.cfg.pkDepth) 0 0 s.input with
      | some i => .error (.raise .capacity i)
      | none => .ok { s with
          pkMem  := Memory.writeFrom s.pkMem 0 (bytify (stringify s.ct s.input))
          bitLen := BitVec.ofNat 32 (stringify s.ct s.input).length }

/-- PACK: stringify the input with the code table and pack it (`45_bit_packer.md` R285). -/
def execPack (s : State) : Host.Outcome State Fault Refusal := complete s (packBody s)

end Sys2Proof.Machine
end

