-- ==== Sys2Proof/Machine/FrequencyTable.lean ====
section
/-! DEFINITION. FrequencyTable: command COUNT (`41_frequency_table.md`). -/

namespace Sys2Proof.Machine

/-- FREQ and ORDER while COUNT runs. -/
abbrev Tally := Table Word × List Symbol

/-- One symbol of the input counted: its first occurrence goes to the end of ORDER (`41_frequency_table.md` R201). -/
def countOne (t : Tally) (s : Symbol) : Tally :=
  (Table.set t.1 s (Table.get t.1 s + 1), if Table.get t.1 s = 0 then t.2 ++ [s] else t.2)

/-- The loop of COUNT over the input, from empty tables (`41_frequency_table.md` R201). -/
def tally (input : List Symbol) : Tally :=
  input.foldl countOne (Vector.replicate 256 0, [])

/-- The body of COUNT (`41_frequency_table.md` R201). -/
def countBody (s : State) : Body :=
  if s.cfg.inDepth < s.inLen.toNat then .error (.raise .length 0)
  else .ok { s with
    freq  := (tally s.input).1
    order := (tally s.input).2
    ndist := BitVec.ofNat 9 (tally s.input).2.length }

/-- COUNT: build the frequency table (`41_frequency_table.md` R201). -/
def execCount (s : State) : Host.Outcome State Fault Refusal := complete s (countBody s)

end Sys2Proof.Machine
end

