-- ==== Sys2Proof/Machine/PriorityQueue.lean ====
section
/-! DEFINITION. PriorityQueue: the micro-operations push, pop and size of BUILD (`42_priority_queue.md`), and the keyed form
of R224 beside them. -/

namespace Sys2Proof.Machine

/-- A node of the tree (`00_scope.md` R16). A weight is a natural number (assumption 7). -/
inductive Node where
  | leaf     (sym : Symbol) (w : Nat)
  | internal (w : Nat) (left right : Node)
deriving DecidableEq, Repr

/-- `n.w` (`00_scope.md` R16). -/
def Node.weight : Node → Nat
  | .leaf _ w => w
  | .internal w _ _ => w

/-- The queue, head first: descending weights, the lowest at the tail (`42_priority_queue.md` R220). -/
abbrev Queue := List Node

/-- push: before the first node of strictly lesser weight, or at the tail if there is none (`42_priority_queue.md` R221). -/
def push (n : Node) : Queue → Queue
  | [] => [n]
  | m :: q => if m.weight < n.weight then n :: m :: q else m :: push n q

/-- pop: the tail and the queue without it; none is the source's EmptyQueueError (`42_priority_queue.md` R222). -/
def pop (q : Queue) : Option (Node × Queue) :=
  match q.getLast? with
  | none => none
  | some n => some (n, q.dropLast)

/-- size (`42_priority_queue.md` R223). -/
def size (q : Queue) : Nat := q.length

/-! ### The keyed form (`42_priority_queue.md` R224)

A queue in no particular order, each node beside its insertion number; pop takes the least weight and, among equal weights,
the greatest number. -/

/-- The nodes with their insertion numbers, and the next number. -/
structure KeyedQueue where
  nodes : List (Nat × Node)
  next  : Nat
deriving DecidableEq, Repr

/-- Push with the next insertion number. -/
def KeyedQueue.push (n : Node) (q : KeyedQueue) : KeyedQueue := ⟨(q.next, n) :: q.nodes, q.next + 1⟩

/-- `a` pops before `b`: lesser weight, or equal weight and greater number. -/
def popsBefore (a b : Nat × Node) : Bool :=
  a.2.weight < b.2.weight || (a.2.weight == b.2.weight && b.1 < a.1)

/-- The node of a nonempty bag that pops first. -/
def firstToPop : Nat × Node → List (Nat × Node) → Nat × Node
  | a, [] => a
  | a, b :: bs => firstToPop (if popsBefore b a then b else a) bs

/-- Pop by keys. -/
def KeyedQueue.pop (q : KeyedQueue) : Option (Node × KeyedQueue) :=
  match q.nodes with
  | [] => none
  | a :: bs => some ((firstToPop a bs).2, ⟨(a :: bs).erase (firstToPop a bs), q.next⟩)

/-- One operation on a queue. -/
inductive QueueOp where
  | push (n : Node)
  | pop
deriving DecidableEq, Repr

/-- What the pops of a script return on the list queue of R221 and R222. -/
def listPops : Queue → List QueueOp → List (Option Node)
  | _, [] => []
  | q, .push n :: ops => listPops (push n q) ops
  | q, .pop :: ops =>
    match pop q with
    | none => none :: listPops q ops
    | some (n, q') => some n :: listPops q' ops

/-- What the pops of a script return on the keyed queue of R224. -/
def keyedPops : KeyedQueue → List QueueOp → List (Option Node)
  | _, [] => []
  | q, .push n :: ops => keyedPops (KeyedQueue.push n q) ops
  | q, .pop :: ops =>
    match KeyedQueue.pop q with
    | none => none :: keyedPops q ops
    | some (n, q') => some n :: keyedPops q' ops

end Sys2Proof.Machine
end

