-- ==== Sys2Proof/Machine/CodeTable.lean ====
section
/-! DEFINITION. CodeTableGenerator and the code table: gen_codes, write_table and command CTCLR (`44_code_table.md`). -/

namespace Sys2Proof.Machine

/-- The map C of gen_codes: the mapped symbols with their bit strings (`44_code_table.md` R260). -/
abbrev CodeMap := List (Symbol × BitString)

/-- walk: "0" to the left, "1" to the right; an empty path at a leaf root gives "0" (`44_code_table.md` R260, R261). -/
def walk : Node → BitString → CodeMap
  | .leaf sym _, path => [(sym, if path.isEmpty then [false] else path)]
  | .internal _ left right, path => walk left (path ++ [false]) ++ walk right (path ++ [true])

/-- The map of gen_codes (`44_code_table.md` R260). -/
def genCodes (root : Node) : CodeMap := walk root []

/-- The greatest code length of gen_codes (`44_code_table.md` R260, R263). -/
def maxCodeLen (c : CodeMap) : Nat := (c.map fun e => e.2.length).foldl max 0

/-- The bit string `C[s]`, if `s` is mapped. -/
def codeIn (c : CodeMap) (s : Symbol) : Option BitString := (c.find? fun e => e.1 == s).map (·.2)

/-- The entry write_table writes for a symbol (`44_code_table.md` R262). -/
def entryOf : Option BitString → CtEntry
  | some bs => ⟨BitVec.ofNat 8 bs.length, BitVec.ofNat 256 (val bs)⟩
  | none => ⟨0, 0⟩

/-- write_table: every one of the 256 entries (`44_code_table.md` R262). -/
def writeTable (c : CodeMap) : Table CtEntry := Table.tabulate fun s => entryOf (codeIn c s)

/-- The table with every LEN = 0 and every CODE as it was (`44_code_table.md` R267). -/
def clearTable (ct : Table CtEntry) : Table CtEntry :=
  Table.tabulate fun s => { Table.get ct s with len := 0 }

/-- The body of CTCLR (`44_code_table.md` R267). -/
def ctclrBody (s : State) : Body := .ok { s with ct := clearTable s.ct }

/-- CTCLR: remove every code-table entry (`44_code_table.md` R267). -/
def execCtclr (s : State) : Host.Outcome State Fault Refusal := complete s (ctclrBody s)

end Sys2Proof.Machine
end

