-- ==== Sys2Proof/Machine/TreeBuilder.lean ====
section
/-! DEFINITION. TreeBuilder: command BUILD (`43_tree_builder.md`). -/

namespace Sys2Proof.Machine

/-- The symbols at the leaves, left to right (`43_tree_builder.md` R240). -/
def Node.leaves : Node → List Symbol
  | .leaf sym _ => [sym]
  | .internal _ left right => left.leaves ++ right.leaves

/-- The number of nodes of a tree (`43_tree_builder.md` R240). -/
def Node.count : Node → Nat
  | .leaf _ _ => 1
  | .internal _ left right => 1 + left.count + right.count

/-- The leaf of a symbol (`43_tree_builder.md` R241). -/
def leafOf (freq : Table Word) (s : Symbol) : Node := .leaf s (Table.get freq s).toNat

/-- The leaves pushed in ORDER order (`43_tree_builder.md` R241). -/
def pushLeaves (freq : Table Word) (order : List Symbol) : Queue :=
  order.foldl (fun q s => push (leafOf freq s) q) []

/-- One pass of the merge loop: pop `left`, then `right`, push their parent (`43_tree_builder.md` R242). -/
def mergeOnce (q : Queue) : Option Queue :=
  match pop q with
  | none => none
  | some (left, q1) =>
    match pop q1 with
    | none => none
    | some (right, q2) => some (push (.internal (left.weight + right.weight) left right) q2)

/-- The merge loop "while size(q) > 1" (`43_tree_builder.md` R242), at most `fuel` passes. A pass makes the queue one node
shorter, so as many passes as the queue has nodes are enough. -/
def mergeLoop : Nat → Queue → Option Queue
  | 0, q => some q
  | fuel + 1, q =>
    if 1 < size q then
      match mergeOnce q with
      | none => none
      | some q' => mergeLoop fuel q'
    else some q

/-- The merge loop and the pop of the root (`43_tree_builder.md` R242, R243); none is a pop on an empty queue. -/
def mergeAll (q : Queue) : Option Node :=
  match mergeLoop (size q) q with
  | none => none
  | some q' => (pop q').map (·.1)

/-- build_tree(FREQ, ORDER) (`43_tree_builder.md` R245). -/
def buildTree (freq : Table Word) (order : List Symbol) : Option Node := mergeAll (pushLeaves freq order)

/-- The body of BUILD (`43_tree_builder.md` R245, R249). -/
def buildBody (s : State) : Body :=
  if s.ndist = 0 then .error (.raise .emptyInput 0)
  else match buildTree s.freq s.ranked with
    | none => .error (.fault .emptyQueue)
    | some root => .ok { s with
        ct         := writeTable (genCodes root)
        rootWeight := BitVec.ofNat 32 root.weight
        maxLen     := BitVec.ofNat 8 (maxCodeLen (genCodes root)) }

/-- BUILD: build the tree and write the code table (`43_tree_builder.md` R245). -/
def execBuild (s : State) : Host.Outcome State Fault Refusal := complete s (buildBody s)

end Sys2Proof.Machine
end

