-- ==== Sys2Proof/Machine/Control.lean ====
section
/-! DEFINITION. NOP, ENCODE and the body of an illegal word (`47_control_commands.md`). -/

namespace Sys2Proof.Machine

/-- The body of NOP: nothing (`47_control_commands.md` R342). -/
def nopBody (s : State) : Body := .ok s

/-- NOP: no operation (`47_control_commands.md` R342). -/
def execNop (s : State) : Host.Outcome State Fault Refusal := complete s (nopBody s)

/-- The body of ENCODE: COUNT, BUILD, PACK, each on the writes of the one before (`47_control_commands.md` R343). -/
def encodeBody (s : State) : Body :=
  match countBody s with
  | .error e => .error e
  | .ok s1 =>
    match buildBody s1 with
    | .error e => .error e
    | .ok s2 => packBody s2

/-- ENCODE: COUNT, then BUILD, then PACK, as one command (`47_control_commands.md` R343). -/
def execEncode (s : State) : Host.Outcome State Fault Refusal := complete s (encodeBody s)

/-- The body of ILLEGAL (`47_control_commands.md` R344). -/
def illegalBody (_ : State) : Body := .error (.raise .illegalCmd 0)

/-- The completion of an accepted illegal word (`47_control_commands.md` R344). -/
def execIllegal (s : State) : Host.Outcome State Fault Refusal := complete s (illegalBody s)

end Sys2Proof.Machine
end

