-- ==== Sys2Proof/Machine/Decoder.lean ====
section
/-! DEFINITION. Decoder: command DECODE (`46_decoder.md`). -/

namespace Sys2Proof.Machine

/-- The code of `s` is a prefix of, or equal to, the code of another present symbol (`46_decoder.md` R311). -/
def offends (ct : Table CtEntry) (s : Symbol) : Bool :=
  (presentSymbols ct).any fun t => s != t && (codeOf ct s).isPrefixOf (codeOf ct t)

/-- prefix_free(): the least offending symbol, none when the table is prefix-free (`46_decoder.md` R311). -/
def firstOffender (ct : Table CtEntry) : Option Symbol := (presentSymbols ct).find? (offends ct)

/-- `M(p)` for the bits `rest` from the cursor on: the present symbols whose code they begin with (`46_decoder.md` R312). -/
def matchesAt (ct : Table CtEntry) (rest : BitString) : List Symbol :=
  (presentSymbols ct).filter fun s => (codeOf ct s).isPrefixOf rest

/-- The loop of DECODE at cursor `p` with the bits `rest` still ahead and `out` decoded so far (`46_decoder.md` R315), at most
`fuel` passes. A pass takes at least one bit, so as many passes as there are bits are enough. -/
def decodeLoop (ct : Table CtEntry) (outDepth : Nat) : Nat → BitString → Nat → List Symbol → Except Stop (List Symbol)
  | 0, _, _, out => .ok out
  | fuel + 1, rest, p, out =>
    if rest.isEmpty then .ok out
    else match matchesAt ct rest with
      | [] => .error (.raise .undecodable p)
      | s :: _ =>
        if out.length = outDepth then .error (.raise .capacity p)
        else decodeLoop ct outDepth fuel (rest.drop (Table.get ct s).len.toNat) (p + (Table.get ct s).len.toNat) (out ++ [s])

/-- The symbols of a bit string (`46_decoder.md` R315). -/
def decodeBits (ct : Table CtEntry) (outDepth : Nat) (bs : BitString) : Except Stop (List Symbol) :=
  decodeLoop ct outDepth bs.length bs 0 []

/-- The body of DECODE (`46_decoder.md` R315). -/
def decodeBody (s : State) : Body :=
  if 8 * s.cfg.pkDepth < s.bitLen.toNat then .error (.raise .length 0)
  else match firstOffender s.ct with
    | some x => .error (.raise .badTable x.toNat)
    | none =>
      match unbytify s.pkMem s.bitLen.toNat with
      | .error e => .error e
      | .ok bs =>
        match decodeBits s.ct s.cfg.outDepth bs with
        | .error e => .error e
        | .ok out => .ok { s with
            outMem := Memory.writeFrom s.outMem 0 out
            outLen := BitVec.ofNat 32 out.length }

/-- DECODE: unpack and decode the packed bit string (`46_decoder.md` R315). -/
def execDecode (s : State) : Host.Outcome State Fault Refusal := complete s (decodeBody s)

end Sys2Proof.Machine
end

