-- ==== Sys2Proof/Machine/Registers.lean ====
section
/-! DEFINITION. The register map: offsets, which registers are guarded, and what each reads and stores (`10_state.md`). -/

namespace Sys2Proof.Machine

/-- The offset of a register (`10_state.md` R34). -/
def offsetOf : Reg → Offset
  | .id          => 0x000
  | .version     => 0x004
  | .ctrl        => 0x008
  | .cmd         => 0x00C
  | .status      => 0x010
  | .errPos      => 0x014
  | .inLen       => 0x018
  | .bitLen      => 0x01C
  | .pkLen       => 0x020
  | .outLen      => 0x024
  | .ndist       => 0x028
  | .rootWeight  => 0x02C
  | .maxLen      => 0x030
  | .cfgInDepth  => 0x034
  | .cfgPkDepth  => 0x038
  | .cfgOutDepth => 0x03C
  | .inAddr      => 0x040
  | .inData      => 0x044
  | .pkAddr      => 0x048
  | .pkData      => 0x04C
  | .outAddr     => 0x050
  | .outData     => 0x054
  | .ftSel       => 0x060
  | .ftCount     => 0x064
  | .ftRank      => 0x068
  | .ftRankSym   => 0x06C
  | .ctSel       => 0x080
  | .ctLen       => 0x084
  | .ctCode k    => 0x088 + BitVec.ofNat 12 (4 * k.val)

/-- Every register of the map (`10_state.md` R34). -/
def allRegs : List Reg :=
  [.id, .version, .ctrl, .cmd, .status, .errPos, .inLen, .bitLen, .pkLen, .outLen, .ndist, .rootWeight, .maxLen]
  ++ [.cfgInDepth, .cfgPkDepth, .cfgOutDepth, .inAddr, .inData, .pkAddr, .pkData, .outAddr, .outData]
  ++ [.ftSel, .ftCount, .ftRank, .ftRankSym, .ctSel, .ctLen]
  ++ [.ctCode 0, .ctCode 1, .ctCode 2, .ctCode 3, .ctCode 4, .ctCode 5, .ctCode 6, .ctCode 7]

/-- The register an offset names, none where it is unmapped; offset bits [1:0] are ignored (`10_state.md` R33,
`20_memory.md` R103). -/
def regAt (off : Offset) : Option Reg := allRegs.find? fun r => offsetOf r == off &&& 0xFFC

/-- The registers guarded while RUN (`20_memory.md` R106). CMD is not among them: its writes follow `47_control_commands.md`
R340, and a read of it has no side effect (`10_state.md` R38, assumption 8). OUT_DATA is (assumption 9). -/
def guarded : Reg → Bool
  | .id | .version | .ctrl | .cmd | .status | .cfgInDepth | .cfgPkDepth | .cfgOutDepth => false
  | _ => true

/-- A window in range: what its access reaches (`20_memory.md` R104). -/
structure Window where
  mem   : Memory
  addr  : Word
  depth : Nat
deriving DecidableEq, Repr

/-- The pointer is in range (`20_memory.md` R104, R107). -/
def Window.inRange (w : Window) : Bool := w.addr.toNat < w.depth

/-- What a read of the window returns: the element, or 0 out of range (`20_memory.md` R104, R107). -/
def Window.value (w : Window) : Word :=
  if w.inRange then (Memory.read w.mem w.addr.toNat).setWidth 32 else 0

/-- The window of IN_MEM (`10_state.md` R49). -/
def State.inWindow (s : State) : Window := ⟨s.inMem, s.inAddr, s.cfg.inDepth⟩

/-- The window of PK_MEM (`10_state.md` R50). -/
def State.pkWindow (s : State) : Window := ⟨s.pkMem, s.pkAddr, s.cfg.pkDepth⟩

/-- The window of OUT_MEM (`10_state.md` R51). -/
def State.outWindow (s : State) : Window := ⟨s.outMem, s.outAddr, s.cfg.outDepth⟩

/-- What a read of a register returns when it is not refused by the busy guard (`10_state.md` R35 to R56). -/
def regValue (s : State) : Reg → Word
  | .id          => 0x48434531
  | .version     => 0x00000001
  | .ctrl        => ctrlWord s
  | .cmd         => 0
  | .status      => statusWord s
  | .errPos      => s.errPos
  | .inLen       => s.inLen
  | .bitLen      => s.bitLen
  | .pkLen       => s.pkLen
  | .outLen      => s.outLen
  | .ndist       => s.ndist.setWidth 32
  | .rootWeight  => s.rootWeight
  | .maxLen      => s.maxLen.setWidth 32
  | .cfgInDepth  => BitVec.ofNat 32 s.cfg.inDepth
  | .cfgPkDepth  => BitVec.ofNat 32 s.cfg.pkDepth
  | .cfgOutDepth => BitVec.ofNat 32 s.cfg.outDepth
  | .inAddr      => s.inAddr
  | .inData      => s.inWindow.value
  | .pkAddr      => s.pkAddr
  | .pkData      => s.pkWindow.value
  | .outAddr     => s.outAddr
  | .outData     => s.outWindow.value
  | .ftSel       => s.ftSel.setWidth 32
  | .ftCount     => Table.get s.freq s.ftSel
  | .ftRank      => s.ftRank.setWidth 32
  | .ftRankSym   => s.rankSym.setWidth 32
  | .ctSel       => s.ctSel.setWidth 32
  | .ctLen       => (Table.get s.ct s.ctSel).len.setWidth 32
  | .ctCode k    => codeWord (Table.get s.ct s.ctSel).code k

/-- The side effect of a read that the busy guard does not refuse: only the windows have one (`20_memory.md` R104, R107,
R110). -/
def afterRead (s : State) : Reg → State
  | .inData  => if s.inWindow.inRange then { s with inAddr := s.inAddr + 1 } else refuse s
  | .pkData  => if s.pkWindow.inRange then { s with pkAddr := s.pkAddr + 1 } else refuse s
  | .outData => if s.outWindow.inRange then { s with outAddr := s.outAddr + 1 } else refuse s
  | _ => s

/-- The state with entry CT_SEL of the code table replaced (`10_state.md` R55, R56). -/
def setSelected (s : State) (e : CtEntry) : State := { s with ct := Table.set s.ct s.ctSel e }

/-- A write of `v` to a register when the busy guard does not refuse it (`10_state.md` R33, R35 to R56): a read-only register
ignores it, a narrow one stores its implemented bits, a window writes `v[7:0]` (`20_memory.md` R104, R105, R107). -/
def writeReg (v : Word) (s : State) : Reg → State
  | .ctrl     => { s with irqEn := v.getLsbD 0 }
  | .cmd      => issue v s
  | .status   => clearReport v s
  | .inLen    => { s with inLen := v }
  | .bitLen   => { s with bitLen := v }
  | .inAddr   => { s with inAddr := v }
  | .pkAddr   => { s with pkAddr := v }
  | .outAddr  => { s with outAddr := v }
  | .ftSel    => { s with ftSel := v.setWidth 8 }
  | .ftRank   => { s with ftRank := v.setWidth 8 }
  | .ctSel    => { s with ctSel := v.setWidth 8 }
  | .ctLen    => setSelected s { Table.get s.ct s.ctSel with len := v.setWidth 8 }
  | .ctCode k => setSelected s { Table.get s.ct s.ctSel with code := setCodeWord (Table.get s.ct s.ctSel).code k v }
  | .inData   =>
    if s.inWindow.inRange then
      { s with inMem := Memory.write s.inMem s.inAddr.toNat (v.setWidth 8), inAddr := s.inAddr + 1 }
    else refuse s
  | .pkData   =>
    if s.pkWindow.inRange then
      { s with pkMem := Memory.write s.pkMem s.pkAddr.toNat (v.setWidth 8), pkAddr := s.pkAddr + 1 }
    else refuse s
  | .id | .version | .errPos | .pkLen | .outLen | .ndist | .rootWeight | .maxLen
  | .cfgInDepth | .cfgPkDepth | .cfgOutDepth | .outData | .ftCount | .ftRankSym => s

end Sys2Proof.Machine
end

