-- ==== Sys2Proof/Machine/HostPort.lean ====
section
/-! DEFINITION. The HOST's step: one access of one register (`20_memory.md` R103 to R107). -/

namespace Sys2Proof.Machine

/-- The busy guard refuses this register now (`20_memory.md` R106). -/
def blocked (s : State) (r : Reg) : Bool := s.busy && guarded r

/-- The bus returned `v` to a read (assumption 6). -/
def returned (v : Word) (s : State) : State := { s with reads := v :: s.reads }

/-- HostRead(off) (`20_memory.md` R103): an unmapped offset reads 0 without side effect (`10_state.md` R33), a guarded register
while RUN reads 0 and sets ACC_ERR (R106). -/
def hostRead (off : Offset) (s : State) : State :=
  match regAt off with
  | none => returned 0 s
  | some r => if blocked s r then returned 0 (refuse s) else returned (regValue s r) (afterRead s r)

/-- HostWrite(off, v) (`20_memory.md` R103): an unmapped offset ignores it (`10_state.md` R33), a guarded register while RUN
ignores it and sets ACC_ERR (R106). -/
def hostWrite (off : Offset) (v : Word) (s : State) : State :=
  match regAt off with
  | none => s
  | some r => if blocked s r then refuse s else writeReg v s r

/-- One HOST step (`10_state.md` R32). -/
def hostStep (a : Access) (s : State) : State :=
  match a with
  | .read off => hostRead off s
  | .write off v => hostWrite off v s

/-- The HCE refuses this access now, so ACC_ERR is set: the busy guard, a CMD write while RUN, or a window out of range
(`60_exceptions.md` R408). -/
def isRefused (s : State) (a : Access) : Bool :=
  match a with
  | .read off =>
    match regAt off with
    | none => false
    | some r => blocked s r || (r == .inData && !s.inWindow.inRange) || (r == .pkData && !s.pkWindow.inRange)
        || (r == .outData && !s.outWindow.inRange)
  | .write off _ =>
    match regAt off with
    | none => false
    | some r => blocked s r || (r == .cmd && s.busy) || (r == .inData && !s.inWindow.inRange)
        || (r == .pkData && !s.pkWindow.inRange)

end Sys2Proof.Machine
end

