-- ==== Sys2Proof/Machine/Engine.lean ====
section
/-! DEFINITION. The ENGINE's step, and one turn of the machine (`10_state.md` R32). -/

namespace Sys2Proof.Machine

/-- The completion step of ENGINE.op while RUN (`60_exceptions.md` R403); when IDLE the engine takes no step (R417). -/
def engineStep (s : State) : Host.Outcome State Fault Refusal :=
  match s.phase with
  | .idle => .next s
  | .run =>
    match s.op with
    | .command i => exec i s
    | .illegal => execIllegal s

/-- RD STATUS in the loop of a WAIT: the loop goes on with `again` while the value read has BUSY = 1 (`30_encoding.md` R157). -/
def pollStatus (again : Turn) (s : State) : State :=
  let t := hostStep (.read (offsetOf .status)) s
  if (regValue s .status).getLsbD 0 then { t with schedule := again :: t.schedule } else t

/-- One turn of the loop of a WAIT with `polls` reads of BUSY = 1 still to come: once there are none left a running command
completes, and the loop goes on (`30_encoding.md` R157, assumption 11). -/
def waitTurn (polls : Nat) (s : State) : Host.Outcome State Fault Refusal :=
  match polls with
  | 0 =>
    match s.phase with
    | .run => engineStep { s with schedule := .wait 0 :: s.schedule }
    | .idle => .next (pollStatus (.wait 0) s)
  | n + 1 => .next (pollStatus (.wait n) s)

/-- One turn: a HOST access, the ENGINE's step, a reset, or a turn of a WAIT (`10_state.md` R32, `70_reset_and_hazards.md`
R450, `30_encoding.md` R157). -/
def takeTurn (t : Turn) (s : State) : Host.Outcome State Fault Refusal :=
  match t with
  | .host a => .next (hostStep a s)
  | .engine => engineStep s
  | .reset d => .next (resetTo d s)
  | .wait polls => waitTurn polls s

/-- The next turn of the schedule; once it is empty only the engine moves, so every accepted command completes
(`70_reset_and_hazards.md` R461, assumption 4). -/
def nextTurn (s : State) : Host.Outcome State Fault Refusal :=
  match s.schedule with
  | [] => engineStep s
  | t :: ts => takeTurn t { s with schedule := ts }

/-- The state in which the next turn is the completion step of the command word `w`: the word accepted
(`47_control_commands.md` R340) and the engine to move (assumption 10). -/
def presentWord (w : Word) (s : State) : State :=
  { accept w s with schedule := .engine :: s.schedule }

end Sys2Proof.Machine
end

