-- ==== Sys2Proof/Machine/HostProgram.lean ====
section
/-! DEFINITION. Host programs: the accesses each line and each pseudo-instruction stands for (`30_encoding.md` R156, R157). -/

namespace Sys2Proof.Machine

/-- The byte offset of `reg` (`30_encoding.md` R156). -/
def targetOffset : Target → Offset
  | .named r => offsetOf r
  | .offset off => off

/-- `WR reg, v` (`30_encoding.md` R156). -/
def wr (r : Reg) (v : Word) : Turn := .host (.write (offsetOf r) v)

/-- `RD reg` (`30_encoding.md` R156). -/
def rd (r : Reg) : Turn := .host (.read (offsetOf r))

/-- The turns of one line (`30_encoding.md` R156, R157). A WAIT is a loop, so how many accesses it makes depends on what they
read; every other line is a fixed list of accesses. -/
def expand : Line → List Turn
  | .wr reg value => [.host (.write (targetOffset reg) value)]
  | .rd reg _ => [.host (.read (targetOffset reg))]
  | .cmd m => [wr .cmd (Sys2Proof.encode m)]
  | .wait polls _ => [.wait polls]
  | .clrst => [wr .status 0x0000000E]
  | .wrb win bytes => bytes.map fun b => wr win (b.setWidth 32)
  | .rdb win k => List.replicate k (rd win)
  | .setct s len v =>
    [wr .ctSel (s.setWidth 32), wr .ctLen (len.setWidth 32)]
      ++ (List.finRange 8).map fun k => wr (.ctCode k) (codeWord v k)
  | .rdct s => [wr .ctSel (s.setWidth 32), rd .ctLen, rd (.ctCode 0)]

/-- The machine with a host program still to be run. -/
def State.withProgram (s : State) (p : List Line) : State := { s with schedule := s.schedule ++ p.flatMap expand }

end Sys2Proof.Machine
end

