-- ==== Sys2Proof/Safety.lean ====
section
/-! DEFINITION. What holds of every state a run reaches, and what claims about runs are stated with. -/

namespace Sys2Proof.Machine

/-- The sum of all 256 counts of a frequency table (`41_frequency_table.md` R203). -/
def totalCount (freq : Table Word) : Nat := (symbols.map fun x => (Table.get freq x).toNat).sum

/-- The invariant of the machine: it holds after every reset and every step keeps it. -/
structure State.Inv (s : State) : Prop where
  /-- the parameters are in range (`00_scope.md` R8) -/
  config : s.cfg.wf
  /-- the memories are canonical and list only elements that exist (`20_memory.md` R100) -/
  inMem : Memory.wf s.inMem ∧ Memory.within s.inMem s.cfg.inDepth
  pkMem : Memory.wf s.pkMem ∧ Memory.within s.pkMem s.cfg.pkDepth
  outMem : Memory.wf s.outMem ∧ Memory.within s.outMem s.cfg.outDepth
  /-- ORDER holds NDIST distinct symbols, those with a count of at least 1 (`10_state.md` R58) -/
  distinct : s.order.Nodup
  rankCount : s.ndist.toNat = s.order.length
  counted : ∀ x, x ∈ s.order ↔ 1 ≤ (Table.get s.freq x).toNat
  /-- the counts sum to the length of an input that fitted (`41_frequency_table.md` R202, R203) -/
  total : totalCount s.freq ≤ s.cfg.inDepth
  /-- so does the weight of a root (`43_tree_builder.md` R246) -/
  weight : s.rootWeight.toNat ≤ s.cfg.inDepth
  /-- OUT_LEN symbols fitted OUT_MEM (`10_state.md` R44) -/
  decoded : s.outLen.toNat ≤ s.cfg.outDepth
  /-- code 2 is never written (`60_exceptions.md` R407) -/
  reachable : s.errCode ≠ .emptyQueue
  /-- ERR is 1 only with a code, and ERR_POS is 0 without one (`10_state.md` R39, R40) -/
  errCoded : s.err = true → s.errCode ≠ .none
  posCoded : s.errCode = .none → s.errPos = 0
  /-- while RUN the report of the last command is cleared (`47_control_commands.md` R340) -/
  running : s.phase = .run → s.done = false ∧ s.err = false ∧ s.errCode = .none

/-- `k` steps, stopping at the first fault or refusal. -/
def steps : Nat → State → Host.Outcome State Fault Refusal
  | 0, s => .next s
  | k + 1, s =>
    match step s with
    | .next t => steps k t
    | .fault f => .fault f
    | .refused r => .refused r

/-- A host program's run has ended: the last access is performed and the engine is IDLE (`70_reset_and_hazards.md` R463). -/
abbrev State.ended (s : State) : Prop := s.schedule = [] ∧ s.phase = .idle

/-- The present codes are prefix-free: none is a prefix of, or equal to, another's (`46_decoder.md` R311). -/
def PrefixFree (ct : Table CtEntry) : Prop :=
  ∀ x y, x ≠ y → isPresent ct x = true → isPresent ct y = true → ¬ codeOf ct x <+: codeOf ct y

end Sys2Proof.Machine
end

