-- ==== Sys2Proof/Certificates/Slice0/Obligations.lean ====
section
/-! DEFINITION. The statements about the HCE, and the few definitions they are stated with. -/

open Sys2Proof Sys2Proof.Machine

namespace Sys2Proof.Machine

/-! ### What the statements are stated with -/

/-- `s` after a command that succeeded: ERR_CODE 0, ERR_POS 0, ERR 0, DONE 1, IDLE, and nothing else (`60_exceptions.md` R403). -/
def succeeded (s : State) : State :=
  { s with errCode := .none, errPos := 0, err := false, done := true, phase := .idle }

/-- `s` after a command that raised `c` at `pos`: the report of `60_exceptions.md` R402, and nothing else. -/
def failed (s : State) (c : ErrorCode) (pos : Nat) : State :=
  { s with errCode := c, errPos := BitVec.ofNat 32 pos, err := true, done := true, phase := .idle }

/-- The errors the body of a command may raise (`60_exceptions.md` R406). -/
def mayRaise : Instr → List ErrorCode
  | .nop => []
  | .count => [.length]
  | .build => [.emptyInput]
  | .pack => [.length, .unknownSymbol, .capacity]
  | .encode => [.length, .emptyInput, .capacity]
  | .decode => [.length, .badTable, .badPad, .undecodable, .capacity]
  | .ctclr => []

/-- The merge loop of `43_tree_builder.md` R242 and R243 as a relation: while two nodes or more are left, the two at the tail
become `left` and `right` of a node that is pushed; the last one left is the root. -/
inductive MergesTo : Queue → Node → Prop where
  | root (n : Node) : MergesTo [n] n
  | merge (q : Queue) (left right root : Node) :
      MergesTo (push (.internal (left.weight + right.weight) left right) q) root → MergesTo (q ++ [right, left]) root

/-- The symbol of the leaf a path leads to, "0" to the left and "1" to the right (`44_code_table.md` R260). -/
def Node.follow : Node → BitString → Option Symbol
  | .leaf sym _, [] => some sym
  | .internal _ left right, b :: path => if b then right.follow path else left.follow path
  | _, _ => none

/-- The code table ENCODE packs with: the one BUILD writes from the frequency table COUNT makes (`47_control_commands.md`
R343). -/
def encodeTable (s : State) : Table CtEntry :=
  match buildTree (tally s.input).1 (tally s.input).2 with
  | some root => writeTable (genCodes root)
  | none => s.ct

/-- The bits of a register that a write stores, for the registers a write only stores to (`10_state.md` R34, R35). -/
def storedBits : Reg → Option Word
  | .ctrl => some 0x00000001
  | .inLen | .bitLen | .inAddr | .pkAddr | .outAddr | .ctCode _ => some 0xFFFFFFFF
  | .ftSel | .ftRank | .ctSel | .ctLen => some 0x000000FF
  | _ => none

/-- The read-only registers (`10_state.md` R34). -/
def readOnly : List Reg :=
  [.id, .version, .errPos, .pkLen, .outLen, .ndist, .rootWeight, .maxLen, .cfgInDepth, .cfgPkDepth, .cfgOutDepth,
    .outData, .ftCount, .ftRankSym]

/-- The registers that stay accessible while a command runs (`20_memory.md` R106), and CMD, which has a rule of its own. -/
def neverGuarded : List Reg := [.id, .version, .ctrl, .cmd, .status, .cfgInDepth, .cfgPkDepth, .cfgOutDepth]

/-- The offset of a register that is no window and what a read of it returns when IDLE, but for FT_RANK_SYM and CT_CODEk
(`10_state.md` R34 to R55). -/
def readValues (s : State) : List (Offset × Word) :=
  [(0x000, 0x48434531), (0x004, 0x00000001), (0x008, if s.irqEn then 1 else 0), (0x00C, 0), (0x010, statusWord s),
    (0x014, s.errPos), (0x018, s.inLen), (0x01C, s.bitLen), (0x020, BitVec.ofNat 32 ((s.bitLen.toNat + 7) / 8))]
  ++ [(0x024, s.outLen), (0x028, BitVec.ofNat 32 s.ndist.toNat), (0x02C, s.rootWeight),
    (0x030, BitVec.ofNat 32 s.maxLen.toNat), (0x034, BitVec.ofNat 32 s.cfg.inDepth),
    (0x038, BitVec.ofNat 32 s.cfg.pkDepth), (0x03C, BitVec.ofNat 32 s.cfg.outDepth)]
  ++ [(0x040, s.inAddr), (0x048, s.pkAddr), (0x050, s.outAddr), (0x060, BitVec.ofNat 32 s.ftSel.toNat),
    (0x064, Table.get s.freq s.ftSel), (0x068, BitVec.ofNat 32 s.ftRank.toNat), (0x080, BitVec.ofNat 32 s.ctSel.toNat),
    (0x084, BitVec.ofNat 32 (Table.get s.ct s.ctSel).len.toNat)]

/-- The host accesses of a list, one after the other. -/
def hostSteps (as : List Access) (s : State) : State := as.foldl (fun u a => hostStep a u) s

/-- Host reads, one turn each. -/
def readTurns (offs : List Offset) : List Turn := offs.map fun off => .host (.read off)

end Sys2Proof.Machine

/-! ### Encoding and stepping -/

/-- R155: a word is a command exactly when it is that command's word of the opcode map, and illegal exactly when its bits [31:4]
are nonzero or its bits [3:0] are 7 or more. -/
def Obligations.LegalWordsAreTheSevenCommandWords : Prop :=
  ∀ w : Word,
    (Sys2Proof.decode w = .ok .nop ↔ w = 0x00000000) ∧ (Sys2Proof.decode w = .ok .count ↔ w = 0x00000001) ∧
    (Sys2Proof.decode w = .ok .build ↔ w = 0x00000002) ∧ (Sys2Proof.decode w = .ok .pack ↔ w = 0x00000003) ∧
    (Sys2Proof.decode w = .ok .encode ↔ w = 0x00000004) ∧ (Sys2Proof.decode w = .ok .decode ↔ w = 0x00000005) ∧
    (Sys2Proof.decode w = .ok .ctclr ↔ w = 0x00000006) ∧
    ((∃ why, Sys2Proof.decode w = .error why) ↔ (w.toNat / 16 ≠ 0 ∨ 7 ≤ w.toNat % 16))

/-- Every command decodes from its own word, as a word and as a row of the opcode table. -/
def Obligations.EncodedCommandsDecode : Prop :=
  ∀ i, Sys2Proof.decode (Sys2Proof.encode i) = .ok i ∧
    Sys2Proof.decodeTableWord 32 (Sys2Proof.encode i).toNat = some i

/-- R152, R155: the seven words of the opcode map decode to their commands, and words beside them are illegal. -/
def Obligations.OpcodeMapWordsDecode : Prop :=
  Sys2Proof.decode 0x00000000#32 = .ok .nop ∧ Sys2Proof.decode 0x00000001#32 = .ok .count ∧
  Sys2Proof.decode 0x00000002#32 = .ok .build ∧ Sys2Proof.decode 0x00000003#32 = .ok .pack ∧
  Sys2Proof.decode 0x00000004#32 = .ok .encode ∧ Sys2Proof.decode 0x00000005#32 = .ok .decode ∧
  Sys2Proof.decode 0x00000006#32 = .ok .ctclr ∧ Sys2Proof.decode 0x00000007#32 = .error .reservedOp ∧
  Sys2Proof.decode 0x0000000F#32 = .error .reservedOp ∧ Sys2Proof.decode 0x00000010#32 = .error .reservedBits ∧
  Sys2Proof.decode 0x80000001#32 = .error .reservedBits ∧ Sys2Proof.decode 0xFFFFFFFF#32 = .error .reservedBits

/-- R341, R403: while RUN with a command in ENGINE.op, the engine's turn is exec of that command. The model's choices: that an
empty schedule leaves the turn to the engine (assumption 4), and that `withFetchWord` accepts its word whatever the phase, where a
CMD write while RUN is dropped (assumption 10); the step after it, of a word that decodes to `i`, is exec of `i` on the accepted
state. -/
def Obligations.StepRunsTheDecodedCommand : Prop :=
  ∀ (s : State) (i : Instr),
    (s.phase = .run → s.op = .command i → s.schedule = [] → step s = exec i s) ∧
    (∀ ts, s.phase = .run → s.op = .command i → s.schedule = .engine :: ts →
      step s = exec i { s with schedule := ts }) ∧
    (∀ w : Word, Sys2Proof.decode w = .ok i → step (s.withFetchWord 32 w.toNat) = exec i (accept w s))

/-- R154, R344: a word with bits [31:4] nonzero or bits [3:0] 7 or more, written to CMD when IDLE, is accepted and completes with
ILLEGAL_CMD(0), and nothing else changes but ENGINE.op; written while RUN it is dropped with ACC_ERR. -/
def Obligations.IllegalWordsCompleteWithIllegalCmd : Prop :=
  ∀ (s : State) (w : Word) (ts : List Turn), w.toNat / 16 ≠ 0 ∨ 7 ≤ w.toNat % 16 →
    (s.phase = .idle → s.schedule = .host (.write 0x00C w) :: .engine :: ts →
      steps 2 s = .next { s with
        schedule := ts, op := .illegal, errCode := .illegalCmd, errPos := 0, err := true, done := true }) ∧
    (s.phase = .run → s.schedule = .host (.write 0x00C w) :: ts →
      step s = .next { s with schedule := ts, accErr := true })

/-- R32, R417, R452: a host turn is one access, a reset turn one reset, and an IDLE engine takes no step. That a step of an idle
machine with nothing scheduled leaves the state as it is, and that a reset is a turn, which keeps the rest of the schedule and
the log of reads, are the model's choices (assumptions 3 and 4). -/
def Obligations.TurnsOfTheSchedule : Prop :=
  ∀ (s : State) (ts : List Turn),
    (∀ a, s.schedule = .host a :: ts → step s = .next (hostStep a { s with schedule := ts })) ∧
    (∀ d, s.schedule = .reset d :: ts → ∃ t, step s = .next t ∧ t = resetTo d { s with schedule := ts } ∧
      t.schedule = ts ∧ t.reads = s.reads) ∧
    (s.phase = .idle → s.schedule = .engine :: ts → step s = .next { s with schedule := ts }) ∧
    (s.phase = .idle → s.schedule = [] → step s = .next s)

/-- R340: a CMD write is accepted when IDLE, at any of the four offsets of its word, and dropped with ACC_ERR while RUN. -/
def Obligations.CommandAcceptance : Prop :=
  ∀ (s : State) (off : Offset) (w : Word) (ts : List Turn),
    off &&& 0xFFC = 0x00C → s.schedule = .host (.write off w) :: ts →
      (s.phase = .idle → step s = .next { s with
        schedule := ts, done := false, err := false, errCode := .none, errPos := 0, phase := .run
        op := match Sys2Proof.decode w with
          | .ok i => .command i
          | .error _ => .illegal }) ∧
      (s.phase = .run → step s = .next { s with schedule := ts, accErr := true })

/-! ### NOP, CTCLR -/

/-- R342: NOP completes and changes nothing but the report. -/
def Obligations.NopOnlyCompletes : Prop :=
  ∀ s : State, exec .nop s = .next (succeeded s)

/-- R267: CTCLR makes every LEN 0 and leaves every CODE and everything else. -/
def Obligations.CtclrRemovesEveryEntry : Prop :=
  ∀ s : State, ∃ t, exec .ctclr s = .next t ∧ t = succeeded { s with ct := t.ct } ∧
    ∀ x, (Table.get t.ct x).len = 0 ∧ (Table.get t.ct x).code = (Table.get s.ct x).code

/-! ### COUNT -/

/-- R201, R203: COUNT of an input that fits completes: FREQ counts it, ORDER lists its symbols by first occurrence, NDIST is
their number, and nothing else changes. -/
def Obligations.CountBuildsTheFrequencyTable : Prop :=
  ∀ s : State, s.inLen.toNat ≤ s.cfg.inDepth →
    ∃ t, exec .count s = .next t ∧
      t = succeeded { s with freq := t.freq, order := t.order, ndist := t.ndist } ∧
      (∀ x, (Table.get t.freq x).toNat = s.input.count x) ∧
      (∀ x, x ∈ t.order ↔ x ∈ s.input) ∧
      (t.order.Pairwise fun x y => s.input.idxOf x < s.input.idxOf y) ∧
      t.ndist.toNat = t.order.length ∧
      totalCount t.freq = s.inLen.toNat

/-- R201: COUNT of an input longer than IN_MEM raises LENGTH(0) and changes nothing else. -/
def Obligations.CountRefusesALongInput : Prop :=
  ∀ s : State, s.cfg.inDepth < s.inLen.toNat → exec .count s = .next (failed s .length 0)

/-! ### The priority queue -/

/-- R221: push inserts before the first node of strictly lesser weight, or at the tail. -/
def Obligations.PushInsertsBeforeTheFirstLighterNode : Prop :=
  ∀ (n : Node) (q : Queue), ∃ k, k ≤ q.length ∧ push n q = q.take k ++ n :: q.drop k ∧
    (∀ m ∈ q.take k, ¬ m.weight < n.weight) ∧ ∀ m ∈ (q.drop k).head?, m.weight < n.weight

/-- R222, R225: pop takes the tail, which no other node is lighter than in a queue of descending weights, and push and pop keep
the weights descending. -/
def Obligations.QueueStaysDescending : Prop :=
  ∀ q : Queue, (q.Pairwise fun a b => b.weight ≤ a.weight) →
    (∀ n, (push n q).Pairwise fun a b => b.weight ≤ a.weight) ∧
    (∀ n q', pop q = some (n, q') → q = q' ++ [n] ∧ (q'.Pairwise fun a b => b.weight ≤ a.weight) ∧
      ∀ m ∈ q', n.weight ≤ m.weight) ∧
    (pop q = none ↔ q = [])

/-- R224: the list queue and the keyed queue, from empty, return the same node at every pop of every script of pushes and
pops. -/
def Obligations.ListQueuePopsWhatTheKeyedQueuePops : Prop :=
  ∀ script : List QueueOp, listPops [] script = keyedPops ⟨[], 0⟩ script

/-! ### BUILD -/

/-- R241 to R245, R260 to R263: BUILD of a table of NDIST distinct symbols completes: the tree is the merge of the leaves, each
symbol's code is its path in it ("0" for a leaf root), every other entry is 0, ROOT_WEIGHT and MAXLEN are the tree's, and
nothing else changes. -/
def Obligations.BuildWritesThePathsOfTheMergedTree : Prop :=
  ∀ s : State, s.ndist ≠ 0 → s.ndist.toNat = s.order.length → s.order.Nodup →
    ∃ t root, exec .build s = .next t ∧
      t = succeeded { s with ct := t.ct, rootWeight := t.rootWeight, maxLen := t.maxLen } ∧
      MergesTo (pushLeaves s.freq s.order) root ∧
      (∀ x ∈ s.order, isPresent t.ct x = true ∧
        (s.order.length = 1 → codeOf t.ct x = [false]) ∧
        (s.order.length ≠ 1 → root.follow (codeOf t.ct x) = some x) ∧
        (Table.get t.ct x).code.toNat = val (codeOf t.ct x) ∧
        (codeOf t.ct x).length ≤ t.maxLen.toNat) ∧
      (∃ x ∈ s.order, (codeOf t.ct x).length = t.maxLen.toNat) ∧
      (∀ x, x ∉ s.order → Table.get t.ct x = ⟨0, 0⟩) ∧
      t.rootWeight = BitVec.ofNat 32 root.weight

/-- R264: after a successful BUILD (of NDIST distinct symbols) or ENCODE the table has exactly NDIST entries, one per symbol of
ORDER (after ENCODE the symbols of the input), every present code is nonempty, no present code is the beginning of another or equal to it, and the Kraft sum, in units
of 2^(-255), is 1, or 1/2 for a single symbol. -/
def Obligations.GeneratedTableIsCompleteAndPrefixFree : Prop :=
  ∀ (i : Instr) (s t : State),
    (i = .build ∧ s.ndist.toNat = s.order.length ∧ s.order.Nodup) ∨ i = .encode →
    exec i s = .next t → t.errCode = .none →
    (presentSymbols t.ct).length = t.ndist.toNat ∧
    (∀ x, isPresent t.ct x = true ↔ x ∈ t.order) ∧
    (i = .encode → ∀ x, x ∈ t.order ↔ x ∈ s.input) ∧
    (∀ x, isPresent t.ct x = true → codeOf t.ct x ≠ []) ∧
    PrefixFree t.ct ∧
    ((presentSymbols t.ct).map fun x => 2 ^ (255 - (Table.get t.ct x).len.toNat)).sum
      = if t.ndist.toNat = 1 then 2 ^ 254 else 2 ^ 255

/-- R246: after COUNT and BUILD, ROOT_WEIGHT is the length of the counted input. -/
def Obligations.RootWeightIsTheInputLength : Prop :=
  ∀ s : State, 1 ≤ s.inLen.toNat → s.inLen.toNat ≤ s.cfg.inDepth →
    ∃ a b, exec .count s = .next a ∧ exec .build a = .next b ∧ b.errCode = .none ∧ b.rootWeight = s.inLen

/-- R240, R247: the tree of NDIST distinct symbols has 2 NDIST - 1 nodes, at most NODE_CAP, and no code is longer than
NDIST - 1 bits (1 bit for a single symbol), so MAXLEN fits its 8 bits. -/
def Obligations.TreeFitsTheNodeStoreAndTheLenField : Prop :=
  ∀ (freq : Table Word) (order : List Symbol), order ≠ [] → order.Nodup →
    ∃ root, buildTree freq order = some root ∧ root.leaves.Perm order ∧
      root.count + 1 = 2 * order.length ∧ root.count ≤ Config.nodeCap ∧
      maxCodeLen (genCodes root) ≤ max 1 (order.length - 1) ∧ maxCodeLen (genCodes root) ≤ Config.maxCodeLen

/-- R249: BUILD of an empty table raises EMPTY_INPUT(0) and changes nothing else. -/
def Obligations.BuildRefusesAnEmptyTable : Prop :=
  ∀ s : State, s.ndist = 0 → exec .build s = .next (failed s .emptyInput 0)

/-- R248: what BUILD writes depends on FREQ, ORDER and NDIST alone. -/
def Obligations.BuildDependsOnTheFrequencyTableOnly : Prop :=
  ∀ s t a b : State, s.freq = t.freq → s.order = t.order → s.ndist = t.ndist →
    exec .build s = .next a → exec .build t = .next b → a.errCode = .none →
      b.errCode = .none ∧ b.ct = a.ct ∧ b.rootWeight = a.rootWeight ∧ b.maxLen = a.maxLen

/-! ### PACK -/

/-- R280, R282, R285: PACK of an input that fits, whose symbols all have entries and whose bits fit PK_MEM, completes: BIT_LEN is
the number of bits, byte j is group j of the bit string, and nothing else changes, no other byte either. -/
def Obligations.PackWritesTheGroupsOfTheBitString : Prop :=
  ∀ s : State, s.cfg.wf → Memory.wf s.pkMem → s.inLen.toNat ≤ s.cfg.inDepth →
    (∀ x ∈ s.input, 1 ≤ (Table.get s.ct x).len.toNat) →
    (s.input.flatMap (codeOf s.ct)).length ≤ 8 * s.cfg.pkDepth →
    ∃ t, exec .pack s = .next t ∧ t = succeeded { s with pkMem := t.pkMem, bitLen := t.bitLen } ∧
      t.bitLen.toNat = (s.input.flatMap (codeOf s.ct)).length ∧
      (∀ j, 8 * j < t.bitLen.toNat →
        (Memory.read t.pkMem j).toNat = val (((s.input.flatMap (codeOf s.ct)).drop (8 * j)).take 8)) ∧
      (∀ j, t.bitLen.toNat ≤ 8 * j → Memory.read t.pkMem j = Memory.read s.pkMem j)

/-- R281, R285, R286: the errors of PACK in order: LENGTH(0); UNKNOWN_SYMBOL at the least index of a symbol without entry;
CAPACITY at the least index at which the running bit count exceeds 8 * PK_DEPTH. Nothing else changes. -/
def Obligations.PackErrorsInOrder : Prop :=
  ∀ s : State,
    (s.cfg.inDepth < s.inLen.toNat → exec .pack s = .next (failed s .length 0)) ∧
    (s.inLen.toNat ≤ s.cfg.inDepth → ∀ i, i < s.inLen.toNat →
      (Table.get s.ct (Memory.read s.inMem i)).len = 0 →
      (∀ j < i, (Table.get s.ct (Memory.read s.inMem j)).len ≠ 0) →
      exec .pack s = .next (failed s .unknownSymbol i)) ∧
    (s.inLen.toNat ≤ s.cfg.inDepth → (∀ j < s.inLen.toNat, (Table.get s.ct (Memory.read s.inMem j)).len ≠ 0) →
      ∀ i, i < s.inLen.toNat →
      8 * s.cfg.pkDepth < ((s.input.take (i + 1)).flatMap (codeOf s.ct)).length →
      (∀ j < i, ((s.input.take (j + 1)).flatMap (codeOf s.ct)).length ≤ 8 * s.cfg.pkDepth) →
      exec .pack s = .next (failed s .capacity i))

/-- R287: unbytify of the bytes bytify wrote gives the bit string back and raises nothing. -/
def Obligations.UnbytifyInvertsBytify : Prop :=
  ∀ (pk : Memory) (bs : BitString), Memory.wf pk →
    unbytify (Memory.writeFrom pk 0 (bytify bs)) bs.length = .ok bs

/-- R284: the one byte 0x03 is bytify of seven bit strings, of lengths 2 to 8, and unpacks to each by its length. -/
def Obligations.OneByteStandsForSevenBitStrings : Prop :=
  ∀ B, 2 ≤ B → B ≤ 8 → bytify (bin B 3) = [0x03#8] ∧ unbytify [(0, 0x03#8)] B = .ok (bin B 3)

/-! ### DECODE -/

/-- R312, R315: DECODE of a bit string made of the codes of `out`, with a prefix-free table and room for `out`, completes: it
writes `out` to OUT_MEM from element 0 and its length to OUT_LEN, and nothing else changes, no other element either. -/
def Obligations.DecodeWritesTheSymbolsOfTheBitString : Prop :=
  ∀ (s : State) (out : List Symbol), Memory.wf s.outMem → s.bitLen.toNat ≤ 8 * s.cfg.pkDepth →
    PrefixFree s.ct → (∀ x ∈ out, isPresent s.ct x = true) → out.length ≤ s.cfg.outDepth →
    unbytify s.pkMem s.bitLen.toNat = .ok (out.flatMap (codeOf s.ct)) →
    ∃ t, exec .decode s = .next t ∧ t = succeeded { s with outMem := t.outMem, outLen := t.outLen } ∧
      t.outLen.toNat = out.length ∧
      (∀ k (h : k < out.length), Memory.read t.outMem k = out[k]) ∧
      (∀ k, out.length ≤ k → Memory.read t.outMem k = Memory.read s.outMem k)

/-- R311, R314, R315: the errors of DECODE found before the stream, in order: LENGTH(0); BAD_TABLE at the least symbol whose code
is the beginning of another's; BAD_PAD at the partial last byte. Nothing else changes. -/
def Obligations.DecodeChecksLengthTableAndPadding : Prop :=
  ∀ s : State,
    (8 * s.cfg.pkDepth < s.bitLen.toNat → exec .decode s = .next (failed s .length 0)) ∧
    (s.bitLen.toNat ≤ 8 * s.cfg.pkDepth → ∀ x y : Symbol, x ≠ y → isPresent s.ct x = true → isPresent s.ct y = true →
      codeOf s.ct x <+: codeOf s.ct y →
      (∀ a b : Symbol, a.toNat < x.toNat → a ≠ b → isPresent s.ct a = true → isPresent s.ct b = true →
        ¬ codeOf s.ct a <+: codeOf s.ct b) →
      exec .decode s = .next (failed s .badTable x.toNat)) ∧
    (s.bitLen.toNat ≤ 8 * s.cfg.pkDepth → PrefixFree s.ct → s.bitLen.toNat % 8 ≠ 0 →
      2 ^ (s.bitLen.toNat % 8) ≤ (Memory.read s.pkMem (s.bitLen.toNat / 8)).toNat →
      exec .decode s = .next (failed s .badPad (s.bitLen.toNat / 8)))

/-- R313, R315, R316: the errors of DECODE in the stream: with the codes of `out` read and bits left at the cursor, UNDECODABLE
when no code matches there, else CAPACITY when OUT_DEPTH symbols are already decoded; the position is the cursor. -/
def Obligations.DecodeStopsAtTheCursor : Prop :=
  ∀ (s : State) (out : List Symbol) (rest : BitString), s.bitLen.toNat ≤ 8 * s.cfg.pkDepth → PrefixFree s.ct →
    (∀ x ∈ out, isPresent s.ct x = true) → out.length ≤ s.cfg.outDepth → rest ≠ [] →
    unbytify s.pkMem s.bitLen.toNat = .ok (out.flatMap (codeOf s.ct) ++ rest) →
    ((∀ x, isPresent s.ct x = true → ¬ codeOf s.ct x <+: rest) →
      exec .decode s = .next (failed s .undecodable (out.flatMap (codeOf s.ct)).length)) ∧
    (∀ x, isPresent s.ct x = true → codeOf s.ct x <+: rest → out.length = s.cfg.outDepth →
      exec .decode s = .next (failed s .capacity (out.flatMap (codeOf s.ct)).length))

/-- R312: for a prefix-free table the match set at a cursor has at most one element, so no order of trying matters. -/
def Obligations.AtMostOneCodeMatches : Prop :=
  ∀ (ct : Table CtEntry) (rest : BitString), PrefixFree ct → (matchesAt ct rest).length ≤ 1 ∧
    ∀ x, x ∈ matchesAt ct rest ↔ (isPresent ct x = true ∧ codeOf ct x <+: rest)

/-- R316: with OUT_DEPTH at least 8 * PK_DEPTH, DECODE never reports CAPACITY. -/
def Obligations.DecodeNeverFillsADeepOutput : Prop :=
  ∀ s t : State, 8 * s.cfg.pkDepth ≤ s.cfg.outDepth → exec .decode s = .next t → t.errCode ≠ .capacity

/-! ### ENCODE -/

/-- R343: ENCODE of a nonempty input that fits and whose bits fit PK_MEM completes: the frequency table is COUNT's, the code
table, ROOT_WEIGHT and MAXLEN, the greatest code length of the table (R263), are BUILD's from it, PK_MEM and BIT_LEN are PACK's with that table, and nothing else changes, no other byte
either. -/
def Obligations.EncodeCountsBuildsAndPacks : Prop :=
  ∀ s : State, s.cfg.wf → Memory.wf s.pkMem → 1 ≤ s.inLen.toNat → s.inLen.toNat ≤ s.cfg.inDepth →
    (s.input.flatMap (codeOf (encodeTable s))).length ≤ 8 * s.cfg.pkDepth →
    ∃ t, exec .encode s = .next t ∧
      t = succeeded { s with
        freq := t.freq, order := t.order, ndist := t.ndist, ct := encodeTable s
        rootWeight := s.inLen, maxLen := t.maxLen, pkMem := t.pkMem, bitLen := t.bitLen } ∧
      (∀ x, (Table.get t.freq x).toNat = s.input.count x) ∧
      (∀ x, x ∈ t.order ↔ x ∈ s.input) ∧
      (t.order.Pairwise fun x y => s.input.idxOf x < s.input.idxOf y) ∧
      t.ndist.toNat = t.order.length ∧
      (∀ x, isPresent t.ct x = true ↔ x ∈ s.input) ∧
      (∀ x, (codeOf t.ct x).length ≤ t.maxLen.toNat) ∧
      (∃ x ∈ s.input, (codeOf t.ct x).length = t.maxLen.toNat) ∧
      t.bitLen.toNat = (s.input.flatMap (codeOf (encodeTable s))).length ∧
      (∀ j, 8 * j < t.bitLen.toNat → (Memory.read t.pkMem j).toNat
        = val (((s.input.flatMap (codeOf (encodeTable s))).drop (8 * j)).take 8)) ∧
      (∀ j, t.bitLen.toNat ≤ 8 * j → Memory.read t.pkMem j = Memory.read s.pkMem j)

/-- R343, R406: the errors of ENCODE in order: LENGTH(0), EMPTY_INPUT(0), CAPACITY at the least input index at which the running
bit count exceeds 8 * PK_DEPTH. Nothing else changes. -/
def Obligations.EncodeErrorsInOrder : Prop :=
  ∀ s : State,
    (s.cfg.inDepth < s.inLen.toNat → exec .encode s = .next (failed s .length 0)) ∧
    (s.inLen = 0 → exec .encode s = .next (failed s .emptyInput 0)) ∧
    (s.inLen.toNat ≤ s.cfg.inDepth → ∀ i, i < s.inLen.toNat →
      8 * s.cfg.pkDepth < ((s.input.take (i + 1)).flatMap (codeOf (encodeTable s))).length →
      (∀ j < i, ((s.input.take (j + 1)).flatMap (codeOf (encodeTable s))).length ≤ 8 * s.cfg.pkDepth) →
      exec .encode s = .next (failed s .capacity i))

/-- R343: COUNT, BUILD and PACK issued one after the other, each accepted and none failing, end as ENCODE does, but for
ENGINE.op. -/
def Obligations.EncodeIsCountThenBuildThenPack : Prop :=
  ∀ s a b c : State, s.inLen.toNat ≤ s.cfg.inDepth →
    exec .count s = .next a → exec .build (accept (Sys2Proof.encode .build) a) = .next b → b.errCode = .none →
    exec .pack (accept (Sys2Proof.encode .pack) b) = .next c → c.errCode = .none →
    exec .encode s = .next { c with op := s.op }

/-- R317: ENCODE, if it succeeds, then DECODE, with no host write but the two commands and whatever reads the host makes before
and after each completion, gives the input back: OUT_LEN is IN_LEN and OUT_MEM[0..n) is IN_MEM[0..n). -/
def Obligations.DecodeRecoversWhatEncodePacked : Prop :=
  ∀ (s t : State) (reads1 reads2 reads3 : List Offset), s.cfg.wf → Memory.wf s.pkMem → Memory.wf s.outMem →
    s.phase = .idle →
    s.schedule = .host (.write 0x00C 0x00000004) :: (readTurns reads1 ++ .engine :: (readTurns reads2
      ++ .host (.write 0x00C 0x00000005) :: (readTurns reads3 ++ [.engine]))) →
    s.inLen.toNat ≤ s.cfg.outDepth → steps (reads1.length + 2) s = .next t → t.errCode = .none →
    ∃ u, steps (reads1.length + 2 + (reads2.length + 1 + (reads3.length + 1))) s = .next u ∧ u.errCode = .none ∧
      u.done = true ∧ u.ended ∧ u.outLen = s.inLen ∧
      (∀ i < s.inLen.toNat, Memory.read u.outMem i = Memory.read s.inMem i) ∧ u.inMem = s.inMem

/-- R1: the encoded length is minimal: no assignment of nonempty bit strings to the input's symbols, none the beginning of
another, encodes the input in fewer bits than a successful ENCODE does. -/
def Obligations.EncodedLengthIsMinimal : Prop :=
  ∀ (s t : State) (code : Symbol → BitString), s.cfg.wf → exec .encode s = .next t → t.errCode = .none →
    (∀ x ∈ s.input, code x ≠ []) →
    (∀ x ∈ s.input, ∀ y ∈ s.input, x ≠ y → ¬ code x <+: code y) →
    t.bitLen.toNat ≤ (s.input.flatMap code).length

/-- R345: with PK_DEPTH at least IN_DEPTH, ENCODE of a nonempty input that fits completes. -/
def Obligations.EncodeAlwaysFitsADeepPackMemory : Prop :=
  ∀ s : State, s.cfg.wf → s.cfg.inDepth ≤ s.cfg.pkDepth → 1 ≤ s.inLen.toNat → s.inLen.toNat ≤ s.cfg.inDepth →
    ∃ t, exec .encode s = .next t ∧ t.errCode = .none ∧ t.bitLen.toNat ≤ 8 * s.inLen.toNat

/-! ### All commands -/

/-- R402, R404, R406: a command that ends with an error changes nothing but the report, and reports an error its body checks;
one that ends without has ERR 0, ERR_POS 0. -/
def Obligations.FailedCommandsChangeNothingElse : Prop :=
  ∀ (i : Instr) (s t : State), exec i s = .next t →
    (t.errCode ≠ .none → t = failed s t.errCode t.errPos.toNat ∧ t.errCode ∈ mayRaise i) ∧
    (t.errCode = .none → t = succeeded t)

/-- R405: a failed command issued again fails again with the same report. -/
def Obligations.ReissuedFailuresRepeat : Prop :=
  ∀ (i : Instr) (s t : State), exec i s = .next t → t.errCode ≠ .none →
    exec i (accept (Sys2Proof.encode i) t) = .next { t with op := .command i }

/-- R100, R153: what each command leaves unchanged when it completes. CTRL, ACC_ERR, IN_LEN, the pointers and selectors and
IN_MEM are unchanged by all; a register, table or memory that the command does not write is unchanged; of the memory it writes,
the elements beyond the written ones are unchanged. -/
def Obligations.CommandsWriteOnlyTheirOwnState : Prop :=
  ∀ (i : Instr) (s t : State), s.cfg.wf → Memory.wf s.pkMem → Memory.wf s.outMem → exec i s = .next t →
    t = { s with
      freq := t.freq, order := t.order, ndist := t.ndist, ct := t.ct, rootWeight := t.rootWeight, maxLen := t.maxLen
      pkMem := t.pkMem, bitLen := t.bitLen, outMem := t.outMem, outLen := t.outLen
      errCode := t.errCode, errPos := t.errPos, err := t.err, done := true, phase := .idle } ∧
    (i ∉ [.count, .encode] → t.freq = s.freq ∧ t.order = s.order ∧ t.ndist = s.ndist) ∧
    (i ∉ [.build, .encode, .ctclr] → t.ct = s.ct) ∧
    (i ∉ [.build, .encode] → t.rootWeight = s.rootWeight ∧ t.maxLen = s.maxLen) ∧
    (i ∉ [.pack, .encode] → t.bitLen = s.bitLen ∧ ∀ j, Memory.read t.pkMem j = Memory.read s.pkMem j) ∧
    (i ≠ .decode → t.outLen = s.outLen ∧ ∀ j, Memory.read t.outMem j = Memory.read s.outMem j) ∧
    (∀ j, t.bitLen.toNat ≤ 8 * j → Memory.read t.pkMem j = Memory.read s.pkMem j) ∧
    (∀ j, t.outLen.toNat ≤ j → Memory.read t.outMem j = Memory.read s.outMem j) ∧
    ∀ j, Memory.read t.inMem j = Memory.read s.inMem j

/-! ### The host's accesses -/

/-- R106: while RUN an access of a guarded register is refused: a read returns 0, a write is ignored, ACC_ERR is set, and nothing
else changes. That CMD is not among them for a read, and OUT_DATA is for a write, is the model's reading (assumptions 8, 9). -/
def Obligations.BusyGuardRefusesGuardedRegisters : Prop :=
  ∀ (s : State) (off : Offset) (r : Reg), s.phase = .run → regAt off = some r → r ∉ neverGuarded →
    hostStep (.read off) s = { s with accErr := true, reads := 0 :: s.reads } ∧
    ∀ v, hostStep (.write off v) s = { s with accErr := true }

/-- R36, R37, R48, R106: ID, VERSION, the CFG registers, CTRL and STATUS are read, and CTRL is written, in either phase, without
ACC_ERR. That a read of CMD is never refused is the model's reading (assumption 8). -/
def Obligations.UnguardedRegistersStayAccessible : Prop :=
  ∀ s : State,
    hostStep (.read 0x000) s = { s with reads := 0x48434531 :: s.reads } ∧
    hostStep (.read 0x004) s = { s with reads := 0x00000001 :: s.reads } ∧
    hostStep (.read 0x034) s = { s with reads := BitVec.ofNat 32 s.cfg.inDepth :: s.reads } ∧
    hostStep (.read 0x038) s = { s with reads := BitVec.ofNat 32 s.cfg.pkDepth :: s.reads } ∧
    hostStep (.read 0x03C) s = { s with reads := BitVec.ofNat 32 s.cfg.outDepth :: s.reads } ∧
    hostStep (.read 0x008) s = { s with reads := (if s.irqEn then 1 else 0) :: s.reads } ∧
    hostStep (.read 0x00C) s = { s with reads := 0 :: s.reads } ∧
    (∃ v, hostStep (.read 0x010) s = { s with reads := v :: s.reads }) ∧
    ∀ v : Word, hostStep (.write 0x008 v) s = { s with irqEn := v.getLsbD 0 }

/-- R33, R34: bits [1:0] of an offset are ignored by every access; the unmapped offsets are those of the gaps of the register map;
a read there returns 0 and a write is ignored, in either phase, without ACC_ERR. -/
def Obligations.UnmappedOffsetsReadZeroAndIgnoreWrites : Prop :=
  ∀ (s : State) (off : Offset),
    hostStep (.read off) s = hostStep (.read (off &&& 0xFFC)) s ∧
    (∀ v, hostStep (.write off v) s = hostStep (.write (off &&& 0xFFC) v) s) ∧
    (regAt off = none ↔ (0x058 ≤ off.toNat ∧ off.toNat < 0x060) ∨ (0x070 ≤ off.toNat ∧ off.toNat < 0x080) ∨
      0x0A8 ≤ off.toNat) ∧
    (regAt off = none → hostStep (.read off) s = { s with reads := 0 :: s.reads } ∧
      ∀ v, hostStep (.write off v) s = s)

/-- R104: a window access in range reads or writes the element its pointer names, with bits [31:8] of a write ignored, and
advances the pointer by one, without wrapping; every other element and register is unchanged. A write to the pointer sets it and
does nothing else, and a read returns it. -/
def Obligations.WindowsReachTheElementAndAdvance : Prop :=
  ∀ (s : State) (v : Word), s.cfg.wf → s.phase = .idle →
    (s.inAddr.toNat < s.cfg.inDepth →
      (s.inAddr + 1).toNat = s.inAddr.toNat + 1 ∧
      hostStep (.read 0x044) s
        = { s with inAddr := s.inAddr + 1, reads := (Memory.read s.inMem s.inAddr.toNat).setWidth 32 :: s.reads } ∧
      ∃ t, hostStep (.write 0x044 v) s = t ∧ t = { s with inAddr := s.inAddr + 1, inMem := t.inMem } ∧
        (Memory.wf s.inMem → ∀ j, Memory.read t.inMem j
          = if j = s.inAddr.toNat then v.setWidth 8 else Memory.read s.inMem j)) ∧
    (s.pkAddr.toNat < s.cfg.pkDepth →
      (s.pkAddr + 1).toNat = s.pkAddr.toNat + 1 ∧
      hostStep (.read 0x04C) s
        = { s with pkAddr := s.pkAddr + 1, reads := (Memory.read s.pkMem s.pkAddr.toNat).setWidth 32 :: s.reads } ∧
      ∃ t, hostStep (.write 0x04C v) s = t ∧ t = { s with pkAddr := s.pkAddr + 1, pkMem := t.pkMem } ∧
        (Memory.wf s.pkMem → ∀ j, Memory.read t.pkMem j
          = if j = s.pkAddr.toNat then v.setWidth 8 else Memory.read s.pkMem j)) ∧
    (s.outAddr.toNat < s.cfg.outDepth →
      (s.outAddr + 1).toNat = s.outAddr.toNat + 1 ∧
      hostStep (.read 0x054) s
        = { s with outAddr := s.outAddr + 1, reads := (Memory.read s.outMem s.outAddr.toNat).setWidth 32 :: s.reads }) ∧
    (hostStep (.write 0x040 v) s = { s with inAddr := v } ∧
      hostStep (.read 0x040) s = { s with reads := s.inAddr :: s.reads }) ∧
    (hostStep (.write 0x048 v) s = { s with pkAddr := v } ∧
      hostStep (.read 0x048) s = { s with reads := s.pkAddr :: s.reads }) ∧
    hostStep (.write 0x050 v) s = { s with outAddr := v } ∧
      hostStep (.read 0x050) s = { s with reads := s.outAddr :: s.reads }

/-- R107: a window access out of range is refused: a read returns 0, a write is ignored, the pointer stays, ACC_ERR is set. -/
def Obligations.WindowsOutOfRangeAreRefused : Prop :=
  ∀ (s : State) (v : Word), s.phase = .idle →
    (s.cfg.inDepth ≤ s.inAddr.toNat →
      hostStep (.read 0x044) s = { s with accErr := true, reads := 0 :: s.reads } ∧
      hostStep (.write 0x044 v) s = { s with accErr := true }) ∧
    (s.cfg.pkDepth ≤ s.pkAddr.toNat →
      hostStep (.read 0x04C) s = { s with accErr := true, reads := 0 :: s.reads } ∧
      hostStep (.write 0x04C v) s = { s with accErr := true }) ∧
    (s.cfg.outDepth ≤ s.outAddr.toNat →
      hostStep (.read 0x054) s = { s with accErr := true, reads := 0 :: s.reads })

/-- R33, R36, R48, R105, R106: when IDLE a write to a read-only register, OUT_DATA among them, changes nothing, and while RUN a
write to one that is never guarded (ID, VERSION, the CFG registers) changes nothing and sets no ACC_ERR. -/
def Obligations.ReadOnlyRegistersIgnoreWrites : Prop :=
  ∀ (s : State) (off : Offset) (r : Reg) (v : Word), regAt off = some r → r ∈ readOnly →
    s.phase = .idle ∨ r ∈ neverGuarded → hostStep (.write off v) s = s

/-- R39, R409: a write to STATUS, in either phase, clears DONE, ERR and ACC_ERR where the word has a 1 and leaves them where it
has a 0, and changes nothing else. -/
def Obligations.StatusWritesClearByOnes : Prop :=
  ∀ (s : State) (v : Word), hostStep (.write 0x010 v) s = { s with
    done := if v.getLsbD 1 then false else s.done
    err := if v.getLsbD 2 then false else s.err
    accErr := if v.getLsbD 3 then false else s.accErr }

/-- R39, R400: a read of STATUS returns BUSY in bit 0, DONE in bit 1, ERR in bit 2, ACC_ERR in bit 3, ERR_CODE in bits [11:8] and
zeros elsewhere. -/
def Obligations.StatusReadsItsFields : Prop :=
  ∀ s : State, ∃ v : Word, hostStep (.read 0x010) s = { s with reads := v :: s.reads } ∧
    v.toNat = (if s.phase = .run then 1 else 0) + (if s.done then 2 else 0) + (if s.err then 4 else 0)
      + (if s.accErr then 8 else 0) + 256 * (match s.errCode with
        | .none => 0 | .emptyInput => 1 | .emptyQueue => 2 | .unknownSymbol => 3 | .undecodable => 4
        | .illegalCmd => 5 | .length => 6 | .capacity => 7 | .badTable => 8 | .badPad => 9)

/-- R410: IRQ is IRQ_EN and DONE: every completion, successful or not, an illegal word's too, raises it when enabled; clearing
DONE, clearing IRQ_EN, or the acceptance of a command lowers it; clearing IRQ_EN keeps DONE. -/
def Obligations.InterruptFollowsDoneAndEnable : Prop :=
  ∀ s : State, (s.irq = true ↔ s.irqEn = true ∧ s.done = true) ∧
    (∀ i t, exec i s = .next t → t.irq = s.irqEn) ∧
    (∀ t, execIllegal s = .next t → t.irq = s.irqEn) ∧
    (∀ v : Word, v.getLsbD 1 = true → (hostStep (.write 0x010 v) s).irq = false) ∧
    (∀ v : Word, v.getLsbD 0 = false →
      (hostStep (.write 0x008 v) s).irq = false ∧ (hostStep (.write 0x008 v) s).done = s.done) ∧
    (∀ w : Word, s.phase = .idle → (hostStep (.write 0x00C w) s).irq = false)

/-- R35, R41, R42, R49 to R56, R458: when IDLE a register that stores what is written reads back its implemented bits at once. -/
def Obligations.WrittenRegistersReadBack : Prop :=
  ∀ (s : State) (off : Offset) (r : Reg) (v m : Word), s.phase = .idle → regAt off = some r → storedBits r = some m →
    hostStep (.read off) (hostStep (.write off v) s)
      = { hostStep (.write off v) s with reads := (v &&& m) :: s.reads }

/-- R35, R41, R42, R49 to R56: when IDLE a register write stores its implemented bits in its own register, or in the entry of the
code table that CT_SEL selects, and changes nothing else. -/
def Obligations.RegisterWritesChangeOneRegister : Prop :=
  ∀ (s : State) (v : Word), s.phase = .idle →
    hostStep (.write 0x018 v) s = { s with inLen := v } ∧
    hostStep (.write 0x01C v) s = { s with bitLen := v } ∧
    hostStep (.write 0x040 v) s = { s with inAddr := v } ∧
    hostStep (.write 0x048 v) s = { s with pkAddr := v } ∧
    hostStep (.write 0x050 v) s = { s with outAddr := v } ∧
    hostStep (.write 0x060 v) s = { s with ftSel := v.setWidth 8 } ∧
    hostStep (.write 0x068 v) s = { s with ftRank := v.setWidth 8 } ∧
    hostStep (.write 0x080 v) s = { s with ctSel := v.setWidth 8 } ∧
    (∃ t, hostStep (.write 0x084 v) s = t ∧ t = { s with ct := t.ct } ∧
      ∀ x, Table.get t.ct x
        = if x = s.ctSel then { Table.get s.ct x with len := v.setWidth 8 } else Table.get s.ct x) ∧
    ∀ k : Fin 8, ∃ t, hostStep (.write (0x088 + BitVec.ofNat 12 (4 * k.val)) v) s = t ∧ t = { s with ct := t.ct } ∧
      (∀ x, x ≠ s.ctSel → Table.get t.ct x = Table.get s.ct x) ∧
      (Table.get t.ct s.ctSel).len = (Table.get s.ct s.ctSel).len ∧
      ∀ b < 256, (Table.get t.ct s.ctSel).code.getLsbD b
        = if b / 32 = k.val then v.getLsbD (b % 32) else (Table.get s.ct s.ctSel).code.getLsbD b

/-- R33, R36 to R58, R110: when IDLE a read of a register that is no window, at any of the four offsets of its word, returns the
register's value and changes nothing: those of `readValues`; FT_RANK_SYM, the symbol of rank FT_RANK, or 0 where there is none;
CT_CODEk, bits [32k+31:32k] of the CODE of the entry that CT_SEL selects. -/
def Obligations.ResultRegistersReadTheirState : Prop :=
  ∀ (s : State) (off : Offset), s.phase = .idle → s.ndist.toNat = s.order.length →
    (∀ p ∈ readValues s, off &&& 0xFFC = p.1 → hostStep (.read off) s = { s with reads := p.2 :: s.reads }) ∧
    (off &&& 0xFFC = 0x06C →
      (∀ h : s.ftRank.toNat < s.order.length,
        hostStep (.read off) s = { s with reads := (s.order[s.ftRank.toNat]).setWidth 32 :: s.reads }) ∧
      (s.ndist.toNat ≤ s.ftRank.toNat → hostStep (.read off) s = { s with reads := 0 :: s.reads })) ∧
    ∀ k : Fin 8, off &&& 0xFFC = 0x088 + BitVec.ofNat 12 (4 * k.val) →
      ∃ v : Word, hostStep (.read off) s = { s with reads := v :: s.reads } ∧
        ∀ b < 32, v.getLsbD b = (Table.get s.ct s.ctSel).code.getLsbD (32 * k.val + b)

/-- R110: only reads of the three windows, and while RUN of guarded registers, may have a side effect; every other read changes
nothing but what the bus returned. That a read of CMD while RUN has none is the model's reading (assumption 8). -/
def Obligations.OnlyWindowAndGuardedReadsHaveSideEffects : Prop :=
  ∀ (s : State) (off : Offset),
    ({ hostStep (.read off) s with reads := s.reads } = s) ∨
    (∃ r, regAt off = some r ∧ s.phase = .run ∧ r ∉ neverGuarded) ∨
    (regAt off = some .inData ∨ regAt off = some .pkData ∨ regAt off = some .outData)

/-- R408: a host access sets ACC_ERR exactly when it is refused, and only a write of 1 to bit 3 of STATUS clears it; no command
and no acceptance changes it; and a refused access does not change the interrupt. That a read of CMD while RUN is
not refused and a write of OUT_DATA then is, is the model's reading (assumptions 8 and 9). -/
def Obligations.AccErrRecordsRefusedAccesses : Prop :=
  ∀ s : State,
    (∀ a, (hostStep a s).accErr = true ↔
      isRefused s a = true ∨
      (s.accErr = true ∧ ¬ ∃ off v, a = .write off v ∧ off &&& 0xFFC = 0x010 ∧ v.getLsbD 3 = true)) ∧
    (∀ i t, exec i s = .next t → t.accErr = s.accErr) ∧
    (∀ w, (accept w s).accErr = s.accErr) ∧
    ∀ a, isRefused s a = true → (hostStep a s).irq = s.irq

/-- R116, R119, R402: no host accesses while a command runs change what it reads or writes, whichever and however many they are:
they change only CTRL, DONE, ERR, ACC_ERR and what the bus returned, and the command ends as it would have without them. -/
def Obligations.HostCannotDisturbARunningCommand : Prop :=
  ∀ (s : State) (as : List Access), s.phase = .run →
    hostSteps as s = { s with
      irqEn := (hostSteps as s).irqEn, done := (hostSteps as s).done, err := (hostSteps as s).err
      accErr := (hostSteps as s).accErr, reads := (hostSteps as s).reads } ∧
    ∀ i t, exec i s = .next t → exec i (hostSteps as s) = .next { t with
      irqEn := (hostSteps as s).irqEn, accErr := (hostSteps as s).accErr, reads := (hostSteps as s).reads }

/-- R157: SETCT writes LEN and all eight words of CODE of one entry, whatever they held. -/
def Obligations.SetctWritesOneEntry : Prop :=
  ∀ (s : State) (x : Symbol) (len : BitVec 8) (v : Code) (ts : List Turn), s.phase = .idle →
    s.schedule = expand (.setct x len v) ++ ts →
    steps 10 s = .next { s with ctSel := x, ct := Table.set s.ct x ⟨len, v⟩, schedule := ts }

/-- R157, R461: a WAIT reads STATUS until the value read has BUSY 0. On an idle engine that is one read, whatever the line says of
polls. On a running command the reads return BUSY 1 until the command has completed; the last read has BUSY 0 and DONE 1, and
the engine is IDLE. How many reads fall before the completion is how the model lays a WAIT out (assumption 11). -/
def Obligations.WaitEndsWithBusyClear : Prop :=
  ∀ (s : State) (polls : Nat) (e : Option Word) (ts : List Turn), s.Inv → s.schedule = expand (.wait polls e) ++ ts →
    (s.phase = .idle → (statusWord s).getLsbD 0 = false ∧
      step s = .next { s with schedule := ts, reads := statusWord s :: s.reads }) ∧
    (s.phase = .run → (statusWord s).getLsbD 0 = true ∧
      ∃ t v, steps (polls + 2) s = .next t ∧ t.schedule = ts ∧ t.phase = .idle ∧ t.done = true ∧
        v.getLsbD 0 = false ∧ v.getLsbD 1 = true ∧
        t.reads = v :: (List.replicate polls (statusWord s) ++ s.reads))

/-! ### Reset and the machine as a whole -/

/-- R451: a reset in any state, a running command's among them, leaves every piece of state at its reset value; ENGINE.op, the
CODE values and the memories are as drawn, and every draw of canonical memories is possible; ID, VERSION and the CFG registers
read their constants. -/
def Obligations.ResetReachesTheResetState : Prop :=
  ∀ (s : State) (d : Draw) (ts : List Turn), s.schedule = .reset d :: ts →
    ∃ t, step s = .next t ∧
      t = {
        cfg := s.cfg, phase := .idle, op := d.op, irqEn := false, done := false, err := false, accErr := false
        errCode := .none, errPos := 0, inLen := 0, bitLen := 0, outLen := 0, ndist := 0, rootWeight := 0, maxLen := 0
        inAddr := 0, pkAddr := 0, outAddr := 0, ftSel := 0, ftRank := 0, ctSel := 0
        freq := Vector.replicate 256 0, order := [], ct := t.ct, inMem := t.inMem, pkMem := t.pkMem, outMem := t.outMem
        schedule := t.schedule, reads := t.reads } ∧
      statusWord t = 0 ∧ ctrlWord t = 0 ∧ t.pkLen = 0 ∧ t.irq = false ∧
      hostStep (.read 0x000) t = { t with reads := 0x48434531 :: t.reads } ∧
      hostStep (.read 0x004) t = { t with reads := 0x00000001 :: t.reads } ∧
      hostStep (.read 0x034) t = { t with reads := BitVec.ofNat 32 s.cfg.inDepth :: t.reads } ∧
      hostStep (.read 0x038) t = { t with reads := BitVec.ofNat 32 s.cfg.pkDepth :: t.reads } ∧
      hostStep (.read 0x03C) t = { t with reads := BitVec.ofNat 32 s.cfg.outDepth :: t.reads } ∧
      (∀ x, (Table.get t.ct x).len = 0 ∧ (Table.get t.ct x).code = Table.get d.codes x) ∧
      (Memory.wf d.inMem → ∀ j < s.cfg.inDepth, Memory.read t.inMem j = Memory.read d.inMem j) ∧
      (Memory.wf d.pkMem → ∀ j < s.cfg.pkDepth, Memory.read t.pkMem j = Memory.read d.pkMem j) ∧
      (Memory.wf d.outMem → ∀ j < s.cfg.outDepth, Memory.read t.outMem j = Memory.read d.outMem j)

/-- R451: the values the spec gives the reset state. -/
def Obligations.ResetRegisterValues : Prop :=
  State.reset.phase = .idle ∧ State.reset.irqEn = false ∧ statusWord State.reset = 0 ∧ State.reset.errPos = 0 ∧
  State.reset.inLen = 0 ∧ State.reset.bitLen = 0 ∧ State.reset.outLen = 0 ∧ State.reset.pkLen = 0 ∧
  State.reset.ndist = 0 ∧ State.reset.rootWeight = 0 ∧ State.reset.maxLen = 0 ∧
  State.reset.inAddr = 0 ∧ State.reset.pkAddr = 0 ∧ State.reset.outAddr = 0 ∧
  State.reset.ftSel = 0 ∧ State.reset.ftRank = 0 ∧ State.reset.ctSel = 0 ∧ State.reset.order = [] ∧
  State.reset.irq = false ∧ State.reset.cfg = ⟨4096, 4096, 32768⟩ ∧
  ∀ x, Table.get State.reset.freq x = 0 ∧ (Table.get State.reset.ct x).len = 0

/-- The reset state meets the invariant. -/
def Obligations.ResetMeetsTheInvariant : Prop := State.reset.Inv

/-- Every step keeps the invariant, whoever moves and whatever the schedule holds: the parameters stay in range, the memories
stay canonical and within their depths, ORDER and NDIST stay the distinct counted symbols, the counts stay within IN_DEPTH,
OUT_LEN within OUT_DEPTH, code 2 is never written, and the report stays consistent. -/
def Obligations.EveryStepKeepsTheInvariant : Prop :=
  ∀ s t : State, s.Inv → step s = .next t → t.Inv

/-- R407: in a state that meets the invariant every step answers a next state, with the same parameters: no pop finds an empty
queue, and ERR_CODE is never 2. Over all states, no command is refused, and the only fault is BUILD's with NDIST at least 1 and an
empty ORDER, which the invariant rules out; that BUILD faults there is the model's choice, which R407 allows (assumption 15). -/
def Obligations.NoStepFaults : Prop :=
  (∀ s : State, s.Inv → ∃ t, step s = .next t ∧ t.cfg = s.cfg ∧ t.errCode ≠ .emptyQueue) ∧
  (∀ (i : Instr) (s : State) (f : Fault), exec i s = .fault f ↔
    i = .build ∧ s.ndist ≠ 0 ∧ s.order = [] ∧ f = .emptyQueue) ∧
  ∀ (i : Instr) (s : State) (r : Refusal), exec i s ≠ .refused r
end

