-- ==== Sys2Proof/Laws/Bits.lean ====
section
/-! SUPPORT. Bit strings: `bin` and `val` are inverse to each other. -/

namespace Sys2Proof.Machine

@[simp] theorem length_bin (L v : Nat) : (bin L v).length = L := by
  induction L with
  | zero => rfl
  | succ L ih => simp [bin, ih]

theorem val_lt (bs : BitString) : val bs < 2 ^ bs.length := by
  induction bs with
  | nil => simp [val]
  | cons b bs ih =>
    have : b.toNat ≤ 1 := Bool.toNat_le b
    simp only [val, List.length_cons, pow_succ]
    nlinarith

theorem testBit_val_cons (b : Bool) (bs : BitString) : (val (b :: bs)).testBit bs.length = b := by
  have h := val_lt bs
  cases b
  · simpa [val] using Nat.testBit_lt_two_pow h
  · simp only [val, Bool.toNat_true, one_mul]
    rw [Nat.testBit_two_pow_add_eq, Nat.testBit_lt_two_pow h]
    rfl

/-- `bin` reads only the low `L` bits. -/
theorem bin_congr {L v w : Nat} (h : ∀ i < L, v.testBit i = w.testBit i) : bin L v = bin L w := by
  induction L with
  | zero => rfl
  | succ L ih =>
    simp only [bin]
    rw [h L (Nat.lt_succ_self L), ih fun i hi => h i (Nat.lt_succ_of_lt hi)]

/-- `bin_L(val(bs)) = bs` (`00_scope.md` R11). -/
theorem bin_val (bs : BitString) : bin bs.length (val bs) = bs := by
  induction bs with
  | nil => rfl
  | cons b bs ih =>
    simp only [List.length_cons, bin, testBit_val_cons]
    congr 1
    rw [← ih, length_bin]
    refine bin_congr fun i hi => ?_
    rw [ih, val, Nat.mul_comm, Nat.testBit_two_pow_mul_add _ (val_lt bs)]
    simp [hi]

theorem val_bin (L v : Nat) : val (bin L v) = v % 2 ^ L := by
  induction L with
  | zero => simp [bin, val, Nat.mod_one]
  | succ L ih =>
    simp only [bin, val, ih, length_bin]
    rw [Nat.mod_pow_succ, Nat.testBit_eq_decide_div_mod_eq]
    have h2 : v / 2 ^ L % 2 < 2 := Nat.mod_lt _ (by decide)
    have hcase : v / 2 ^ L % 2 = 0 ∨ v / 2 ^ L % 2 = 1 := by omega
    obtain h | h := hcase <;> (simp [h]; try ring)

theorem bin_mod {L v : Nat} (k : Nat) (h : L ≤ k) : bin L (v % 2 ^ k) = bin L v :=
  bin_congr fun i hi => by
    rw [Nat.testBit_mod_two_pow]
    simp [lt_of_lt_of_le hi h]

end Sys2Proof.Machine
end

