-- ==== Sys2Proof/Laws/Tables.lean ====
section
/-! SUPPORT. Tables indexed by symbol: what `get` reads after `set` and `tabulate`, and the list of all symbols. -/

namespace Sys2Proof.Machine

theorem mem_symbols (x : Symbol) : x ∈ symbols := by
  simp only [symbols, List.mem_map, List.mem_range]
  exact ⟨x.toNat, x.isLt, by simp⟩

theorem symbols_nodup : symbols.Nodup := by
  refine List.Nodup.map_on (fun a ha b hb h => ?_) List.nodup_range
  rw [List.mem_range] at ha hb
  have := congrArg BitVec.toNat h
  simpa [Nat.mod_eq_of_lt, ha, hb] using this

theorem length_symbols : symbols.length = 256 := by simp [symbols]

theorem getElem_symbols (i : Nat) (h : i < symbols.length) : symbols[i] = BitVec.ofNat 8 i := by
  simp [symbols]

@[simp] theorem get_set_self {α : Type} (t : Table α) (x : Symbol) (a : α) : Table.get (Table.set t x a) x = a := by
  simp [Table.get, Table.set]

theorem get_set_of_ne {α : Type} (t : Table α) {x y : Symbol} (a : α) (h : y ≠ x) :
    Table.get (Table.set t x a) y = Table.get t y := by
  have hn : x.toNat ≠ y.toNat := fun hxy => h (BitVec.eq_of_toNat_eq hxy.symm)
  simp [Table.get, Table.set, hn]

theorem get_set {α : Type} (t : Table α) (x y : Symbol) (a : α) :
    Table.get (Table.set t x a) y = if y = x then a else Table.get t y := by
  split
  · subst_vars; simp
  · exact get_set_of_ne t a ‹_›

@[simp] theorem get_tabulate {α : Type} (f : Symbol → α) (x : Symbol) : Table.get (Table.tabulate f) x = f x := by
  simp [Table.get, Table.tabulate, symbols]

@[simp] theorem get_replicate {α : Type} (a : α) (x : Symbol) : Table.get (Vector.replicate 256 a) x = a := by
  simp [Table.get]

/-- Two tables with equal entries are equal. -/
theorem table_ext {α : Type} {t u : Table α} (h : ∀ x, Table.get t x = Table.get u x) : t = u := by
  apply Vector.ext
  intro i hi
  have := h (BitVec.ofNat 8 i)
  simpa [Table.get, Nat.mod_eq_of_lt hi] using this

theorem set_set {α : Type} (t : Table α) (x : Symbol) (a b : α) : Table.set (Table.set t x a) x b = Table.set t x b :=
  table_ext fun y => by simp only [get_set]; split <;> rfl

theorem zip_symbols {α : Type} (t : Table α) : symbols.zip t.toList = symbols.map fun x => (x, Table.get t x) := by
  apply List.ext_getElem
  · simp [length_symbols]
  · intro i h1 h2
    have hi : i < 256 := by simpa [length_symbols] using h2
    simp [getElem_symbols, Table.get, Nat.mod_eq_of_lt hi]

/-- The present symbols are those of the 256 with LEN ≥ 1, in rising order. -/
theorem presentSymbols_eq (ct : Table CtEntry) : presentSymbols ct = symbols.filter (isPresent ct) := by
  rw [presentSymbols, zip_symbols, List.filter_map, List.map_map]
  exact List.map_id _

@[simp] theorem mem_presentSymbols (ct : Table CtEntry) (x : Symbol) : x ∈ presentSymbols ct ↔ isPresent ct x = true := by
  simp [presentSymbols_eq, mem_symbols]

theorem presentSymbols_nodup (ct : Table CtEntry) : (presentSymbols ct).Nodup := by
  rw [presentSymbols_eq]
  exact symbols_nodup.filter _

/-- The least symbol with a property is the one a search in rising order finds. -/
theorem find_symbols {p : Symbol → Bool} {x : Symbol} (hx : p x = true) (hmin : ∀ a : Symbol, a.toNat < x.toNat → p a = false) :
    symbols.find? p = some x := by
  rw [List.find?_eq_some_iff_getElem]
  refine ⟨hx, x.toNat, by rw [length_symbols]; exact x.isLt, ?_, fun j hj => ?_⟩
  · rw [getElem_symbols]; simp
  · rw [getElem_symbols, hmin]
    · rfl
    · rw [BitVec.toNat_ofNat]; have := x.isLt; omega

end Sys2Proof.Machine
end

