-- ==== Sys2Proof/Laws/Counting.lean ====
section
/-! SUPPORT. The loop of COUNT: what `tally` computes, as facts about the input. -/

namespace Sys2Proof.Machine

theorem tally_append (xs : List Symbol) (s : Symbol) : tally (xs ++ [s]) = countOne (tally xs) s := by
  simp [tally]

/-- FREQ holds the number of occurrences, as a 32-bit count. -/
theorem tally_freq (xs : List Symbol) (x : Symbol) : Table.get (tally xs).1 x = BitVec.ofNat 32 (xs.count x) := by
  induction xs using List.reverseRecOn with
  | nil => simp [tally]
  | append_singleton xs s ih =>
    rw [tally_append]
    simp only [countOne, get_set, List.count_append, List.count_singleton]
    by_cases h : x = s
    · subst h; simp [ih, BitVec.ofNat_add]
    · have : (s == x) = false := by simpa using Ne.symm h
      simp [h, ih, this]

theorem tally_freq_toNat {xs : List Symbol} (h : xs.length < 2 ^ 32) (x : Symbol) :
    (Table.get (tally xs).1 x).toNat = xs.count x := by
  have hc : xs.count x < 2 ^ 32 := lt_of_le_of_lt List.count_le_length h
  rw [tally_freq, BitVec.toNat_ofNat, Nat.mod_eq_of_lt hc]

/-- ORDER holds each symbol of the input, in the order of first occurrence. -/
theorem tally_order {xs : List Symbol} (h : xs.length < 2 ^ 32) :
    (∀ x, x ∈ (tally xs).2 ↔ x ∈ xs) ∧ (tally xs).2.Pairwise fun a b => xs.idxOf a < xs.idxOf b := by
  induction xs using List.reverseRecOn with
  | nil => simp [tally]
  | append_singleton xs s ih =>
    have hl : xs.length < 2 ^ 32 := by simp at h; omega
    obtain ⟨hmem, hsort⟩ := ih hl
    have hzero : Table.get (tally xs).1 s = 0 ↔ s ∉ xs := by
      rw [← List.count_eq_zero, ← tally_freq_toNat hl s]
      exact ⟨fun h0 => by simp [h0], fun h0 => BitVec.eq_of_toNat_eq (by simpa using h0)⟩
    have hkeep : (tally xs).2.Pairwise fun a b => (xs ++ [s]).idxOf a < (xs ++ [s]).idxOf b := by
      refine hsort.imp_of_mem fun {a b} ha hb hab => ?_
      rwa [List.idxOf_append_of_mem ((hmem a).1 ha), List.idxOf_append_of_mem ((hmem b).1 hb)]
    rw [tally_append]
    simp only [countOne, hzero]
    by_cases hs : s ∈ xs
    · simp only [hs, not_true_eq_false, if_false]
      refine ⟨fun x => ?_, hkeep⟩
      rw [hmem, List.mem_append, List.mem_singleton]
      exact ⟨.inl, fun h => h.elim id (fun h => h ▸ hs)⟩
    · simp only [hs, not_false_eq_true, if_true]
      refine ⟨fun x => by simp [hmem], ?_⟩
      refine List.pairwise_append.2 ⟨hkeep, by simp, fun a ha b hb => ?_⟩
      obtain rfl := List.mem_singleton.1 hb
      rw [List.idxOf_append_of_mem ((hmem a).1 ha), List.idxOf_append_of_notMem hs]
      have := List.idxOf_lt_length_of_mem ((hmem a).1 ha)
      omega

theorem tally_nodup {xs : List Symbol} (h : xs.length < 2 ^ 32) : (tally xs).2.Nodup :=
  (tally_order h).2.imp fun {a b} hab => by rintro rfl; exact lt_irrefl _ hab

/-- A list of distinct symbols has at most NSYM elements. -/
theorem length_le_of_nodup {l : List Symbol} (h : l.Nodup) : l.length ≤ 256 := by
  have hsub : l ⊆ symbols := fun x _ => mem_symbols x
  have := (h.subperm hsub).length_le
  rwa [length_symbols] at this

/-- The counts of all symbols sum to the length of the input. -/
theorem sum_count_symbols (xs : List Symbol) : (symbols.map fun x => xs.count x).sum = xs.length := by
  induction xs with
  | nil => simp
  | cons s xs ih =>
    have hone : (symbols.map fun x => if s = x then 1 else 0).sum = 1 := by
      have : ∀ l : List Symbol, l.Nodup → (l.map fun x => if s = x then 1 else 0).sum = if s ∈ l then 1 else 0 := by
        intro l hl
        induction l with
        | nil => simp
        | cons a l ihl =>
          obtain ⟨ha, hl'⟩ := List.nodup_cons.1 hl
          by_cases h : s = a
          · subst h; simp [ihl hl', ha]
          · simp [ihl hl', h]
      rw [this symbols symbols_nodup]
      simp [mem_symbols]
    simp only [List.count_cons, beq_iff_eq, List.sum_map_add, ih, List.length_cons, hone]

/-- A sum over an input, gathered by symbol. -/
theorem sum_by_symbol {xs order : List Symbol} (f : Symbol → Nat) (hn : order.Nodup) (h : ∀ x ∈ xs, x ∈ order) :
    (xs.map f).sum = (order.map fun x => xs.count x * f x).sum := by
  induction xs with
  | nil => simp
  | cons a xs ih =>
    have ih := ih fun x hx => h x (by simp [hx])
    have hp := List.perm_cons_erase (h a (by simp))
    have hna : a ∉ order.erase a := (List.nodup_cons.1 (hp.nodup_iff.1 hn)).1
    have hrest : (order.erase a).map (fun x => (a :: xs).count x * f x)
        = (order.erase a).map (fun x => xs.count x * f x) := by
      refine List.map_congr_left fun x hx => ?_
      rw [List.count_cons_of_ne]
      rintro rfl; exact hna hx
    rw [(hp.map _).sum_eq] at ih ⊢
    simp only [List.map_cons, List.sum_cons, List.count_cons_self] at ih ⊢
    rw [ih, hrest]
    ring

end Sys2Proof.Machine
end

