-- ==== Sys2Proof/Laws/Memory.lean ====
section
/-! SUPPORT. Memories: what a read gives after a write, the canonical form is kept, and equal contents are equal data. -/

namespace Sys2Proof.Machine

/-- In a canonical memory every index listed after `c` is above `c`. -/
theorem Memory.wf_cons {c : Host.Cell} {m : Memory} :
    Memory.wf (c :: m) ↔ (∀ d ∈ m, c.1 < d.1) ∧ c.2 ≠ Memory.unlisted ∧ Memory.wf m := by
  simp only [Memory.wf, List.pairwise_cons, List.mem_cons, forall_eq_or_imp]
  tauto

theorem Memory.read_of_lt {m : Memory} {i : Nat} (h : ∀ c ∈ m, i < c.1) : Memory.read m i = Memory.unlisted := by
  induction m with
  | nil => rfl
  | cons c m ih =>
    have hc : c.1 ≠ i := by have := h c (by simp); omega
    simp only [Memory.read, hc, if_false]
    exact ih fun d hd => h d (by simp [hd])

/-- Every cell of a write is an old one or the one written. -/
theorem Memory.mem_write {m : Memory} {i : Nat} {v : Byte} {c : Host.Cell} (h : c ∈ Memory.write m i v) :
    c ∈ m ∨ (c = (i, v) ∧ v ≠ Memory.unlisted) := by
  induction m with
  | nil =>
    simp only [Memory.write] at h
    split at h
    · simp at h
    · simp only [List.mem_singleton] at h
      exact .inr ⟨h, ‹_›⟩
  | cons d m ih =>
    simp only [Memory.write] at h
    split at h
    · split at h
      · exact .inl h
      · rcases List.mem_cons.1 h with h | h
        · exact .inr ⟨h, ‹_›⟩
        · exact .inl h
    · split at h
      · split at h
        · exact .inl (by simp [h])
        · rcases List.mem_cons.1 h with h | h
          · exact .inr ⟨h, ‹_›⟩
          · exact .inl (by simp [h])
      · rcases List.mem_cons.1 h with h | h
        · exact .inl (by simp [h])
        · rcases ih h with h | h
          · exact .inl (by simp [h])
          · exact .inr h

/-- A write keeps the canonical form. -/
theorem Memory.wf_write {m : Memory} (h : Memory.wf m) (i : Nat) (v : Byte) : Memory.wf (Memory.write m i v) := by
  induction m with
  | nil =>
    simp only [Memory.write]
    split
    · exact h
    · simp [Memory.wf, *]
  | cons c m ih =>
    obtain ⟨hlt, hv, hm⟩ := Memory.wf_cons.1 h
    simp only [Memory.write]
    split
    · split
      · exact h
      · refine Memory.wf_cons.2 ⟨fun d hd => ?_, ‹_›, h⟩
        rcases List.mem_cons.1 hd with rfl | hd
        · assumption
        · exact lt_trans ‹_› (hlt d hd)
    · split
      · split
        · exact hm
        · subst_vars
          exact Memory.wf_cons.2 ⟨hlt, ‹_›, hm⟩
      · refine Memory.wf_cons.2 ⟨fun d hd => ?_, hv, ih hm⟩
        rcases Memory.mem_write hd with hd | ⟨rfl, -⟩
        · exact hlt d hd
        · show c.1 < i
          omega

/-- A write below the depth lists nothing beyond it. -/
theorem Memory.within_write {m : Memory} {depth : Nat} (h : Memory.within m depth) {i : Nat} (hi : i < depth) (v : Byte) :
    Memory.within (Memory.write m i v) depth := fun c hc => by
  rcases Memory.mem_write hc with hc | ⟨rfl, -⟩
  · exact h c hc
  · exact hi

/-- A read after a write: the byte written there, the old byte elsewhere. -/
theorem Memory.read_write {m : Memory} (h : Memory.wf m) (i j : Nat) (v : Byte) :
    Memory.read (Memory.write m i v) j = if j = i then v else Memory.read m j := by
  induction m with
  | nil =>
    by_cases hj : j = i
    · subst hj
      by_cases hv : v = Memory.unlisted <;> simp [Memory.write, Memory.read, hv]
    · by_cases hv : v = Memory.unlisted <;> simp [Memory.write, Memory.read, hv, hj, Ne.symm hj]
  | cons c m ih =>
    obtain ⟨hlt, -, hm⟩ := Memory.wf_cons.1 h
    by_cases h1 : i < c.1
    · have hread : Memory.read (c :: m) i = Memory.unlisted := Memory.read_of_lt fun d hd => by
        rcases List.mem_cons.1 hd with rfl | hd
        · exact h1
        · exact lt_trans h1 (hlt d hd)
      by_cases hv : v = Memory.unlisted
      · simp only [Memory.write, h1, hv, if_true]
        split
        · subst_vars; exact hread
        · rfl
      · simp only [Memory.write, h1, hv, if_true, if_false]
        by_cases hj : j = i
        · subst hj; simp [Memory.read]
        · simp [Memory.read, hj, Ne.symm hj]
    · by_cases h2 : i = c.1
      · by_cases hv : v = Memory.unlisted
        · simp only [Memory.write, h2, hv, if_true, if_false, lt_irrefl]
          by_cases hj : j = c.1
          · subst hj; simp [Memory.read_of_lt hlt]
          · simp [Memory.read, hj, Ne.symm hj]
        · simp only [Memory.write, h2, hv, if_true, if_false, lt_irrefl]
          by_cases hj : j = c.1
          · subst hj; simp [Memory.read]
          · simp [Memory.read, hj, Ne.symm hj]
      · simp only [Memory.write, h1, h2, if_false, Memory.read, ih hm]
        by_cases hj : c.1 = j
        · have : j ≠ i := by omega
          simp [hj, this]
        · simp [hj]

/-- Canonical memories with equal contents are equal. -/
theorem Memory.ext {m n : Memory} (hm : Memory.wf m) (hn : Memory.wf n) (h : ∀ i, Memory.read m i = Memory.read n i) :
    m = n := by
  induction m generalizing n with
  | nil =>
    cases n with
    | nil => rfl
    | cons d n =>
      have := h d.1
      simp only [Memory.read, if_true] at this
      exact absurd this.symm (Memory.wf_cons.1 hn).2.1
  | cons c m ih =>
    obtain ⟨hlt, hv, hm'⟩ := Memory.wf_cons.1 hm
    cases n with
    | nil =>
      have := h c.1
      simp only [Memory.read, if_true] at this
      exact absurd this hv
    | cons d n =>
      obtain ⟨hltd, hvd, hn'⟩ := Memory.wf_cons.1 hn
      have key : c.1 = d.1 := by
        by_contra hne
        rcases lt_or_gt_of_ne hne with hlt' | hlt'
        · have hc := h c.1
          rw [Memory.read_of_lt (m := d :: n) (i := c.1)] at hc
          · simp only [Memory.read, if_true] at hc
            exact hv hc
          · intro e he
            rcases List.mem_cons.1 he with rfl | he
            · exact hlt'
            · exact lt_trans hlt' (hltd e he)
        · have hd := h d.1
          rw [Memory.read_of_lt (m := c :: m) (i := d.1)] at hd
          · simp only [Memory.read, if_true] at hd
            exact hvd hd.symm
          · intro e he
            rcases List.mem_cons.1 he with rfl | he
            · exact hlt'
            · exact lt_trans hlt' (hlt e he)
      have hcd : c = d := by
        have := h c.1
        simp only [Memory.read, key, if_true] at this
        exact Prod.ext key this
      subst hcd
      congr 1
      refine ih hm' hn' fun i => ?_
      by_cases hi : c.1 = i
      · subst hi
        rw [Memory.read_of_lt hlt, Memory.read_of_lt hltd]
      · have := h i
        simpa only [Memory.read, hi, if_false] using this

theorem Memory.wf_writeFrom {m : Memory} (h : Memory.wf m) (i : Nat) (vs : List Byte) :
    Memory.wf (Memory.writeFrom m i vs) := by
  induction vs generalizing m i with
  | nil => exact h
  | cons v vs ih => exact ih (Memory.wf_write h i v) (i + 1)

theorem Memory.within_writeFrom {m : Memory} {depth : Nat} (h : Memory.within m depth) (i : Nat) (vs : List Byte)
    (hi : i + vs.length ≤ depth) : Memory.within (Memory.writeFrom m i vs) depth := by
  induction vs generalizing m i with
  | nil => exact h
  | cons v vs ih =>
    simp only [List.length_cons] at hi
    exact ih (Memory.within_write h (by omega) v) (i + 1) (by omega)

/-- What a run of writes leaves: the bytes written at `i`, `i + 1`, …, the old bytes elsewhere. -/
theorem Memory.read_writeFrom {m : Memory} (h : Memory.wf m) (i j : Nat) (vs : List Byte) :
    Memory.read (Memory.writeFrom m i vs) j
      = if i ≤ j then (vs[j - i]?).getD (Memory.read m j) else Memory.read m j := by
  induction vs generalizing m i with
  | nil => simp [Memory.writeFrom]
  | cons v vs ih =>
    rw [Memory.writeFrom, ih (Memory.wf_write h i v), Memory.read_write h]
    rcases lt_trichotomy i j with hij | rfl | hij
    · have h1 : i + 1 ≤ j := hij
      have h2 : j ≠ i := by omega
      obtain ⟨k, rfl⟩ := Nat.exists_eq_add_of_le h1
      simp [h2, show i + 1 + k - i = k + 1 by omega]
      omega
    · simp
    · have h1 : ¬ i + 1 ≤ j := by omega
      have h2 : ¬ i ≤ j := by omega
      simp [h1, h2, show j ≠ i by omega]

theorem Memory.read_of_within {m : Memory} {depth i : Nat} (h : Memory.within m depth) (hi : depth ≤ i) :
    Memory.read m i = Memory.unlisted := by
  induction m with
  | nil => rfl
  | cons c m ih =>
    have hc : c.1 ≠ i := by have := h c (by simp); omega
    simp only [Memory.read, hc, if_false]
    exact ih fun d hd => h d (by simp [hd])

/-- A fold of writes keeps the canonical form and the depth. -/
theorem Memory.wf_foldl_write {m : Memory} (h : Memory.wf m) (cells : Memory) :
    Memory.wf (cells.foldl (fun m c => Memory.write m c.1 c.2) m) := by
  induction cells generalizing m with
  | nil => exact h
  | cons c cs ih => exact ih (Memory.wf_write h c.1 c.2)

theorem Memory.within_foldl_write {m : Memory} {depth : Nat} (h : Memory.within m depth) (cells : Memory)
    (hc : ∀ c ∈ cells, c.1 < depth) : Memory.within (cells.foldl (fun m c => Memory.write m c.1 c.2) m) depth := by
  induction cells generalizing m with
  | nil => exact h
  | cons c cs ih =>
    exact ih (Memory.within_write h (hc c (by simp)) c.2) fun d hd => hc d (by simp [hd])

/-- Every drawn memory is canonical and lists only elements that exist. -/
theorem Memory.wf_drawn (depth : Nat) (cells : Memory) :
    Memory.wf (Memory.drawn depth cells) ∧ Memory.within (Memory.drawn depth cells) depth :=
  ⟨Memory.wf_foldl_write (by simp [Memory.wf]) _,
   Memory.within_foldl_write (by simp [Memory.within]) _ fun c hc => by simpa using (List.mem_filter.1 hc).2⟩

theorem Memory.read_foldl_write {m : Memory} (h : Memory.wf m) {cells : Memory}
    (hcells : cells.Pairwise fun c d => c.1 < d.1) (i : Nat) :
    Memory.read (cells.foldl (fun m c => Memory.write m c.1 c.2) m) i
      = if (∃ c ∈ cells, c.1 = i) then Memory.read cells i else Memory.read m i := by
  induction cells generalizing m with
  | nil => simp
  | cons c cs ih =>
    obtain ⟨hlt, hcs⟩ := List.pairwise_cons.1 hcells
    rw [List.foldl_cons, ih (Memory.wf_write h c.1 c.2) hcs, Memory.read_write h]
    by_cases hi : c.1 = i
    · subst hi
      have hno : ¬ ∃ d ∈ cs, d.1 = c.1 := fun ⟨d, hd, he⟩ => by have := hlt d hd; omega
      simp [hno, Memory.read]
    · simp [hi, Ne.symm hi, Memory.read]

/-- A canonical draw is what the memory holds, at every index below the depth. -/
theorem Memory.read_drawn {depth : Nat} {cells : Memory} (h : Memory.wf cells) {i : Nat} (hi : i < depth) :
    Memory.read (Memory.drawn depth cells) i = Memory.read cells i := by
  have hread : ∀ m : Memory, Memory.read (m.filter fun c => c.1 < depth) i = Memory.read m i := by
    intro m
    induction m with
    | nil => rfl
    | cons c m ih =>
      by_cases hc : c.1 < depth
      · simp [hc, Memory.read, ih]
      · have : c.1 ≠ i := by omega
        simp [hc, Memory.read, ih, this]
  have hnone : ∀ m : Memory, (¬ ∃ c ∈ m, c.1 = i) → Memory.read m i = Memory.unlisted := by
    intro m hm
    induction m with
    | nil => rfl
    | cons c m ih =>
      have hc : c.1 ≠ i := fun he => hm ⟨c, by simp, he⟩
      simp only [Memory.read, hc, if_false]
      exact ih fun ⟨d, hd, he⟩ => hm ⟨d, by simp [hd], he⟩
  rw [Memory.drawn, Memory.read_foldl_write (by simp [Memory.wf]) (h.1.filter _), hread]
  split
  · rfl
  · rename_i hno
    rw [← hread cells, hnone _ hno]
    rfl

theorem Memory.length_first (m : Memory) (n : Nat) : (Memory.first m n).length = n := by simp [Memory.first]

theorem Memory.getElem_first (m : Memory) (n i : Nat) (h : i < (Memory.first m n).length) :
    (Memory.first m n)[i] = Memory.read m i := by simp [Memory.first]

end Sys2Proof.Machine
end

