-- ==== Sys2Proof/Laws/Packing.lean ====
section
/-! SUPPORT. Packing: stringify, bytify and unbytify, and the two searches of PACK. -/

namespace Sys2Proof.Machine

theorem ceilDiv_eight (n : Nat) : ceilDiv n 8 = if n % 8 = 0 then n / 8 else n / 8 + 1 := by
  unfold ceilDiv
  split <;> omega

@[simp] theorem length_codeOf (ct : Table CtEntry) (x : Symbol) : (codeOf ct x).length = (Table.get ct x).len.toNat := by
  simp [codeOf, CtEntry.bits]

theorem isPresent_iff (ct : Table CtEntry) (x : Symbol) : isPresent ct x = true ↔ 1 ≤ (Table.get ct x).len.toNat := by
  rw [isPresent, CtEntry.present, bne_iff_ne, ne_eq, ← BitVec.toNat_inj]
  show ¬ (Table.get ct x).len.toNat = 0 ↔ _
  omega

theorem codeOf_ne_nil {ct : Table CtEntry} {x : Symbol} (h : isPresent ct x = true) : codeOf ct x ≠ [] := by
  rw [isPresent_iff, ← length_codeOf] at h
  exact List.length_pos_iff.1 h

@[simp] theorem stringify_nil (ct : Table CtEntry) : stringify ct [] = [] := rfl

@[simp] theorem stringify_cons (ct : Table CtEntry) (x : Symbol) (xs : List Symbol) :
    stringify ct (x :: xs) = codeOf ct x ++ stringify ct xs := by simp [stringify]

theorem stringify_append (ct : Table CtEntry) (xs ys : List Symbol) :
    stringify ct (xs ++ ys) = stringify ct xs ++ stringify ct ys := by simp [stringify]

/-- Every present code has at least one bit. -/
theorem length_le_stringify {ct : Table CtEntry} {xs : List Symbol} (h : ∀ x ∈ xs, isPresent ct x = true) :
    xs.length ≤ (stringify ct xs).length := by
  induction xs with
  | nil => simp
  | cons x xs ih =>
    have hx := (isPresent_iff ct x).1 (h x (by simp))
    have := ih fun y hy => h y (by simp [hy])
    simp only [List.length_cons, stringify_cons, List.length_append, length_codeOf]
    omega

@[simp] theorem length_bytify (bs : BitString) : (bytify bs).length = ceilDiv bs.length 8 := by simp [bytify]

theorem getElem?_bytify (bs : BitString) {j : Nat} (h : j < ceilDiv bs.length 8) : (bytify bs)[j]? = some (group bs j) := by
  simp [bytify, h]

theorem toNat_group (bs : BitString) (j : Nat) : (group bs j).toNat = val ((bs.drop (8 * j)).take 8) := by
  have h := val_lt ((bs.drop (8 * j)).take 8)
  have hl : ((bs.drop (8 * j)).take 8).length ≤ 8 := by simp
  have h2 : 2 ^ ((bs.drop (8 * j)).take 8).length ≤ 2 ^ 8 := Nat.pow_le_pow_right (by decide) hl
  rw [group, BitVec.toNat_ofNat, Nat.mod_eq_of_lt (by omega)]

/-- The bits of a full group. -/
theorem bin_group {bs : BitString} {j : Nat} (h : 8 * j + 8 ≤ bs.length) :
    bin 8 (group bs j).toNat = (bs.drop (8 * j)).take 8 := by
  have hl : ((bs.drop (8 * j)).take 8).length = 8 := by simp; omega
  have hb := bin_val ((bs.drop (8 * j)).take 8)
  rw [hl] at hb
  rw [toNat_group, hb]

/-- The whole bytes of a packed bit string unpack to its full groups. -/
theorem unpackFull_eq {pk : Memory} {bs : BitString} {n : Nat} (hn : 8 * n ≤ bs.length)
    (h : ∀ j < n, Memory.read pk j = group bs j) : unpackFull pk n = bs.take (8 * n) := by
  induction n with
  | zero => simp [unpackFull]
  | succ n ih =>
    have ih' := ih (by omega) fun j hj => h j (by omega)
    simp only [unpackFull] at ih' ⊢
    rw [List.range_succ, List.flatMap_append, ih']
    simp only [List.flatMap_cons, List.flatMap_nil, List.append_nil]
    rw [h n (Nat.lt_succ_self n), bin_group (by omega), show 8 * (n + 1) = 8 * n + 8 by ring, List.take_add]

/-- unbytify of the bytes of bytify gives the bit string back (`45_bit_packer.md` R287). -/
theorem unbytify_of_groups {pk : Memory} {bs : BitString} (h : ∀ j < ceilDiv bs.length 8, Memory.read pk j = group bs j) :
    unbytify pk bs.length = .ok bs := by
  rw [ceilDiv_eight] at h
  by_cases hr : bs.length % 8 = 0
  · simp only [hr, if_true] at h
    rw [unbytify, if_pos hr, unpackFull_eq (by omega) h, List.take_of_length_le (by omega)]
  · simp only [hr, if_false] at h
    have hl : ((bs.drop (8 * (bs.length / 8))).take 8) = bs.drop (8 * (bs.length / 8)) :=
      List.take_of_length_le (by simp; omega)
    have hv : (Memory.read pk (bs.length / 8)).toNat = val (bs.drop (8 * (bs.length / 8))) := by
      rw [h _ (Nat.lt_succ_self _), toNat_group, hl]
    have hlen : (bs.drop (8 * (bs.length / 8))).length = bs.length % 8 := by simp; omega
    have hlt := val_lt (bs.drop (8 * (bs.length / 8)))
    rw [hlen] at hlt
    rw [unbytify, if_neg hr, if_neg (by omega), unpackFull_eq (by omega) fun j hj => h j (by omega), hv]
    have hb := bin_val (bs.drop (8 * (bs.length / 8)))
    rw [hlen] at hb
    rw [hb, List.take_append_drop]

theorem unpackFull_length (pk : Memory) (n : Nat) : (unpackFull pk n).length = 8 * n := by
  induction n with
  | zero => simp [unpackFull]
  | succ n ih =>
    simp only [unpackFull] at ih ⊢
    rw [List.range_succ, List.flatMap_append, List.length_append, ih]
    simp
    ring

/-- unbytify returns as many bits as it is asked for. -/
theorem length_of_unbytify {pk : Memory} {B : Nat} {bs : BitString} (h : unbytify pk B = .ok bs) : bs.length = B := by
  unfold unbytify at h
  split at h
  · cases h; rw [unpackFull_length]; omega
  · split at h
    · cases h
    · cases h; rw [List.length_append, unpackFull_length, length_bin]; omega

/-- How unbytify ends. -/
theorem unbytify_cases (pk : Memory) (B : Nat) :
    (∃ bs, unbytify pk B = .ok bs ∧ bs.length = B) ∨
    (B % 8 ≠ 0 ∧ 2 ^ (B % 8) ≤ (Memory.read pk (B / 8)).toNat ∧ unbytify pk B = .error (.raise .badPad (B / 8))) := by
  unfold unbytify
  split
  · exact .inl ⟨_, rfl, by rw [unpackFull_length]; omega⟩
  · split
    · exact .inr ⟨‹_›, ‹_›, rfl⟩
    · exact .inl ⟨_, rfl, by rw [List.length_append, unpackFull_length, length_bin]; omega⟩

/-! ### The searches of PACK -/

theorem firstUnknown_eq_none {ct : Table CtEntry} {xs : List Symbol} :
    firstUnknown ct xs = none ↔ ∀ x ∈ xs, isPresent ct x = true := by
  simp [firstUnknown, List.findIdx?_eq_none_iff]

/-- The bits of the first symbols of an input. -/
theorem firstOverflow_eq_none {ct : Table CtEntry} {limit B i : Nat} {xs : List Symbol} (hB : B ≤ limit) :
    firstOverflow ct limit B i xs = none ↔ B + (stringify ct xs).length ≤ limit := by
  induction xs generalizing B i with
  | nil => simp [firstOverflow, hB]
  | cons x xs ih =>
    simp only [firstOverflow, stringify_cons, List.length_append, length_codeOf]
    split
    · simp; omega
    · rw [ih (by omega)]; omega

/-- firstOverflow finds the least index at which the running count exceeds the limit. -/
theorem firstOverflow_eq_some {ct : Table CtEntry} {limit B i k : Nat} {xs : List Symbol} :
    firstOverflow ct limit B i xs = some (i + k) ↔
      k < xs.length ∧ limit < B + (stringify ct (xs.take (k + 1))).length ∧
        ∀ j < k, B + (stringify ct (xs.take (j + 1))).length ≤ limit := by
  induction xs generalizing B i k with
  | nil => simp [firstOverflow]
  | cons x xs ih =>
    simp only [firstOverflow, List.take_succ_cons, stringify_cons, List.length_append, length_codeOf, List.length_cons]
    split
    · rename_i h
      constructor
      · intro he
        have : k = 0 := by simpa using he
        subst this
        exact ⟨by omega, by simpa using h, by simp⟩
      · rintro ⟨-, -, hall⟩
        cases k with
        | zero => rfl
        | succ k => have := hall 0 (by omega); simp at this; omega
    · rename_i h
      cases k with
      | zero =>
        have hne : firstOverflow ct limit (B + (Table.get ct x).len.toNat) (i + 1) xs ≠ some (i + 0) := by
          have : ∀ (B i : Nat) (xs : List Symbol) (m : Nat), firstOverflow ct limit B i xs = some m → i ≤ m := by
            intro B i xs
            induction xs generalizing B i with
            | nil => simp [firstOverflow]
            | cons y ys ihy =>
              intro m hm
              simp only [firstOverflow] at hm
              split at hm
              · simp at hm; omega
              · have := ihy _ _ _ hm; omega
          intro he
          have := this _ _ _ _ he
          omega
        simp only [hne, false_iff]
        rintro ⟨-, h2, -⟩
        simp at h2
        omega
      | succ k =>
        rw [show i + (k + 1) = (i + 1) + k by ring, ih]
        constructor
        · rintro ⟨h1, h2, h3⟩
          refine ⟨by omega, by omega, fun j hj => ?_⟩
          cases j with
          | zero => simp; omega
          | succ j => have := h3 j (by omega); omega
        · rintro ⟨h1, h2, h3⟩
          refine ⟨by omega, by omega, fun j hj => ?_⟩
          have := h3 (j + 1) (by omega)
          omega

theorem length_stringify (ct : Table CtEntry) (xs : List Symbol) :
    (stringify ct xs).length = (xs.map fun x => (codeOf ct x).length).sum := by
  simp [stringify, List.length_flatMap]

/-- Packing a bit string writes its groups and no other element. -/
theorem read_packed {pk : Memory} (h : Memory.wf pk) (bs : BitString) (j : Nat) :
    Memory.read (Memory.writeFrom pk 0 (bytify bs)) j = if 8 * j < bs.length then group bs j else Memory.read pk j := by
  have hc : 8 * j < bs.length ↔ j < ceilDiv bs.length 8 := by rw [ceilDiv_eight]; split <;> omega
  rw [Memory.read_writeFrom h]
  by_cases hj : 8 * j < bs.length
  · simp [hj, getElem?_bytify bs (hc.1 hj)]
  · have : (bytify bs)[j]? = none := by rw [List.getElem?_eq_none_iff, length_bytify]; omega
    simp [hj, this]

end Sys2Proof.Machine
end

