-- ==== Sys2Proof/Laws/Decoding.lean ====
section
/-! SUPPORT. Decoding: the prefix-free check, the match set, and the loop of DECODE on a bit string made of codes. -/

namespace Sys2Proof.Machine

/-- A symbol offends when its code is the beginning of, or equal to, another present symbol's. -/
theorem offends_iff (ct : Table CtEntry) (x : Symbol) :
    offends ct x = true ↔ ∃ y, y ≠ x ∧ isPresent ct y = true ∧ codeOf ct x <+: codeOf ct y := by
  simp only [offends, List.any_eq_true, mem_presentSymbols, Bool.and_eq_true, bne_iff_ne, ne_eq, List.isPrefixOf_iff_prefix]
  constructor
  · rintro ⟨y, hy, hne, hp⟩; exact ⟨y, fun h => hne h.symm, hy, hp⟩
  · rintro ⟨y, hne, hy, hp⟩; exact ⟨y, hy, fun h => hne h.symm, hp⟩

/-- The check passes exactly on prefix-free tables. -/
theorem firstOffender_eq_none (ct : Table CtEntry) : firstOffender ct = none ↔ PrefixFree ct := by
  simp only [firstOffender, List.find?_eq_none, mem_presentSymbols, offends_iff, PrefixFree]
  constructor
  · intro h x y hne hx hy hp
    exact h x hx ⟨y, fun e => hne e.symm, hy, hp⟩
  · rintro h x hx ⟨y, hne, hy, hp⟩
    exact h x y (fun e => hne e.symm) hx hy hp

theorem mem_matchesAt {ct : Table CtEntry} {rest : BitString} {x : Symbol} :
    x ∈ matchesAt ct rest ↔ isPresent ct x = true ∧ codeOf ct x <+: rest := by
  simp [matchesAt, List.isPrefixOf_iff_prefix]

theorem matchesAt_nodup (ct : Table CtEntry) (rest : BitString) : (matchesAt ct rest).Nodup :=
  (presentSymbols_nodup ct).filter _

/-- With a prefix-free table at most one code matches (`46_decoder.md` R312). -/
theorem matchesAt_unique {ct : Table CtEntry} (h : PrefixFree ct) {rest : BitString} {x y : Symbol}
    (hx : x ∈ matchesAt ct rest) (hy : y ∈ matchesAt ct rest) : x = y := by
  by_contra hne
  obtain ⟨hx, hpx⟩ := mem_matchesAt.1 hx
  obtain ⟨hy, hpy⟩ := mem_matchesAt.1 hy
  rcases List.prefix_or_prefix_of_prefix hpx hpy with hp | hp
  · exact h x y hne hx hy hp
  · exact h y x (Ne.symm hne) hy hx hp

theorem matchesAt_eq {ct : Table CtEntry} (h : PrefixFree ct) {rest : BitString} {x : Symbol} (hx : isPresent ct x = true)
    (hp : codeOf ct x <+: rest) : matchesAt ct rest = [x] := by
  have hmem : x ∈ matchesAt ct rest := mem_matchesAt.2 ⟨hx, hp⟩
  have hn := matchesAt_nodup ct rest
  match hm : matchesAt ct rest with
  | [] => rw [hm] at hmem; simp at hmem
  | [a] => rw [hm] at hmem; simp at hmem; rw [hmem]
  | a :: b :: l =>
    have hab : a = b := matchesAt_unique h (by rw [hm]; simp) (by rw [hm]; simp)
    rw [hm, hab] at hn
    simp at hn

/-- The loop of DECODE reads the codes of `xs` one after the other. -/
theorem decodeLoop_stringify {ct : Table CtEntry} (h : PrefixFree ct) {outDepth : Nat} {xs : List Symbol}
    (hx : ∀ x ∈ xs, isPresent ct x = true) {rest : BitString} {fuel p : Nat} {out : List Symbol}
    (hf : (stringify ct xs).length + rest.length ≤ fuel) (hd : out.length + xs.length ≤ outDepth) :
    ∃ fuel', rest.length ≤ fuel' ∧ decodeLoop ct outDepth fuel (stringify ct xs ++ rest) p out
      = decodeLoop ct outDepth fuel' rest (p + (stringify ct xs).length) (out ++ xs) := by
  induction xs generalizing fuel p out with
  | nil => exact ⟨fuel, by simpa using hf, by simp⟩
  | cons x xs ih =>
    have hpx := hx x (by simp)
    have hlen := (isPresent_iff ct x).1 hpx
    simp only [stringify_cons, List.length_append, length_codeOf, List.length_cons] at hf hd
    obtain ⟨f, rfl⟩ : ∃ f, fuel = f + 1 := ⟨fuel - 1, by omega⟩
    have hne : (codeOf ct x ++ (stringify ct xs ++ rest)).isEmpty = false := by
      have := codeOf_ne_nil hpx
      cases hc : codeOf ct x with
      | nil => exact absurd hc this
      | cons b bs => rfl
    have hm := matchesAt_eq h (rest := codeOf ct x ++ (stringify ct xs ++ rest)) hpx (List.prefix_append _ _)
    have hout : out.length ≠ outDepth := by omega
    obtain ⟨f', hf', heq⟩ := ih (fun y hy => hx y (by simp [hy])) (fuel := f)
      (p := p + (Table.get ct x).len.toNat) (out := out ++ [x]) (by omega) (by simp; omega)
    refine ⟨f', hf', ?_⟩
    rw [stringify_cons, List.append_assoc, decodeLoop]
    simp only [hne, Bool.false_eq_true, if_false, hm, hout]
    rw [List.drop_append_of_le_length (by simp), ← length_codeOf, List.drop_length, List.nil_append, length_codeOf, heq]
    simp [Nat.add_assoc]

/-- A bit string made of codes decodes to their symbols. -/
theorem decodeBits_stringify {ct : Table CtEntry} (h : PrefixFree ct) {outDepth : Nat} {xs : List Symbol}
    (hx : ∀ x ∈ xs, isPresent ct x = true) (hd : xs.length ≤ outDepth) :
    decodeBits ct outDepth (stringify ct xs) = .ok xs := by
  obtain ⟨f, -, heq⟩ := decodeLoop_stringify h hx (rest := []) (fuel := (stringify ct xs).length) (p := 0) (out := [])
    (by simp) (by simpa using hd)
  rw [decodeBits, ← List.append_nil (stringify ct xs)] 
  simp only [List.append_nil] at heq ⊢
  rw [heq]
  cases f <;> simp [decodeLoop]

/-- The loop at a cursor from which no code matches. -/
theorem decodeLoop_undecodable {ct : Table CtEntry} {outDepth fuel p : Nat} {rest : BitString} {out : List Symbol}
    (hf : rest.length ≤ fuel) (hne : rest ≠ []) (hm : matchesAt ct rest = []) :
    decodeLoop ct outDepth fuel rest p out = .error (.raise .undecodable p) := by
  obtain ⟨f, rfl⟩ : ∃ f, fuel = f + 1 := ⟨fuel - 1, by have := List.length_pos_iff.2 hne; omega⟩
  have : rest.isEmpty = false := by simpa using hne
  simp [decodeLoop, this, hm]

/-- The loop at a cursor where a code matches and the output is full. -/
theorem decodeLoop_capacity {ct : Table CtEntry} {outDepth fuel p : Nat} {rest : BitString} {out : List Symbol}
    (hf : rest.length ≤ fuel) (hne : rest ≠ []) (hm : matchesAt ct rest ≠ []) (hout : out.length = outDepth) :
    decodeLoop ct outDepth fuel rest p out = .error (.raise .capacity p) := by
  obtain ⟨f, rfl⟩ : ∃ f, fuel = f + 1 := ⟨fuel - 1, by have := List.length_pos_iff.2 hne; omega⟩
  have : rest.isEmpty = false := by simpa using hne
  obtain ⟨a, l, hal⟩ := List.exists_cons_of_ne_nil hm
  simp [decodeLoop, this, hal, hout]

/-- How the loop of DECODE ends, whatever the bits: decoded whole, or stopped by the first of UNDECODABLE and CAPACITY. -/
theorem decodeLoop_cases {ct : Table CtEntry} {outDepth fuel : Nat} {rest : BitString} {p : Nat} {out : List Symbol}
    (hf : rest.length ≤ fuel) (hd : out.length ≤ outDepth) :
    ∃ xs tail, (∀ x ∈ xs, isPresent ct x = true) ∧ rest = stringify ct xs ++ tail ∧
      (out ++ xs).length ≤ outDepth ∧
      ((tail = [] ∧ decodeLoop ct outDepth fuel rest p out = .ok (out ++ xs)) ∨
       (tail ≠ [] ∧ matchesAt ct tail = [] ∧
         decodeLoop ct outDepth fuel rest p out = .error (.raise .undecodable (p + (stringify ct xs).length))) ∨
       (tail ≠ [] ∧ matchesAt ct tail ≠ [] ∧ (out ++ xs).length = outDepth ∧
         decodeLoop ct outDepth fuel rest p out = .error (.raise .capacity (p + (stringify ct xs).length)))) := by
  induction fuel generalizing rest p out with
  | zero =>
    have : rest = [] := by simpa using hf
    subst this
    exact ⟨[], [], by simp, by simp, by simpa using hd, .inl ⟨rfl, by simp [decodeLoop]⟩⟩
  | succ fuel ih =>
    by_cases hne : rest = []
    · subst hne
      exact ⟨[], [], by simp, by simp, by simpa using hd, .inl ⟨rfl, by simp [decodeLoop]⟩⟩
    · match hm : matchesAt ct rest with
      | [] =>
        exact ⟨[], rest, by simp, by simp, by simpa using hd,
          .inr (.inl ⟨hne, hm, by simpa using decodeLoop_undecodable hf hne hm⟩)⟩
      | a :: l =>
        by_cases hout : out.length = outDepth
        · exact ⟨[], rest, by simp, by simp, by simpa using hd,
            .inr (.inr ⟨hne, by simp [hm], by simpa using hout,
              by simpa using decodeLoop_capacity hf hne (by simp [hm]) hout⟩)⟩
        · obtain ⟨ha, hpa⟩ := mem_matchesAt.1 (show a ∈ matchesAt ct rest by simp [hm])
          obtain ⟨tl, rfl⟩ := hpa
          have hlen := (isPresent_iff ct a).1 ha
          have hemp : (codeOf ct a ++ tl).isEmpty = false := by simpa using hne
          have hstep : decodeLoop ct outDepth (fuel + 1) (codeOf ct a ++ tl) p out
              = decodeLoop ct outDepth fuel tl (p + (Table.get ct a).len.toNat) (out ++ [a]) := by
            rw [decodeLoop]
            simp only [hemp, Bool.false_eq_true, if_false, hm, hout]
            rw [List.drop_append_of_le_length (by simp), ← length_codeOf, List.drop_length, List.nil_append, length_codeOf]
          simp only [List.length_append, length_codeOf] at hf
          obtain ⟨xs, tail, hx, htl, hle, hend⟩ := ih (rest := tl) (p := p + (Table.get ct a).len.toNat) (out := out ++ [a])
            (by omega) (by simp; omega)
          refine ⟨a :: xs, tail, ?_, by simp [htl], by simpa using hle, ?_⟩
          · intro x hx'
            rcases List.mem_cons.1 hx' with rfl | hx'
            · exact ha
            · exact hx x hx'
          · rw [hstep]
            simpa [Nat.add_assoc] using hend

/-- Every decoded symbol took at least one bit. -/
theorem decodeBits_cases {ct : Table CtEntry} {outDepth : Nat} (bs : BitString) :
    ∃ xs tail, (∀ x ∈ xs, isPresent ct x = true) ∧ bs = stringify ct xs ++ tail ∧ xs.length ≤ outDepth ∧
      ((tail = [] ∧ decodeBits ct outDepth bs = .ok xs) ∨
       (tail ≠ [] ∧ matchesAt ct tail = [] ∧
         decodeBits ct outDepth bs = .error (.raise .undecodable (stringify ct xs).length)) ∨
       (tail ≠ [] ∧ matchesAt ct tail ≠ [] ∧ xs.length = outDepth ∧
         decodeBits ct outDepth bs = .error (.raise .capacity (stringify ct xs).length))) := by
  obtain ⟨xs, tail, h1, h2, h3, h4⟩ := decodeLoop_cases (ct := ct) (outDepth := outDepth) (fuel := bs.length) (rest := bs)
    (p := 0) (out := []) le_rfl (by simp)
  exact ⟨xs, tail, h1, h2, by simpa using h3, by simpa [decodeBits] using h4⟩

end Sys2Proof.Machine
end

