-- ==== Sys2Proof/Laws/State.lean ====
section
/-! SUPPORT. One lemma per field of State per named update, true by rfl, so that no proof unfolds a record update. -/

namespace Sys2Proof.Machine

@[simp] theorem reportSuccess_cfg (s : State) : (reportSuccess s).cfg = s.cfg := rfl
@[simp] theorem reportSuccess_phase (s : State) : (reportSuccess s).phase = .idle := rfl
@[simp] theorem reportSuccess_op (s : State) : (reportSuccess s).op = s.op := rfl
@[simp] theorem reportSuccess_irqEn (s : State) : (reportSuccess s).irqEn = s.irqEn := rfl
@[simp] theorem reportSuccess_done (s : State) : (reportSuccess s).done = true := rfl
@[simp] theorem reportSuccess_err (s : State) : (reportSuccess s).err = false := rfl
@[simp] theorem reportSuccess_accErr (s : State) : (reportSuccess s).accErr = s.accErr := rfl
@[simp] theorem reportSuccess_errCode (s : State) : (reportSuccess s).errCode = .none := rfl
@[simp] theorem reportSuccess_errPos (s : State) : (reportSuccess s).errPos = 0 := rfl
@[simp] theorem reportSuccess_inLen (s : State) : (reportSuccess s).inLen = s.inLen := rfl
@[simp] theorem reportSuccess_bitLen (s : State) : (reportSuccess s).bitLen = s.bitLen := rfl
@[simp] theorem reportSuccess_outLen (s : State) : (reportSuccess s).outLen = s.outLen := rfl
@[simp] theorem reportSuccess_ndist (s : State) : (reportSuccess s).ndist = s.ndist := rfl
@[simp] theorem reportSuccess_rootWeight (s : State) : (reportSuccess s).rootWeight = s.rootWeight := rfl
@[simp] theorem reportSuccess_maxLen (s : State) : (reportSuccess s).maxLen = s.maxLen := rfl
@[simp] theorem reportSuccess_inAddr (s : State) : (reportSuccess s).inAddr = s.inAddr := rfl
@[simp] theorem reportSuccess_pkAddr (s : State) : (reportSuccess s).pkAddr = s.pkAddr := rfl
@[simp] theorem reportSuccess_outAddr (s : State) : (reportSuccess s).outAddr = s.outAddr := rfl
@[simp] theorem reportSuccess_ftSel (s : State) : (reportSuccess s).ftSel = s.ftSel := rfl
@[simp] theorem reportSuccess_ftRank (s : State) : (reportSuccess s).ftRank = s.ftRank := rfl
@[simp] theorem reportSuccess_ctSel (s : State) : (reportSuccess s).ctSel = s.ctSel := rfl
@[simp] theorem reportSuccess_freq (s : State) : (reportSuccess s).freq = s.freq := rfl
@[simp] theorem reportSuccess_order (s : State) : (reportSuccess s).order = s.order := rfl
@[simp] theorem reportSuccess_ct (s : State) : (reportSuccess s).ct = s.ct := rfl
@[simp] theorem reportSuccess_inMem (s : State) : (reportSuccess s).inMem = s.inMem := rfl
@[simp] theorem reportSuccess_pkMem (s : State) : (reportSuccess s).pkMem = s.pkMem := rfl
@[simp] theorem reportSuccess_outMem (s : State) : (reportSuccess s).outMem = s.outMem := rfl
@[simp] theorem reportSuccess_schedule (s : State) : (reportSuccess s).schedule = s.schedule := rfl
@[simp] theorem reportSuccess_reads (s : State) : (reportSuccess s).reads = s.reads := rfl

@[simp] theorem reportError_cfg (c : ErrorCode) (p : Nat) (s : State) : (reportError c p s).cfg = s.cfg := rfl
@[simp] theorem reportError_phase (c : ErrorCode) (p : Nat) (s : State) : (reportError c p s).phase = .idle := rfl
@[simp] theorem reportError_op (c : ErrorCode) (p : Nat) (s : State) : (reportError c p s).op = s.op := rfl
@[simp] theorem reportError_irqEn (c : ErrorCode) (p : Nat) (s : State) : (reportError c p s).irqEn = s.irqEn := rfl
@[simp] theorem reportError_done (c : ErrorCode) (p : Nat) (s : State) : (reportError c p s).done = true := rfl
@[simp] theorem reportError_err (c : ErrorCode) (p : Nat) (s : State) : (reportError c p s).err = true := rfl
@[simp] theorem reportError_accErr (c : ErrorCode) (p : Nat) (s : State) : (reportError c p s).accErr = s.accErr := rfl
@[simp] theorem reportError_errCode (c : ErrorCode) (p : Nat) (s : State) : (reportError c p s).errCode = c := rfl
@[simp] theorem reportError_errPos (c : ErrorCode) (p : Nat) (s : State) : (reportError c p s).errPos = BitVec.ofNat 32 p := rfl
@[simp] theorem reportError_inLen (c : ErrorCode) (p : Nat) (s : State) : (reportError c p s).inLen = s.inLen := rfl
@[simp] theorem reportError_bitLen (c : ErrorCode) (p : Nat) (s : State) : (reportError c p s).bitLen = s.bitLen := rfl
@[simp] theorem reportError_outLen (c : ErrorCode) (p : Nat) (s : State) : (reportError c p s).outLen = s.outLen := rfl
@[simp] theorem reportError_ndist (c : ErrorCode) (p : Nat) (s : State) : (reportError c p s).ndist = s.ndist := rfl
@[simp] theorem reportError_rootWeight (c : ErrorCode) (p : Nat) (s : State) : (reportError c p s).rootWeight = s.rootWeight := rfl
@[simp] theorem reportError_maxLen (c : ErrorCode) (p : Nat) (s : State) : (reportError c p s).maxLen = s.maxLen := rfl
@[simp] theorem reportError_inAddr (c : ErrorCode) (p : Nat) (s : State) : (reportError c p s).inAddr = s.inAddr := rfl
@[simp] theorem reportError_pkAddr (c : ErrorCode) (p : Nat) (s : State) : (reportError c p s).pkAddr = s.pkAddr := rfl
@[simp] theorem reportError_outAddr (c : ErrorCode) (p : Nat) (s : State) : (reportError c p s).outAddr = s.outAddr := rfl
@[simp] theorem reportError_ftSel (c : ErrorCode) (p : Nat) (s : State) : (reportError c p s).ftSel = s.ftSel := rfl
@[simp] theorem reportError_ftRank (c : ErrorCode) (p : Nat) (s : State) : (reportError c p s).ftRank = s.ftRank := rfl
@[simp] theorem reportError_ctSel (c : ErrorCode) (p : Nat) (s : State) : (reportError c p s).ctSel = s.ctSel := rfl
@[simp] theorem reportError_freq (c : ErrorCode) (p : Nat) (s : State) : (reportError c p s).freq = s.freq := rfl
@[simp] theorem reportError_order (c : ErrorCode) (p : Nat) (s : State) : (reportError c p s).order = s.order := rfl
@[simp] theorem reportError_ct (c : ErrorCode) (p : Nat) (s : State) : (reportError c p s).ct = s.ct := rfl
@[simp] theorem reportError_inMem (c : ErrorCode) (p : Nat) (s : State) : (reportError c p s).inMem = s.inMem := rfl
@[simp] theorem reportError_pkMem (c : ErrorCode) (p : Nat) (s : State) : (reportError c p s).pkMem = s.pkMem := rfl
@[simp] theorem reportError_outMem (c : ErrorCode) (p : Nat) (s : State) : (reportError c p s).outMem = s.outMem := rfl
@[simp] theorem reportError_schedule (c : ErrorCode) (p : Nat) (s : State) : (reportError c p s).schedule = s.schedule := rfl
@[simp] theorem reportError_reads (c : ErrorCode) (p : Nat) (s : State) : (reportError c p s).reads = s.reads := rfl

@[simp] theorem refuse_cfg (s : State) : (refuse s).cfg = s.cfg := rfl
@[simp] theorem refuse_phase (s : State) : (refuse s).phase = s.phase := rfl
@[simp] theorem refuse_op (s : State) : (refuse s).op = s.op := rfl
@[simp] theorem refuse_irqEn (s : State) : (refuse s).irqEn = s.irqEn := rfl
@[simp] theorem refuse_done (s : State) : (refuse s).done = s.done := rfl
@[simp] theorem refuse_err (s : State) : (refuse s).err = s.err := rfl
@[simp] theorem refuse_accErr (s : State) : (refuse s).accErr = true := rfl
@[simp] theorem refuse_errCode (s : State) : (refuse s).errCode = s.errCode := rfl
@[simp] theorem refuse_errPos (s : State) : (refuse s).errPos = s.errPos := rfl
@[simp] theorem refuse_inLen (s : State) : (refuse s).inLen = s.inLen := rfl
@[simp] theorem refuse_bitLen (s : State) : (refuse s).bitLen = s.bitLen := rfl
@[simp] theorem refuse_outLen (s : State) : (refuse s).outLen = s.outLen := rfl
@[simp] theorem refuse_ndist (s : State) : (refuse s).ndist = s.ndist := rfl
@[simp] theorem refuse_rootWeight (s : State) : (refuse s).rootWeight = s.rootWeight := rfl
@[simp] theorem refuse_maxLen (s : State) : (refuse s).maxLen = s.maxLen := rfl
@[simp] theorem refuse_inAddr (s : State) : (refuse s).inAddr = s.inAddr := rfl
@[simp] theorem refuse_pkAddr (s : State) : (refuse s).pkAddr = s.pkAddr := rfl
@[simp] theorem refuse_outAddr (s : State) : (refuse s).outAddr = s.outAddr := rfl
@[simp] theorem refuse_ftSel (s : State) : (refuse s).ftSel = s.ftSel := rfl
@[simp] theorem refuse_ftRank (s : State) : (refuse s).ftRank = s.ftRank := rfl
@[simp] theorem refuse_ctSel (s : State) : (refuse s).ctSel = s.ctSel := rfl
@[simp] theorem refuse_freq (s : State) : (refuse s).freq = s.freq := rfl
@[simp] theorem refuse_order (s : State) : (refuse s).order = s.order := rfl
@[simp] theorem refuse_ct (s : State) : (refuse s).ct = s.ct := rfl
@[simp] theorem refuse_inMem (s : State) : (refuse s).inMem = s.inMem := rfl
@[simp] theorem refuse_pkMem (s : State) : (refuse s).pkMem = s.pkMem := rfl
@[simp] theorem refuse_outMem (s : State) : (refuse s).outMem = s.outMem := rfl
@[simp] theorem refuse_schedule (s : State) : (refuse s).schedule = s.schedule := rfl
@[simp] theorem refuse_reads (s : State) : (refuse s).reads = s.reads := rfl

@[simp] theorem clearReport_cfg (w : Word) (s : State) : (clearReport w s).cfg = s.cfg := rfl
@[simp] theorem clearReport_phase (w : Word) (s : State) : (clearReport w s).phase = s.phase := rfl
@[simp] theorem clearReport_op (w : Word) (s : State) : (clearReport w s).op = s.op := rfl
@[simp] theorem clearReport_irqEn (w : Word) (s : State) : (clearReport w s).irqEn = s.irqEn := rfl
@[simp] theorem clearReport_done (w : Word) (s : State) : (clearReport w s).done = (s.done && !w.getLsbD 1) := rfl
@[simp] theorem clearReport_err (w : Word) (s : State) : (clearReport w s).err = (s.err && !w.getLsbD 2) := rfl
@[simp] theorem clearReport_accErr (w : Word) (s : State) : (clearReport w s).accErr = (s.accErr && !w.getLsbD 3) := rfl
@[simp] theorem clearReport_errCode (w : Word) (s : State) : (clearReport w s).errCode = s.errCode := rfl
@[simp] theorem clearReport_errPos (w : Word) (s : State) : (clearReport w s).errPos = s.errPos := rfl
@[simp] theorem clearReport_inLen (w : Word) (s : State) : (clearReport w s).inLen = s.inLen := rfl
@[simp] theorem clearReport_bitLen (w : Word) (s : State) : (clearReport w s).bitLen = s.bitLen := rfl
@[simp] theorem clearReport_outLen (w : Word) (s : State) : (clearReport w s).outLen = s.outLen := rfl
@[simp] theorem clearReport_ndist (w : Word) (s : State) : (clearReport w s).ndist = s.ndist := rfl
@[simp] theorem clearReport_rootWeight (w : Word) (s : State) : (clearReport w s).rootWeight = s.rootWeight := rfl
@[simp] theorem clearReport_maxLen (w : Word) (s : State) : (clearReport w s).maxLen = s.maxLen := rfl
@[simp] theorem clearReport_inAddr (w : Word) (s : State) : (clearReport w s).inAddr = s.inAddr := rfl
@[simp] theorem clearReport_pkAddr (w : Word) (s : State) : (clearReport w s).pkAddr = s.pkAddr := rfl
@[simp] theorem clearReport_outAddr (w : Word) (s : State) : (clearReport w s).outAddr = s.outAddr := rfl
@[simp] theorem clearReport_ftSel (w : Word) (s : State) : (clearReport w s).ftSel = s.ftSel := rfl
@[simp] theorem clearReport_ftRank (w : Word) (s : State) : (clearReport w s).ftRank = s.ftRank := rfl
@[simp] theorem clearReport_ctSel (w : Word) (s : State) : (clearReport w s).ctSel = s.ctSel := rfl
@[simp] theorem clearReport_freq (w : Word) (s : State) : (clearReport w s).freq = s.freq := rfl
@[simp] theorem clearReport_order (w : Word) (s : State) : (clearReport w s).order = s.order := rfl
@[simp] theorem clearReport_ct (w : Word) (s : State) : (clearReport w s).ct = s.ct := rfl
@[simp] theorem clearReport_inMem (w : Word) (s : State) : (clearReport w s).inMem = s.inMem := rfl
@[simp] theorem clearReport_pkMem (w : Word) (s : State) : (clearReport w s).pkMem = s.pkMem := rfl
@[simp] theorem clearReport_outMem (w : Word) (s : State) : (clearReport w s).outMem = s.outMem := rfl
@[simp] theorem clearReport_schedule (w : Word) (s : State) : (clearReport w s).schedule = s.schedule := rfl
@[simp] theorem clearReport_reads (w : Word) (s : State) : (clearReport w s).reads = s.reads := rfl

@[simp] theorem accept_cfg (w : Word) (s : State) : (accept w s).cfg = s.cfg := rfl
@[simp] theorem accept_phase (w : Word) (s : State) : (accept w s).phase = .run := rfl
@[simp] theorem accept_op (w : Word) (s : State) : (accept w s).op = opOfWord w := rfl
@[simp] theorem accept_irqEn (w : Word) (s : State) : (accept w s).irqEn = s.irqEn := rfl
@[simp] theorem accept_done (w : Word) (s : State) : (accept w s).done = false := rfl
@[simp] theorem accept_err (w : Word) (s : State) : (accept w s).err = false := rfl
@[simp] theorem accept_accErr (w : Word) (s : State) : (accept w s).accErr = s.accErr := rfl
@[simp] theorem accept_errCode (w : Word) (s : State) : (accept w s).errCode = .none := rfl
@[simp] theorem accept_errPos (w : Word) (s : State) : (accept w s).errPos = 0 := rfl
@[simp] theorem accept_inLen (w : Word) (s : State) : (accept w s).inLen = s.inLen := rfl
@[simp] theorem accept_bitLen (w : Word) (s : State) : (accept w s).bitLen = s.bitLen := rfl
@[simp] theorem accept_outLen (w : Word) (s : State) : (accept w s).outLen = s.outLen := rfl
@[simp] theorem accept_ndist (w : Word) (s : State) : (accept w s).ndist = s.ndist := rfl
@[simp] theorem accept_rootWeight (w : Word) (s : State) : (accept w s).rootWeight = s.rootWeight := rfl
@[simp] theorem accept_maxLen (w : Word) (s : State) : (accept w s).maxLen = s.maxLen := rfl
@[simp] theorem accept_inAddr (w : Word) (s : State) : (accept w s).inAddr = s.inAddr := rfl
@[simp] theorem accept_pkAddr (w : Word) (s : State) : (accept w s).pkAddr = s.pkAddr := rfl
@[simp] theorem accept_outAddr (w : Word) (s : State) : (accept w s).outAddr = s.outAddr := rfl
@[simp] theorem accept_ftSel (w : Word) (s : State) : (accept w s).ftSel = s.ftSel := rfl
@[simp] theorem accept_ftRank (w : Word) (s : State) : (accept w s).ftRank = s.ftRank := rfl
@[simp] theorem accept_ctSel (w : Word) (s : State) : (accept w s).ctSel = s.ctSel := rfl
@[simp] theorem accept_freq (w : Word) (s : State) : (accept w s).freq = s.freq := rfl
@[simp] theorem accept_order (w : Word) (s : State) : (accept w s).order = s.order := rfl
@[simp] theorem accept_ct (w : Word) (s : State) : (accept w s).ct = s.ct := rfl
@[simp] theorem accept_inMem (w : Word) (s : State) : (accept w s).inMem = s.inMem := rfl
@[simp] theorem accept_pkMem (w : Word) (s : State) : (accept w s).pkMem = s.pkMem := rfl
@[simp] theorem accept_outMem (w : Word) (s : State) : (accept w s).outMem = s.outMem := rfl
@[simp] theorem accept_schedule (w : Word) (s : State) : (accept w s).schedule = s.schedule := rfl
@[simp] theorem accept_reads (w : Word) (s : State) : (accept w s).reads = s.reads := rfl

@[simp] theorem returned_cfg (v : Word) (s : State) : (returned v s).cfg = s.cfg := rfl
@[simp] theorem returned_phase (v : Word) (s : State) : (returned v s).phase = s.phase := rfl
@[simp] theorem returned_op (v : Word) (s : State) : (returned v s).op = s.op := rfl
@[simp] theorem returned_irqEn (v : Word) (s : State) : (returned v s).irqEn = s.irqEn := rfl
@[simp] theorem returned_done (v : Word) (s : State) : (returned v s).done = s.done := rfl
@[simp] theorem returned_err (v : Word) (s : State) : (returned v s).err = s.err := rfl
@[simp] theorem returned_accErr (v : Word) (s : State) : (returned v s).accErr = s.accErr := rfl
@[simp] theorem returned_errCode (v : Word) (s : State) : (returned v s).errCode = s.errCode := rfl
@[simp] theorem returned_errPos (v : Word) (s : State) : (returned v s).errPos = s.errPos := rfl
@[simp] theorem returned_inLen (v : Word) (s : State) : (returned v s).inLen = s.inLen := rfl
@[simp] theorem returned_bitLen (v : Word) (s : State) : (returned v s).bitLen = s.bitLen := rfl
@[simp] theorem returned_outLen (v : Word) (s : State) : (returned v s).outLen = s.outLen := rfl
@[simp] theorem returned_ndist (v : Word) (s : State) : (returned v s).ndist = s.ndist := rfl
@[simp] theorem returned_rootWeight (v : Word) (s : State) : (returned v s).rootWeight = s.rootWeight := rfl
@[simp] theorem returned_maxLen (v : Word) (s : State) : (returned v s).maxLen = s.maxLen := rfl
@[simp] theorem returned_inAddr (v : Word) (s : State) : (returned v s).inAddr = s.inAddr := rfl
@[simp] theorem returned_pkAddr (v : Word) (s : State) : (returned v s).pkAddr = s.pkAddr := rfl
@[simp] theorem returned_outAddr (v : Word) (s : State) : (returned v s).outAddr = s.outAddr := rfl
@[simp] theorem returned_ftSel (v : Word) (s : State) : (returned v s).ftSel = s.ftSel := rfl
@[simp] theorem returned_ftRank (v : Word) (s : State) : (returned v s).ftRank = s.ftRank := rfl
@[simp] theorem returned_ctSel (v : Word) (s : State) : (returned v s).ctSel = s.ctSel := rfl
@[simp] theorem returned_freq (v : Word) (s : State) : (returned v s).freq = s.freq := rfl
@[simp] theorem returned_order (v : Word) (s : State) : (returned v s).order = s.order := rfl
@[simp] theorem returned_ct (v : Word) (s : State) : (returned v s).ct = s.ct := rfl
@[simp] theorem returned_inMem (v : Word) (s : State) : (returned v s).inMem = s.inMem := rfl
@[simp] theorem returned_pkMem (v : Word) (s : State) : (returned v s).pkMem = s.pkMem := rfl
@[simp] theorem returned_outMem (v : Word) (s : State) : (returned v s).outMem = s.outMem := rfl
@[simp] theorem returned_schedule (v : Word) (s : State) : (returned v s).schedule = s.schedule := rfl
@[simp] theorem returned_reads (v : Word) (s : State) : (returned v s).reads = v :: s.reads := rfl

@[simp] theorem setSelected_cfg (s : State) (e : CtEntry) : (setSelected s e).cfg = s.cfg := rfl
@[simp] theorem setSelected_phase (s : State) (e : CtEntry) : (setSelected s e).phase = s.phase := rfl
@[simp] theorem setSelected_op (s : State) (e : CtEntry) : (setSelected s e).op = s.op := rfl
@[simp] theorem setSelected_irqEn (s : State) (e : CtEntry) : (setSelected s e).irqEn = s.irqEn := rfl
@[simp] theorem setSelected_done (s : State) (e : CtEntry) : (setSelected s e).done = s.done := rfl
@[simp] theorem setSelected_err (s : State) (e : CtEntry) : (setSelected s e).err = s.err := rfl
@[simp] theorem setSelected_accErr (s : State) (e : CtEntry) : (setSelected s e).accErr = s.accErr := rfl
@[simp] theorem setSelected_errCode (s : State) (e : CtEntry) : (setSelected s e).errCode = s.errCode := rfl
@[simp] theorem setSelected_errPos (s : State) (e : CtEntry) : (setSelected s e).errPos = s.errPos := rfl
@[simp] theorem setSelected_inLen (s : State) (e : CtEntry) : (setSelected s e).inLen = s.inLen := rfl
@[simp] theorem setSelected_bitLen (s : State) (e : CtEntry) : (setSelected s e).bitLen = s.bitLen := rfl
@[simp] theorem setSelected_outLen (s : State) (e : CtEntry) : (setSelected s e).outLen = s.outLen := rfl
@[simp] theorem setSelected_ndist (s : State) (e : CtEntry) : (setSelected s e).ndist = s.ndist := rfl
@[simp] theorem setSelected_rootWeight (s : State) (e : CtEntry) : (setSelected s e).rootWeight = s.rootWeight := rfl
@[simp] theorem setSelected_maxLen (s : State) (e : CtEntry) : (setSelected s e).maxLen = s.maxLen := rfl
@[simp] theorem setSelected_inAddr (s : State) (e : CtEntry) : (setSelected s e).inAddr = s.inAddr := rfl
@[simp] theorem setSelected_pkAddr (s : State) (e : CtEntry) : (setSelected s e).pkAddr = s.pkAddr := rfl
@[simp] theorem setSelected_outAddr (s : State) (e : CtEntry) : (setSelected s e).outAddr = s.outAddr := rfl
@[simp] theorem setSelected_ftSel (s : State) (e : CtEntry) : (setSelected s e).ftSel = s.ftSel := rfl
@[simp] theorem setSelected_ftRank (s : State) (e : CtEntry) : (setSelected s e).ftRank = s.ftRank := rfl
@[simp] theorem setSelected_ctSel (s : State) (e : CtEntry) : (setSelected s e).ctSel = s.ctSel := rfl
@[simp] theorem setSelected_freq (s : State) (e : CtEntry) : (setSelected s e).freq = s.freq := rfl
@[simp] theorem setSelected_order (s : State) (e : CtEntry) : (setSelected s e).order = s.order := rfl
@[simp] theorem setSelected_ct (s : State) (e : CtEntry) : (setSelected s e).ct = Table.set s.ct s.ctSel e := rfl
@[simp] theorem setSelected_inMem (s : State) (e : CtEntry) : (setSelected s e).inMem = s.inMem := rfl
@[simp] theorem setSelected_pkMem (s : State) (e : CtEntry) : (setSelected s e).pkMem = s.pkMem := rfl
@[simp] theorem setSelected_outMem (s : State) (e : CtEntry) : (setSelected s e).outMem = s.outMem := rfl
@[simp] theorem setSelected_schedule (s : State) (e : CtEntry) : (setSelected s e).schedule = s.schedule := rfl
@[simp] theorem setSelected_reads (s : State) (e : CtEntry) : (setSelected s e).reads = s.reads := rfl

@[simp] theorem presentWord_cfg (w : Word) (s : State) : (presentWord w s).cfg = s.cfg := rfl
@[simp] theorem presentWord_phase (w : Word) (s : State) : (presentWord w s).phase = .run := rfl
@[simp] theorem presentWord_op (w : Word) (s : State) : (presentWord w s).op = opOfWord w := rfl
@[simp] theorem presentWord_irqEn (w : Word) (s : State) : (presentWord w s).irqEn = s.irqEn := rfl
@[simp] theorem presentWord_done (w : Word) (s : State) : (presentWord w s).done = false := rfl
@[simp] theorem presentWord_err (w : Word) (s : State) : (presentWord w s).err = false := rfl
@[simp] theorem presentWord_accErr (w : Word) (s : State) : (presentWord w s).accErr = s.accErr := rfl
@[simp] theorem presentWord_errCode (w : Word) (s : State) : (presentWord w s).errCode = .none := rfl
@[simp] theorem presentWord_errPos (w : Word) (s : State) : (presentWord w s).errPos = 0 := rfl
@[simp] theorem presentWord_inLen (w : Word) (s : State) : (presentWord w s).inLen = s.inLen := rfl
@[simp] theorem presentWord_bitLen (w : Word) (s : State) : (presentWord w s).bitLen = s.bitLen := rfl
@[simp] theorem presentWord_outLen (w : Word) (s : State) : (presentWord w s).outLen = s.outLen := rfl
@[simp] theorem presentWord_ndist (w : Word) (s : State) : (presentWord w s).ndist = s.ndist := rfl
@[simp] theorem presentWord_rootWeight (w : Word) (s : State) : (presentWord w s).rootWeight = s.rootWeight := rfl
@[simp] theorem presentWord_maxLen (w : Word) (s : State) : (presentWord w s).maxLen = s.maxLen := rfl
@[simp] theorem presentWord_inAddr (w : Word) (s : State) : (presentWord w s).inAddr = s.inAddr := rfl
@[simp] theorem presentWord_pkAddr (w : Word) (s : State) : (presentWord w s).pkAddr = s.pkAddr := rfl
@[simp] theorem presentWord_outAddr (w : Word) (s : State) : (presentWord w s).outAddr = s.outAddr := rfl
@[simp] theorem presentWord_ftSel (w : Word) (s : State) : (presentWord w s).ftSel = s.ftSel := rfl
@[simp] theorem presentWord_ftRank (w : Word) (s : State) : (presentWord w s).ftRank = s.ftRank := rfl
@[simp] theorem presentWord_ctSel (w : Word) (s : State) : (presentWord w s).ctSel = s.ctSel := rfl
@[simp] theorem presentWord_freq (w : Word) (s : State) : (presentWord w s).freq = s.freq := rfl
@[simp] theorem presentWord_order (w : Word) (s : State) : (presentWord w s).order = s.order := rfl
@[simp] theorem presentWord_ct (w : Word) (s : State) : (presentWord w s).ct = s.ct := rfl
@[simp] theorem presentWord_inMem (w : Word) (s : State) : (presentWord w s).inMem = s.inMem := rfl
@[simp] theorem presentWord_pkMem (w : Word) (s : State) : (presentWord w s).pkMem = s.pkMem := rfl
@[simp] theorem presentWord_outMem (w : Word) (s : State) : (presentWord w s).outMem = s.outMem := rfl
@[simp] theorem presentWord_schedule (w : Word) (s : State) : (presentWord w s).schedule = .engine :: s.schedule := rfl
@[simp] theorem presentWord_reads (w : Word) (s : State) : (presentWord w s).reads = s.reads := rfl

@[simp] theorem resetTo_cfg (d : Draw) (s : State) : (resetTo d s).cfg = s.cfg := rfl
@[simp] theorem resetTo_phase (d : Draw) (s : State) : (resetTo d s).phase = .idle := rfl
@[simp] theorem resetTo_op (d : Draw) (s : State) : (resetTo d s).op = d.op := rfl
@[simp] theorem resetTo_irqEn (d : Draw) (s : State) : (resetTo d s).irqEn = false := rfl
@[simp] theorem resetTo_done (d : Draw) (s : State) : (resetTo d s).done = false := rfl
@[simp] theorem resetTo_err (d : Draw) (s : State) : (resetTo d s).err = false := rfl
@[simp] theorem resetTo_accErr (d : Draw) (s : State) : (resetTo d s).accErr = false := rfl
@[simp] theorem resetTo_errCode (d : Draw) (s : State) : (resetTo d s).errCode = .none := rfl
@[simp] theorem resetTo_errPos (d : Draw) (s : State) : (resetTo d s).errPos = 0 := rfl
@[simp] theorem resetTo_inLen (d : Draw) (s : State) : (resetTo d s).inLen = 0 := rfl
@[simp] theorem resetTo_bitLen (d : Draw) (s : State) : (resetTo d s).bitLen = 0 := rfl
@[simp] theorem resetTo_outLen (d : Draw) (s : State) : (resetTo d s).outLen = 0 := rfl
@[simp] theorem resetTo_ndist (d : Draw) (s : State) : (resetTo d s).ndist = 0 := rfl
@[simp] theorem resetTo_rootWeight (d : Draw) (s : State) : (resetTo d s).rootWeight = 0 := rfl
@[simp] theorem resetTo_maxLen (d : Draw) (s : State) : (resetTo d s).maxLen = 0 := rfl
@[simp] theorem resetTo_inAddr (d : Draw) (s : State) : (resetTo d s).inAddr = 0 := rfl
@[simp] theorem resetTo_pkAddr (d : Draw) (s : State) : (resetTo d s).pkAddr = 0 := rfl
@[simp] theorem resetTo_outAddr (d : Draw) (s : State) : (resetTo d s).outAddr = 0 := rfl
@[simp] theorem resetTo_ftSel (d : Draw) (s : State) : (resetTo d s).ftSel = 0 := rfl
@[simp] theorem resetTo_ftRank (d : Draw) (s : State) : (resetTo d s).ftRank = 0 := rfl
@[simp] theorem resetTo_ctSel (d : Draw) (s : State) : (resetTo d s).ctSel = 0 := rfl
@[simp] theorem resetTo_freq (d : Draw) (s : State) : (resetTo d s).freq = Vector.replicate 256 0 := rfl
@[simp] theorem resetTo_order (d : Draw) (s : State) : (resetTo d s).order = [] := rfl
@[simp] theorem resetTo_ct (d : Draw) (s : State) : (resetTo d s).ct = Table.tabulate fun x => ⟨0, Table.get d.codes x⟩ := rfl
@[simp] theorem resetTo_inMem (d : Draw) (s : State) : (resetTo d s).inMem = Memory.drawn s.cfg.inDepth d.inMem := rfl
@[simp] theorem resetTo_pkMem (d : Draw) (s : State) : (resetTo d s).pkMem = Memory.drawn s.cfg.pkDepth d.pkMem := rfl
@[simp] theorem resetTo_outMem (d : Draw) (s : State) : (resetTo d s).outMem = Memory.drawn s.cfg.outDepth d.outMem := rfl
@[simp] theorem resetTo_schedule (d : Draw) (s : State) : (resetTo d s).schedule = s.schedule := rfl
@[simp] theorem resetTo_reads (d : Draw) (s : State) : (resetTo d s).reads = s.reads := rfl

end Sys2Proof.Machine
end

