-- ==== Sys2Proof/Laws/Queue.lean ====
section
/-! SUPPORT. The priority queue: what push and pop do, and the order they keep. -/

namespace Sys2Proof.Machine

/-- Where push puts a node: after every node at least as heavy, before the first lighter one. -/
theorem push_split (n : Node) (q : Queue) :
    ∃ a b, q = a ++ b ∧ push n q = a ++ n :: b ∧ (∀ m ∈ a, n.weight ≤ m.weight) ∧
      ∀ m ∈ b.head?, m.weight < n.weight := by
  induction q with
  | nil => exact ⟨[], [], by simp [push]⟩
  | cons m q ih =>
    by_cases h : m.weight < n.weight
    · exact ⟨[], m :: q, by simp [push, h]⟩
    · obtain ⟨a, b, rfl, hp, ha, hb⟩ := ih
      refine ⟨m :: a, b, rfl, by simp [push, h, hp], fun x hx => ?_, hb⟩
      rcases List.mem_cons.1 hx with rfl | hx
      · omega
      · exact ha x hx

theorem push_perm (n : Node) (q : Queue) : (push n q).Perm (n :: q) := by
  obtain ⟨a, b, rfl, hp, -⟩ := push_split n q
  rw [hp]
  exact List.perm_middle

@[simp] theorem length_push (n : Node) (q : Queue) : (push n q).length = q.length + 1 := (push_perm n q).length_eq

theorem mem_push {n m : Node} {q : Queue} : m ∈ push n q ↔ m = n ∨ m ∈ q := by
  rw [(push_perm n q).mem_iff, List.mem_cons]

@[simp] theorem pop_nil : pop [] = none := rfl

@[simp] theorem pop_append (q : Queue) (n : Node) : pop (q ++ [n]) = some (n, q) := by
  simp [pop]

/-- pop removes the tail. -/
theorem pop_eq_some {q q' : Queue} {n : Node} : pop q = some (n, q') ↔ q = q' ++ [n] := by
  constructor
  · intro h
    rcases List.eq_nil_or_concat q with rfl | ⟨l, a, rfl⟩
    · simp at h
    · rw [List.concat_eq_append, pop_append] at h
      simp only [Option.some.injEq, Prod.mk.injEq] at h
      rw [List.concat_eq_append, h.1, h.2]
  · rintro rfl; exact pop_append q' n

theorem pop_eq_none {q : Queue} : pop q = none ↔ q = [] := by
  rcases List.eq_nil_or_concat q with rfl | ⟨l, a, rfl⟩ <;> simp

/-! ### The keyed form -/

theorem popsBefore_asymm {a b : Nat × Node} (h : popsBefore a b = true) : popsBefore b a = false := by
  rw [Bool.eq_false_iff]
  intro h'
  simp only [popsBefore, Bool.or_eq_true, decide_eq_true_eq, Bool.and_eq_true, beq_iff_eq] at h h'
  omega

theorem popsBefore_irrefl (a : Nat × Node) : popsBefore a a = false := by simp [popsBefore]

/-- The node that pops before all others is the one the search finds. -/
theorem firstToPop_eq {m a : Nat × Node} {bs : List (Nat × Node)} (hm : m ∈ a :: bs)
    (h : ∀ x ∈ a :: bs, x ≠ m → popsBefore m x = true) : firstToPop a bs = m := by
  induction bs generalizing a with
  | nil => simp at hm; simp [firstToPop, hm]
  | cons b bs ih =>
    rw [firstToPop]
    have hb := h b (by simp)
    have ha := h a (by simp)
    by_cases hab : popsBefore b a = true
    · rw [if_pos hab]
      refine ih ?_ fun x hx => h x (by simp only [List.mem_cons] at hx ⊢; tauto)
      rcases List.mem_cons.1 hm with rfl | hm
      · by_cases hbm : b = m
        · simp [hbm]
        · have := popsBefore_asymm (hb hbm); rw [this] at hab; cases hab
      · exact hm
    · rw [if_neg hab]
      refine ih ?_ fun x hx => h x (by simp only [List.mem_cons] at hx ⊢; tauto)
      rcases List.mem_cons.1 hm with rfl | hm
      · simp
      · rcases List.mem_cons.1 hm with rfl | hm
        · by_cases ham : a = m
          · simp [ham]
          · exact absurd (ha ham) hab
        · simp [hm]

end Sys2Proof.Machine
end

