-- ==== Sys2Proof/Laws/Tree.lean ====
section
/-! SUPPORT. BUILD: the merge loop ends with one tree over all the leaves, its codes are its paths, and they are prefix-free. -/

namespace Sys2Proof.Machine

/-! ### The merge loop -/

/-- The sum of the counts of some symbols. -/
def countSum (freq : Table Word) (l : List Symbol) : Nat := (l.map fun x => (Table.get freq x).toNat).sum

/-- Every node of a tree weighs what its leaves weigh together. -/
def Node.Weighs (freq : Table Word) (n : Node) : Prop := n.weight = countSum freq n.leaves

/-- The symbols at the leaves of all trees of a queue. -/
def queueLeaves (q : Queue) : List Symbol := q.flatMap Node.leaves

theorem countSum_perm {freq : Table Word} {l m : List Symbol} (h : l.Perm m) : countSum freq l = countSum freq m :=
  (h.map _).sum_eq

theorem countSum_append (freq : Table Word) (l m : List Symbol) :
    countSum freq (l ++ m) = countSum freq l + countSum freq m := by
  simp [countSum]

theorem queueLeaves_perm {q r : Queue} (h : q.Perm r) : (queueLeaves q).Perm (queueLeaves r) := h.flatMap_right _

theorem Node.leaves_length_pos (n : Node) : 1 ≤ n.leaves.length := by
  induction n with
  | leaf => simp [Node.leaves]
  | internal w l r ihl ihr => simp only [Node.leaves, List.length_append]; omega

/-- A tree of k leaves has 2k - 1 nodes. -/
theorem Node.count_eq (n : Node) : n.count + 1 = 2 * n.leaves.length := by
  induction n with
  | leaf => simp [Node.leaves, Node.count]
  | internal w l r ihl ihr => simp only [Node.leaves, Node.count, List.length_append]; omega

/-- One pass of the merge loop, the two nodes at the tail in view. -/
theorem mergeOnce_append (q : Queue) (left right : Node) :
    mergeOnce (q ++ [right] ++ [left]) = some (push (.internal (left.weight + right.weight) left right) q) := by
  rw [mergeOnce, pop_append]
  simp only [pop_append]

/-- One pass of the merge loop on two nodes or more. -/
theorem mergeOnce_spec (freq : Table Word) {q : Queue} (hs : 2 ≤ q.length) (hw : ∀ n ∈ q, n.Weighs freq) :
    ∃ q', mergeOnce q = some q' ∧ q'.length + 1 = q.length ∧ (queueLeaves q').Perm (queueLeaves q) ∧
      ∀ n ∈ q', n.Weighs freq := by
  rcases List.eq_nil_or_concat q with rfl | ⟨q1, left, rfl⟩
  · simp at hs
  rcases List.eq_nil_or_concat q1 with rfl | ⟨q2, right, rfl⟩
  · simp at hs
  simp only [List.concat_eq_append] at *
  have hq := mergeOnce_append q2 left right
  refine ⟨_, hq, by simp, ?_, ?_⟩
  · refine (queueLeaves_perm (push_perm _ _)).trans ?_
    simp only [queueLeaves, List.flatMap_cons, List.flatMap_append, List.flatMap_nil, List.append_nil, Node.leaves]
    refine List.perm_append_comm.trans ?_
    rw [List.append_assoc]
    exact List.perm_append_comm.append_left _
  · intro n hn
    rcases mem_push.1 hn with rfl | hn
    · have h1 := hw left (by simp)
      have h2 := hw right (by simp)
      unfold Node.Weighs at *
      rw [Node.leaves, countSum_append, ← h1, ← h2]
      rfl
    · exact hw n (by simp [hn])

/-- The merge loop leaves one tree. -/
theorem mergeLoop_spec (freq : Table Word) {fuel : Nat} {q : Queue} (hf : q.length ≤ fuel + 1) (hne : q ≠ [])
    (hw : ∀ n ∈ q, n.Weighs freq) :
    ∃ root, mergeLoop fuel q = some [root] ∧ root.leaves.Perm (queueLeaves q) ∧ root.Weighs freq := by
  have hone : ∀ q : Queue, q ≠ [] → q.length ≤ 1 → (∀ n ∈ q, n.Weighs freq) →
      ∃ root, some q = some [root] ∧ root.leaves.Perm (queueLeaves q) ∧ root.Weighs freq := by
    intro q hq hl hw
    match q, hq, hl with
    | [n], _, _ => exact ⟨n, rfl, by simp [queueLeaves], hw n (by simp)⟩
  induction fuel generalizing q with
  | zero => exact hone q hne (by omega) hw
  | succ fuel ih =>
    by_cases h1 : 1 < q.length
    · obtain ⟨q', hq', hl, hp, hw'⟩ := mergeOnce_spec freq (by omega) hw
      have hne' : q' ≠ [] := by rintro rfl; simp at hl; omega
      obtain ⟨root, hr, hp', hwr⟩ := ih (by omega) hne' hw'
      exact ⟨root, by simp [mergeLoop, size, h1, hq', hr], hp'.trans hp, hwr⟩
    · obtain ⟨root, hr, h⟩ := hone q hne (by omega) hw
      exact ⟨root, by simpa [mergeLoop, size, h1] using hr, h⟩

theorem pushLeaves_spec (freq : Table Word) (order : List Symbol) :
    (pushLeaves freq order).Perm (order.map (leafOf freq)) := by
  induction order using List.reverseRecOn with
  | nil => simp [pushLeaves]
  | append_singleton l s ih =>
    simp only [pushLeaves, List.foldl_append, List.foldl_cons, List.foldl_nil, List.map_append, List.map_cons, List.map_nil]
    refine (push_perm _ _).trans ?_
    refine (List.Perm.cons _ ih).trans ?_
    exact (List.perm_append_singleton _ _).symm

/-- BUILD on at least one symbol builds one tree over exactly those symbols, and its root weighs all of them. -/
theorem buildTree_spec (freq : Table Word) {order : List Symbol} (h : order ≠ []) :
    ∃ root, buildTree freq order = some root ∧ root.leaves.Perm order ∧ root.weight = countSum freq order := by
  have hp := pushLeaves_spec freq order
  have hne : pushLeaves freq order ≠ [] := by
    intro he
    rw [he] at hp
    exact h (by simpa using hp.nil_eq)
  have hw : ∀ n ∈ pushLeaves freq order, n.Weighs freq := by
    intro n hn
    obtain ⟨s, -, rfl⟩ := List.mem_map.1 (hp.mem_iff.1 hn)
    simp [Node.Weighs, leafOf, Node.weight, Node.leaves, countSum]
  obtain ⟨root, hr, hl, hwr⟩ := mergeLoop_spec freq (fuel := (pushLeaves freq order).length) (Nat.le_succ _) hne hw
  have hleaves : root.leaves.Perm order := by
    refine hl.trans ((queueLeaves_perm hp).trans ?_)
    simp [queueLeaves, List.flatMap_map, leafOf, Node.leaves]
  refine ⟨root, ?_, hleaves, ?_⟩
  · have : pop [root] = some (root, []) := pop_append [] root
    simp [buildTree, mergeAll, size, hr, this]
  · rw [hwr, countSum_perm hleaves]

/-! ### The paths of a tree -/

/-- Each leaf's symbol with its path from the root. -/
def Node.paths : Node → CodeMap
  | .leaf sym _ => [(sym, [])]
  | .internal _ left right =>
    left.paths.map (fun e => (e.1, false :: e.2)) ++ right.paths.map (fun e => (e.1, true :: e.2))

theorem Node.map_fst_paths (n : Node) : n.paths.map (·.1) = n.leaves := by
  induction n with
  | leaf => rfl
  | internal w l r ihl ihr =>
    simp [Node.paths, Node.leaves, ← ihl, ← ihr, List.map_map, Function.comp_def]

theorem walk_of_path (n : Node) {path : BitString} (h : path ≠ []) :
    walk n path = n.paths.map fun e => (e.1, path ++ e.2) := by
  induction n generalizing path with
  | leaf s w => simp [walk, Node.paths, h]
  | internal w l r ihl ihr =>
    rw [walk, ihl (by simp), ihr (by simp)]
    simp [Node.paths, List.map_map, Function.comp_def]

/-- gen_codes gives every leaf its path, but a leaf root the code "0". -/
theorem genCodes_eq (n : Node) :
    genCodes n = match n with
      | .leaf sym _ => [(sym, [false])]
      | .internal _ _ _ => n.paths := by
  cases n with
  | leaf s w => simp [genCodes, walk]
  | internal w l r =>
    simp only [genCodes, walk, List.nil_append]
    rw [walk_of_path l (by simp), walk_of_path r (by simp)]
    simp [Node.paths]

theorem map_fst_genCodes (n : Node) : (genCodes n).map (·.1) = n.leaves := by
  rw [genCodes_eq]
  cases n with
  | leaf s w => rfl
  | internal w l r => exact Node.map_fst_paths _

theorem Node.length_path_lt (n : Node) {e : Symbol × BitString} (h : e ∈ n.paths) : e.2.length < n.leaves.length := by
  induction n generalizing e with
  | leaf => simp only [Node.paths, List.mem_singleton] at h; subst h; simp [Node.leaves]
  | internal w l r ihl ihr =>
    have hl := l.leaves_length_pos
    have hr := r.leaves_length_pos
    simp only [Node.paths, List.mem_append, List.mem_map] at h
    simp only [Node.leaves, List.length_append]
    rcases h with ⟨f, hf, rfl⟩ | ⟨f, hf, rfl⟩
    · have := ihl hf; simp only [List.length_cons]; omega
    · have := ihr hf; simp only [List.length_cons]; omega

/-- No path of a tree is the beginning of the path to another leaf. -/
theorem Node.paths_prefixFree (n : Node) (hn : n.leaves.Nodup) {e f : Symbol × BitString} (he : e ∈ n.paths)
    (hf : f ∈ n.paths) (hne : e.1 ≠ f.1) : ¬ e.2 <+: f.2 := by
  induction n generalizing e f with
  | leaf =>
    simp only [Node.paths, List.mem_singleton] at he hf
    subst he hf; exact absurd rfl hne
  | internal w l r ihl ihr =>
    simp only [Node.leaves] at hn
    obtain ⟨hl, hr, -⟩ := List.nodup_append.1 hn
    simp only [Node.paths, List.mem_append, List.mem_map] at he hf
    rcases he with ⟨e, he, rfl⟩ | ⟨e, he, rfl⟩ <;> rcases hf with ⟨f, hf, rfl⟩ | ⟨f, hf, rfl⟩
    · simpa [List.cons_prefix_cons] using ihl hl he hf hne
    · simp [List.cons_prefix_cons]
    · simp [List.cons_prefix_cons]
    · simpa [List.cons_prefix_cons] using ihr hr he hf hne

/-- The Kraft sum of a tree is 1, in units of 2^(-N). -/
theorem Node.kraft (n : Node) {N : Nat} (hN : ∀ e ∈ n.paths, e.2.length ≤ N) :
    (n.paths.map fun e => 2 ^ (N - e.2.length)).sum = 2 ^ N := by
  induction n generalizing N with
  | leaf => simp [Node.paths]
  | internal w l r ihl ihr =>
    have hex : ∃ e, e ∈ l.paths := by
      have h1 := l.leaves_length_pos
      rw [← Node.map_fst_paths, List.length_map] at h1
      exact List.exists_mem_of_length_pos h1
    obtain ⟨e0, he0⟩ := hex
    have h0 := hN (e0.1, false :: e0.2) (by simp [Node.paths, he0])
    obtain ⟨M, rfl⟩ : ∃ M, N = M + 1 := ⟨N - 1, by simp at h0; omega⟩
    have hl : ∀ e ∈ l.paths, e.2.length ≤ M := fun e he => by
      have := hN (e.1, false :: e.2) (by simp [Node.paths, he]); simpa using this
    have hr : ∀ e ∈ r.paths, e.2.length ≤ M := fun e he => by
      have := hN (e.1, true :: e.2) (by simp [Node.paths, he]); simpa using this
    simp only [Node.paths, List.map_append, List.map_map, Function.comp_def, List.length_cons, Nat.add_sub_add_right,
      List.sum_append]
    rw [ihl hl, ihr hr, pow_succ]
    ring

/-! ### The table BUILD writes -/

/-- A map in which every symbol occurs once is read back by `codeIn`. -/
theorem codeIn_of_mem {c : CodeMap} (h : (c.map (·.1)).Nodup) {e : Symbol × BitString} (he : e ∈ c) :
    codeIn c e.1 = some e.2 := by
  induction c with
  | nil => simp at he
  | cons d c ih =>
    simp only [List.map_cons, List.nodup_cons] at h
    rcases List.mem_cons.1 he with rfl | he
    · simp [codeIn]
    · have hne : d.1 ≠ e.1 := fun hd => h.1 (hd ▸ List.mem_map_of_mem he)
      have := ih h.2 he
      simpa [codeIn, hne] using this

theorem codeIn_eq_none {c : CodeMap} {x : Symbol} (h : x ∉ c.map (·.1)) : codeIn c x = none := by
  simp only [codeIn, Option.map_eq_none_iff, List.find?_eq_none, beq_iff_eq]
  intro e he hx
  exact h (hx ▸ List.mem_map_of_mem he)

/-- The bit string an entry of write_table stands for. -/
theorem bits_entryOf {bs : BitString} (h : bs.length ≤ 255) : (entryOf (some bs)).bits = bs := by
  have h8 : bs.length % 2 ^ 8 = bs.length := Nat.mod_eq_of_lt (by omega)
  simp only [entryOf, CtEntry.bits, BitVec.toNat_ofNat, h8]
  rw [bin_mod 256 (by omega), bin_val]

theorem present_entryOf {bs : BitString} (h : bs.length ≤ 255) (h0 : bs ≠ []) : (entryOf (some bs)).present = true := by
  have hpos : bs.length ≠ 0 := by simpa using h0
  simp only [entryOf, CtEntry.present, bne_iff_ne, ne_eq]
  intro he
  have := congrArg BitVec.toNat he
  simp [Nat.mod_eq_of_lt (show bs.length < 256 by omega), hpos] at this

/-- A tree of distinct symbols, at most 256 of them: what the table says of each code of gen_codes. -/
structure TreeTable (root : Node) (ct : Table CtEntry) : Prop where
  present : ∀ x, isPresent ct x = true ↔ x ∈ root.leaves
  absent : ∀ x, x ∉ root.leaves → Table.get ct x = ⟨0, 0⟩
  code : ∀ e ∈ genCodes root, codeOf ct e.1 = e.2

theorem genCodes_length {root : Node} {e : Symbol × BitString} (h : e ∈ genCodes root) :
    1 ≤ e.2.length ∧ e.2.length ≤ max 1 (root.leaves.length - 1) := by
  rw [genCodes_eq] at h
  cases root with
  | leaf s w => simp only [List.mem_singleton] at h; subst h; simp
  | internal w l r =>
    have hlt := Node.length_path_lt _ h
    refine ⟨?_, by omega⟩
    simp only [Node.paths, List.mem_append, List.mem_map] at h
    rcases h with ⟨f, hf, rfl⟩ | ⟨f, hf, rfl⟩ <;> simp

theorem writeTable_spec {root : Node} (hn : root.leaves.Nodup) (hc : root.leaves.length ≤ 256) :
    TreeTable root (writeTable (genCodes root)) := by
  have hkeys : ((genCodes root).map (·.1)).Nodup := by rwa [map_fst_genCodes]
  have hlen : ∀ e ∈ genCodes root, 1 ≤ e.2.length ∧ e.2.length ≤ 255 := fun e he => by
    have := genCodes_length he; omega
  have habs : ∀ x, x ∉ root.leaves → Table.get (writeTable (genCodes root)) x = ⟨0, 0⟩ := fun x hx => by
    rw [writeTable, get_tabulate, codeIn_eq_none (by rwa [map_fst_genCodes])]
    rfl
  have hget : ∀ e ∈ genCodes root, Table.get (writeTable (genCodes root)) e.1 = entryOf (some e.2) := fun e he => by
    rw [writeTable, get_tabulate, codeIn_of_mem hkeys he]
  refine ⟨fun x => ⟨fun hx => ?_, fun hx => ?_⟩, habs, fun e he => ?_⟩
  · by_contra hno
    simp [isPresent, habs x hno, CtEntry.present] at hx
  · rw [← map_fst_genCodes] at hx
    obtain ⟨e, he, rfl⟩ := List.mem_map.1 hx
    rw [isPresent, hget e he]
    exact present_entryOf (hlen e he).2 fun h0 => by have := (hlen e he).1; simp [h0] at this
  · rw [codeOf, hget e he, bits_entryOf (hlen e he).2]

theorem genCodes_prefixFree {root : Node} (hn : root.leaves.Nodup) {e f : Symbol × BitString} (he : e ∈ genCodes root)
    (hf : f ∈ genCodes root) (hne : e.1 ≠ f.1) : ¬ e.2 <+: f.2 := by
  rw [genCodes_eq] at he hf
  cases root with
  | leaf s w => simp only [List.mem_singleton] at he hf; subst he hf; exact absurd rfl hne
  | internal w l r => exact Node.paths_prefixFree _ hn he hf hne

theorem foldl_max_le {l : List Nat} {a b : Nat} (ha : a ≤ b) (h : ∀ x ∈ l, x ≤ b) : l.foldl max a ≤ b := by
  induction l generalizing a with
  | nil => exact ha
  | cons x l ih => exact ih (max_le ha (h x (by simp))) fun y hy => h y (by simp [hy])

theorem le_foldl_max {l : List Nat} {a : Nat} : a ≤ l.foldl max a ∧ ∀ x ∈ l, x ≤ l.foldl max a := by
  induction l generalizing a with
  | nil => simp
  | cons y l ih =>
    obtain ⟨h1, h2⟩ := ih (a := max a y)
    simp only [List.foldl_cons, List.mem_cons, forall_eq_or_imp]
    exact ⟨by omega, by omega, h2⟩

theorem foldl_max_mem {l : List Nat} {a : Nat} : l.foldl max a = a ∨ l.foldl max a ∈ l := by
  induction l generalizing a with
  | nil => simp
  | cons x l ih =>
    simp only [List.foldl_cons, List.mem_cons]
    rcases ih (a := max a x) with h | h
    · rw [h]; rcases max_choice a x with h | h <;> simp [h]
    · exact .inr (.inr h)

theorem maxCodeLen_le (root : Node) : maxCodeLen (genCodes root) ≤ max 1 (root.leaves.length - 1) := by
  refine foldl_max_le (Nat.zero_le _) fun x hx => ?_
  obtain ⟨e, he, rfl⟩ := List.mem_map.1 hx
  exact (genCodes_length he).2

/-- MAXLEN is the greatest length of a code in the written table, and fits its 8 bits (`44_code_table.md` R263). -/
theorem maxCodeLen_spec {root : Node} (hn : root.leaves.Nodup) (hc : root.leaves.length ≤ 256) :
    (∀ x, (codeOf (writeTable (genCodes root)) x).length ≤ maxCodeLen (genCodes root)) ∧
    (∃ x ∈ root.leaves, (codeOf (writeTable (genCodes root)) x).length = maxCodeLen (genCodes root)) ∧
    maxCodeLen (genCodes root) < 256 := by
  have htab := writeTable_spec hn hc
  have hin : ∀ e ∈ genCodes root, e.2.length ≤ maxCodeLen (genCodes root) := fun e he =>
    le_foldl_max.2 _ (List.mem_map_of_mem (f := fun e : Symbol × BitString => e.2.length) he)
  have hleaf : ∀ x ∈ root.leaves, ∃ e ∈ genCodes root, e.1 = x := fun x hx => by
    rwa [← map_fst_genCodes, List.mem_map] at hx
  refine ⟨fun x => ?_, ?_, by have := maxCodeLen_le root; omega⟩
  · by_cases hx : x ∈ root.leaves
    · obtain ⟨e, he, rfl⟩ := hleaf x hx
      rw [htab.code e he]; exact hin e he
    · have h0 := htab.absent x hx
      simp [codeOf, h0, CtEntry.bits, bin]
  · rcases foldl_max_mem (l := (genCodes root).map fun e => e.2.length) (a := 0) with h | h
    · obtain ⟨x, hx⟩ := List.exists_mem_of_length_pos root.leaves_length_pos
      obtain ⟨e, he, rfl⟩ := hleaf x hx
      have h1 := hin e he
      have h2 := (genCodes_length he).1
      have h3 : maxCodeLen (genCodes root) = 0 := h
      omega
    · obtain ⟨e, he, hee⟩ := List.mem_map.1 h
      refine ⟨e.1, ?_, ?_⟩
      · rw [← map_fst_genCodes]; exact List.mem_map_of_mem he
      · rw [htab.code e he]; exact hee

theorem Node.eq_leaf {n : Node} (h : n.leaves.length = 1) : ∃ s w, n = .leaf s w := by
  cases n with
  | leaf s w => exact ⟨s, w, rfl⟩
  | internal w l r =>
    have := l.leaves_length_pos
    have := r.leaves_length_pos
    simp only [Node.leaves, List.length_append] at h
    omega

end Sys2Proof.Machine
end

