-- ==== Sys2Proof/Laws/Commands.lean ====
section
/-! SUPPORT. The command bodies: everything each can answer, and how a completion answers. -/

namespace Sys2Proof.Machine

/-! ### Completion -/

@[simp] theorem complete_ok (s t : State) : complete s (.ok t) = .next (reportSuccess t) := rfl

@[simp] theorem complete_raise (s : State) (c : ErrorCode) (p : Nat) :
    complete s (.error (.raise c p)) = .next (reportError c p s) := rfl

@[simp] theorem complete_fault (s : State) (f : Fault) : complete s (.error (.fault f)) = .fault f := rfl

/-- What a completion can answer. -/
theorem complete_cases {s t : State} {r : Body} (h : complete s r = .next t) :
    (∃ u, r = .ok u ∧ t = reportSuccess u) ∨ ∃ c p, r = .error (.raise c p) ∧ t = reportError c p s := by
  match r, h with
  | .ok u, h => exact .inl ⟨u, rfl, by simpa using h.symm⟩
  | .error (.raise c p), h => exact .inr ⟨c, p, rfl, by simpa using h.symm⟩

/-! ### Operands -/

@[simp] theorem length_input (s : State) : s.input.length = s.inLen.toNat := Memory.length_first _ _

theorem input_length_lt (s : State) : s.input.length < 2 ^ 32 := by rw [length_input]; exact s.inLen.isLt

theorem getElem_input (s : State) (i : Nat) (h : i < s.input.length) : s.input[i] = Memory.read s.inMem i :=
  Memory.getElem_first _ _ _ h

/-! ### COUNT -/

/-- The state COUNT makes. -/
def counted (s : State) : State :=
  { s with
    freq := (tally s.input).1
    order := (tally s.input).2
    ndist := BitVec.ofNat 9 (tally s.input).2.length }

theorem countBody_eq (s : State) :
    countBody s = if s.cfg.inDepth < s.inLen.toNat then .error (.raise .length 0) else .ok (counted s) := rfl

theorem counted_ndist (s : State) : (counted s).ndist.toNat = (counted s).order.length := by
  have h := length_le_of_nodup (tally_nodup (input_length_lt s))
  simp only [counted, BitVec.toNat_ofNat]
  exact Nat.mod_eq_of_lt (by omega)

theorem counted_ndist_eq_zero (s : State) : (counted s).ndist = 0 ↔ s.inLen = 0 := by
  have h1 : (counted s).ndist = 0 ↔ (counted s).order.length = 0 := by
    rw [← counted_ndist, ← BitVec.toNat_inj]; rfl
  have h2 : (counted s).order.length = 0 ↔ s.input.length = 0 := by
    rw [List.length_eq_zero_iff, List.length_eq_zero_iff, List.eq_nil_iff_forall_not_mem, List.eq_nil_iff_forall_not_mem]
    exact forall_congr' fun x => not_congr ((tally_order (input_length_lt s)).1 x)
  rw [h1, h2, length_input, ← BitVec.toNat_inj]
  rfl

theorem counted_total (s : State) : totalCount (counted s).freq = s.inLen.toNat := by
  rw [← length_input, ← sum_count_symbols, totalCount]
  congr 1
  exact List.map_congr_left fun x _ => tally_freq_toNat (input_length_lt s) x

theorem counted_ranked (s : State) : (counted s).ranked = (tally s.input).2 := by
  rw [State.ranked, counted_ndist, List.take_length]
  rfl

/-! ### BUILD -/

/-- The state BUILD makes from a tree. -/
def built (s : State) (root : Node) : State :=
  { s with
    ct := writeTable (genCodes root)
    rootWeight := BitVec.ofNat 32 root.weight
    maxLen := BitVec.ofNat 8 (maxCodeLen (genCodes root)) }

theorem buildBody_empty {s : State} (h : s.ndist = 0) : buildBody s = .error (.raise .emptyInput 0) := by
  simp [buildBody, h]

theorem ndist_ne_zero {s : State} (h : s.ndist ≠ 0) : s.ndist.toNat ≠ 0 := fun h0 =>
  h (BitVec.eq_of_toNat_eq (by simpa using h0))

theorem ranked_eq {s : State} (h : s.ndist.toNat = s.order.length) : s.ranked = s.order := by
  rw [State.ranked, h, List.take_length]

/-- BUILD of at least one ranked symbol. -/
theorem buildBody_ok {s : State} (h : s.ndist ≠ 0) (hr : s.ranked ≠ []) :
    ∃ root, buildTree s.freq s.ranked = some root ∧ buildBody s = .ok (built s root) ∧ root.leaves.Perm s.ranked ∧
      root.weight = countSum s.freq s.ranked := by
  obtain ⟨root, hb, hl, hw⟩ := buildTree_spec s.freq hr
  exact ⟨root, hb, by rw [buildBody, if_neg h, hb]; rfl, hl, hw⟩

/-- What BUILD can answer. -/
theorem buildBody_cases (s : State) :
    (s.ndist = 0 ∧ buildBody s = .error (.raise .emptyInput 0)) ∨
    (s.ndist ≠ 0 ∧ s.ranked = [] ∧ buildBody s = .error (.fault .emptyQueue)) ∨
    ∃ root, s.ndist ≠ 0 ∧ buildTree s.freq s.ranked = some root ∧ buildBody s = .ok (built s root) ∧
      root.leaves.Perm s.ranked ∧ root.weight = countSum s.freq s.ranked := by
  by_cases h0 : s.ndist = 0
  · exact .inl ⟨h0, buildBody_empty h0⟩
  · by_cases hr : s.ranked = []
    · refine .inr (.inl ⟨h0, hr, ?_⟩)
      rw [buildBody, if_neg h0, hr]
      rfl
    · obtain ⟨root, h1, h2, h3, h4⟩ := buildBody_ok h0 hr
      exact .inr (.inr ⟨root, h0, h1, h2, h3, h4⟩)

/-- A sum over distinct symbols is at most the total. -/
theorem countSum_le_total {freq : Table Word} {l : List Symbol} (h : l.Nodup) : countSum freq l ≤ totalCount freq := by
  have hs : l.Subperm symbols := h.subperm fun x _ => mem_symbols x
  obtain ⟨r, hr, hsub⟩ := hs
  rw [← countSum_perm hr]
  exact (hsub.map _).sum_le_sum fun _ _ => Nat.zero_le _

/-! ### PACK -/

/-- The state PACK makes. -/
def packed (s : State) : State :=
  { s with
    pkMem := Memory.writeFrom s.pkMem 0 (bytify (stringify s.ct s.input))
    bitLen := BitVec.ofNat 32 (stringify s.ct s.input).length }

/-- PACK of an input that fits, with a code for every symbol, into a memory that holds the bits. -/
theorem packBody_ok {s : State} (h1 : s.inLen.toNat ≤ s.cfg.inDepth) (h2 : ∀ x ∈ s.input, isPresent s.ct x = true)
    (h3 : (stringify s.ct s.input).length ≤ 8 * s.cfg.pkDepth) : packBody s = .ok (packed s) := by
  rw [packBody, if_neg (by omega), firstUnknown_eq_none.2 h2, (firstOverflow_eq_none (Nat.zero_le _)).2 (by omega)]
  rfl

/-- What PACK can answer, in the order of its checks. -/
theorem packBody_cases (s : State) :
    (s.cfg.inDepth < s.inLen.toNat ∧ packBody s = .error (.raise .length 0)) ∨
    (s.inLen.toNat ≤ s.cfg.inDepth ∧
      ((∃ i, firstUnknown s.ct s.input = some i ∧ packBody s = .error (.raise .unknownSymbol i)) ∨
       ((∀ x ∈ s.input, isPresent s.ct x = true) ∧
        ((∃ i, firstOverflow s.ct (8 * s.cfg.pkDepth) 0 0 s.input = some i ∧
            packBody s = .error (.raise .capacity i)) ∨
         ((stringify s.ct s.input).length ≤ 8 * s.cfg.pkDepth ∧ packBody s = .ok (packed s)))))) := by
  unfold packBody
  by_cases h1 : s.cfg.inDepth < s.inLen.toNat
  · exact .inl ⟨h1, by simp [h1]⟩
  · refine .inr ⟨by omega, ?_⟩
    simp only [h1, if_false]
    cases h2 : firstUnknown s.ct s.input with
    | some i => exact .inl ⟨i, rfl, rfl⟩
    | none =>
      refine .inr ⟨firstUnknown_eq_none.1 h2, ?_⟩
      cases h3 : firstOverflow s.ct (8 * s.cfg.pkDepth) 0 0 s.input with
      | some i => exact .inl ⟨i, rfl, rfl⟩
      | none =>
        have := (firstOverflow_eq_none (Nat.zero_le _)).1 h3
        exact .inr ⟨by omega, rfl⟩

/-! ### DECODE -/

/-- The state DECODE makes. -/
def decoded (s : State) (out : List Symbol) : State :=
  { s with outMem := Memory.writeFrom s.outMem 0 out, outLen := BitVec.ofNat 32 out.length }

/-- What DECODE can answer, in the order of its checks. -/
theorem decodeBody_cases (s : State) :
    (8 * s.cfg.pkDepth < s.bitLen.toNat ∧ decodeBody s = .error (.raise .length 0)) ∨
    (s.bitLen.toNat ≤ 8 * s.cfg.pkDepth ∧
      ((∃ x, firstOffender s.ct = some x ∧ decodeBody s = .error (.raise .badTable x.toNat)) ∨
       (PrefixFree s.ct ∧
        ((s.bitLen.toNat % 8 ≠ 0 ∧ 2 ^ (s.bitLen.toNat % 8) ≤ (Memory.read s.pkMem (s.bitLen.toNat / 8)).toNat ∧
            decodeBody s = .error (.raise .badPad (s.bitLen.toNat / 8))) ∨
         ∃ xs tail, (∀ x ∈ xs, isPresent s.ct x = true) ∧
          unbytify s.pkMem s.bitLen.toNat = .ok (stringify s.ct xs ++ tail) ∧
          (stringify s.ct xs ++ tail).length = s.bitLen.toNat ∧ xs.length ≤ s.cfg.outDepth ∧
          ((tail = [] ∧ decodeBody s = .ok (decoded s xs)) ∨
           (tail ≠ [] ∧ matchesAt s.ct tail = [] ∧
             decodeBody s = .error (.raise .undecodable (stringify s.ct xs).length)) ∨
           (tail ≠ [] ∧ matchesAt s.ct tail ≠ [] ∧ xs.length = s.cfg.outDepth ∧
             decodeBody s = .error (.raise .capacity (stringify s.ct xs).length))))))) := by
  unfold decodeBody
  by_cases h1 : 8 * s.cfg.pkDepth < s.bitLen.toNat
  · exact .inl ⟨h1, by simp [h1]⟩
  · refine .inr ⟨by omega, ?_⟩
    simp only [h1, if_false]
    cases h2 : firstOffender s.ct with
    | some x => exact .inl ⟨x, rfl, rfl⟩
    | none =>
      refine .inr ⟨(firstOffender_eq_none s.ct).1 h2, ?_⟩
      rcases unbytify_cases s.pkMem s.bitLen.toNat with ⟨bs, hbs, hl⟩ | ⟨hr, hge, hbad⟩
      · obtain ⟨xs, tail, hx, rfl, hd, hend⟩ := decodeBits_cases (ct := s.ct) (outDepth := s.cfg.outDepth) bs
        refine .inr ⟨xs, tail, hx, hbs, hl, hd, ?_⟩
        rw [hbs]
        rcases hend with ⟨h, he⟩ | ⟨h, h', he⟩ | ⟨h, h', h'', he⟩
        · exact .inl ⟨h, by simp [he, decoded]⟩
        · exact .inr (.inl ⟨h, h', by simp [he]⟩)
        · exact .inr (.inr ⟨h, h', h'', by simp [he]⟩)
      · exact .inl ⟨hr, hge, by rw [hbad]⟩

/-! ### ENCODE -/

/-- The tree ENCODE builds from a nonempty input: over the input's symbols, weighing the input's length. -/
theorem encode_tree {s : State} (h : s.inLen ≠ 0) :
    ∃ root, buildTree (tally s.input).1 (tally s.input).2 = some root ∧ root.leaves.Perm (tally s.input).2 ∧
      root.leaves.Nodup ∧ root.leaves.length ≤ 256 ∧ root.weight = s.inLen.toNat ∧
      buildBody (counted s) = .ok (built (counted s) root) := by
  have h0 : (counted s).ndist ≠ 0 := fun he => h ((counted_ndist_eq_zero s).1 he)
  have hr : (counted s).ranked ≠ [] := by
    rw [counted_ranked]
    intro he
    have := counted_ndist s
    rw [show (counted s).order = (tally s.input).2 from rfl, he] at this
    exact ndist_ne_zero h0 this
  obtain ⟨root, hb, hbody, hl, hw⟩ := buildBody_ok h0 hr
  rw [counted_ranked] at hb hl hw
  have hnd := tally_nodup (input_length_lt s)
  refine ⟨root, hb, hl, hl.nodup_iff.2 hnd, by rw [hl.length_eq]; exact length_le_of_nodup hnd, ?_, hbody⟩
  rw [hw, ← counted_total]
  have hall : totalCount (counted s).freq = countSum (counted s).freq symbols := rfl
  rw [hall]
  have hsub : (tally s.input).2.Subperm symbols := hnd.subperm fun x _ => mem_symbols x
  have hz : ∀ x, x ∉ (tally s.input).2 → (Table.get (counted s).freq x).toNat = 0 := fun x hx => by
    have : x ∉ s.input := fun hm => hx (((tally_order (input_length_lt s)).1 x).2 hm)
    rw [show (counted s).freq = (tally s.input).1 from rfl, tally_freq_toNat (input_length_lt s)]
    exact List.count_eq_zero.2 this
  have hperm : (symbols.filter fun x => x ∈ (tally s.input).2).Perm (tally s.input).2 := by
    refine (List.perm_ext_iff_of_nodup (symbols_nodup.filter _) hnd).2 fun x => ?_
    simp [mem_symbols]
  rw [← countSum_perm hperm]
  have : ∀ l : List Symbol, countSum (counted s).freq (l.filter fun x => x ∈ (tally s.input).2)
      = countSum (counted s).freq l := by
    intro l
    induction l with
    | nil => rfl
    | cons a l ih =>
      simp only [countSum] at ih ⊢
      by_cases ha : a ∈ (tally s.input).2
      · simp [ha, ih]
      · simp [ha, ih, hz a ha]
  exact this symbols

/-- What ENCODE can answer, in the order of its checks. -/
theorem encodeBody_cases (s : State) :
    (s.cfg.inDepth < s.inLen.toNat ∧ encodeBody s = .error (.raise .length 0)) ∨
    (s.inLen.toNat ≤ s.cfg.inDepth ∧
      ((s.inLen = 0 ∧ encodeBody s = .error (.raise .emptyInput 0)) ∨
       ∃ root, s.inLen ≠ 0 ∧ buildTree (tally s.input).1 (tally s.input).2 = some root ∧
        root.leaves.Perm (tally s.input).2 ∧ root.leaves.Nodup ∧ root.leaves.length ≤ 256 ∧
        root.weight = s.inLen.toNat ∧
        (∀ x, isPresent (writeTable (genCodes root)) x = true ↔ x ∈ s.input) ∧
        PrefixFree (writeTable (genCodes root)) ∧
        ((∃ i, firstOverflow (writeTable (genCodes root)) (8 * s.cfg.pkDepth) 0 0 s.input = some i ∧
            encodeBody s = .error (.raise .capacity i)) ∨
         ((stringify (writeTable (genCodes root)) s.input).length ≤ 8 * s.cfg.pkDepth ∧
            encodeBody s = .ok (packed (built (counted s) root)))))) := by
  unfold encodeBody
  rw [countBody_eq]
  by_cases h1 : s.cfg.inDepth < s.inLen.toNat
  · exact .inl ⟨h1, by simp [h1]⟩
  · refine .inr ⟨by omega, ?_⟩
    simp only [h1, if_false]
    by_cases h0 : s.inLen = 0
    · exact .inl ⟨h0, by simp [buildBody_empty ((counted_ndist_eq_zero s).2 h0)]⟩
    · obtain ⟨root, hb, hl, hn, hc, hw, hbody⟩ := encode_tree h0
      have htab := writeTable_spec hn hc
      have hpres : ∀ x, isPresent (writeTable (genCodes root)) x = true ↔ x ∈ s.input := fun x => by
        rw [htab.present, hl.mem_iff, (tally_order (input_length_lt s)).1]
      have hpf : PrefixFree (writeTable (genCodes root)) := by
        intro x y hne hx hy
        rw [htab.present, ← map_fst_genCodes] at hx hy
        obtain ⟨e, he, rfl⟩ := List.mem_map.1 hx
        obtain ⟨f, hf, rfl⟩ := List.mem_map.1 hy
        rw [htab.code e he, htab.code f hf]
        exact genCodes_prefixFree hn he hf hne
      refine .inr ⟨root, h0, hb, hl, hn, hc, hw, hpres, hpf, ?_⟩
      simp only [hbody]
      rcases packBody_cases (built (counted s) root) with ⟨hlen, -⟩ | ⟨-, ⟨i, hu, -⟩ | ⟨-, ⟨i, ho, he⟩ | ⟨hfit, he⟩⟩⟩
      · exact absurd hlen h1
      · have : firstUnknown (built (counted s) root).ct (built (counted s) root).input = none :=
          firstUnknown_eq_none.2 fun x hx => (hpres x).2 hx
        rw [this] at hu
        cases hu
      · exact .inl ⟨i, ho, he⟩
      · exact .inr ⟨hfit, he⟩

end Sys2Proof.Machine
end

