-- ==== Sys2Proof/Laws/Control.lean ====
section
/-! SUPPORT. A command body neither reads nor writes what acceptance, the report and the host's accesses while RUN change. -/

namespace Sys2Proof.Machine

/-- `s` with the fields no command body reads or writes taken from `c`. -/
def State.withControl (s c : State) : State :=
  { s with
    phase := c.phase, op := c.op, irqEn := c.irqEn, done := c.done, err := c.err, accErr := c.accErr
    errCode := c.errCode, errPos := c.errPos, schedule := c.schedule, reads := c.reads }

/-- The body `exec` completes. -/
def bodyOf : Instr → State → Body
  | .nop => nopBody
  | .count => countBody
  | .build => buildBody
  | .pack => packBody
  | .encode => encodeBody
  | .decode => decodeBody
  | .ctclr => ctclrBody

theorem exec_eq (i : Instr) (s : State) : exec i s = complete s (bodyOf i s) := by cases i <;> rfl

theorem countBody_withControl (s c : State) :
    countBody (s.withControl c) = (countBody s).map (·.withControl c) := by
  rw [countBody_eq, countBody_eq]
  show (if s.cfg.inDepth < s.inLen.toNat then _ else _) = _
  split <;> rfl

theorem buildBody_withControl (s c : State) :
    buildBody (s.withControl c) = (buildBody s).map (·.withControl c) := by
  unfold buildBody
  show (if s.ndist = 0 then _ else match buildTree s.freq s.ranked with | none => _ | some root => _) = _
  split
  · rfl
  · cases buildTree s.freq s.ranked <;> rfl

theorem packBody_withControl (s c : State) :
    packBody (s.withControl c) = (packBody s).map (·.withControl c) := by
  unfold packBody
  show (if s.cfg.inDepth < s.inLen.toNat then _ else
    match firstUnknown s.ct s.input with
    | some i => _
    | none => match firstOverflow s.ct (8 * s.cfg.pkDepth) 0 0 s.input with | some i => _ | none => _) = _
  split
  · rfl
  · cases firstUnknown s.ct s.input with
    | some i => rfl
    | none => cases firstOverflow s.ct (8 * s.cfg.pkDepth) 0 0 s.input <;> rfl

theorem decodeBody_withControl (s c : State) :
    decodeBody (s.withControl c) = (decodeBody s).map (·.withControl c) := by
  unfold decodeBody
  show (if 8 * s.cfg.pkDepth < s.bitLen.toNat then _ else
    match firstOffender s.ct with
    | some x => _
    | none => match unbytify s.pkMem s.bitLen.toNat with
      | .error e => _
      | .ok bs => match decodeBits s.ct s.cfg.outDepth bs with | .error e => _ | .ok out => _) = _
  split
  · rfl
  · cases firstOffender s.ct with
    | some x => rfl
    | none =>
      cases unbytify s.pkMem s.bitLen.toNat with
      | error e => rfl
      | ok bs => 
        show (match decodeBits s.ct s.cfg.outDepth bs with | .error e => _ | .ok out => _) = Except.map _
          (match decodeBits s.ct s.cfg.outDepth bs with | .error e => _ | .ok out => _)
        cases decodeBits s.ct s.cfg.outDepth bs <;> rfl

theorem encodeBody_withControl (s c : State) :
    encodeBody (s.withControl c) = (encodeBody s).map (·.withControl c) := by
  unfold encodeBody
  rw [countBody_withControl]
  cases countBody s with
  | error e => rfl
  | ok s1 =>
    simp only [Except.map]
    rw [buildBody_withControl]
    cases buildBody s1 with
    | error e => rfl
    | ok s2 => simp only [Except.map]; rw [packBody_withControl]; rfl

/-- A body commutes with every change of the fields it does not use. -/
theorem bodyOf_withControl (i : Instr) (s c : State) :
    bodyOf i (s.withControl c) = (bodyOf i s).map (·.withControl c) := by
  cases i with
  | nop => rfl
  | count => exact countBody_withControl s c
  | build => exact buildBody_withControl s c
  | pack => exact packBody_withControl s c
  | encode => exact encodeBody_withControl s c
  | decode => exact decodeBody_withControl s c
  | ctclr => rfl

/-- A body leaves the fields it does not use as they were. -/
theorem bodyOf_control {i : Instr} {s u : State} (h : bodyOf i s = .ok u) : u = u.withControl s := by
  have h1 := bodyOf_withControl i s s
  rw [show s.withControl s = s from rfl, h] at h1
  exact Except.ok.inj h1

/-! ### Inversion: everything a body can write -/

/-- What the state is that a body succeeds with. -/
theorem bodyOf_ok {i : Instr} {s u : State} (h : bodyOf i s = .ok u) :
    (i = .nop ∧ u = s) ∨
    (i = .count ∧ s.inLen.toNat ≤ s.cfg.inDepth ∧ u = counted s) ∨
    (i = .build ∧ ∃ root, s.ndist ≠ 0 ∧ root.leaves.Perm s.ranked ∧ root.weight = countSum s.freq s.ranked ∧
      u = built s root) ∨
    (i = .pack ∧ (stringify s.ct s.input).length ≤ 8 * s.cfg.pkDepth ∧ u = packed s) ∨
    (i = .encode ∧ ∃ root, s.inLen.toNat ≤ s.cfg.inDepth ∧ root.weight = s.inLen.toNat ∧
      (∀ x, isPresent (writeTable (genCodes root)) x = true ↔ x ∈ s.input) ∧ PrefixFree (writeTable (genCodes root)) ∧
      (stringify (writeTable (genCodes root)) s.input).length ≤ 8 * s.cfg.pkDepth ∧
      u = packed (built (counted s) root)) ∨
    (i = .decode ∧ ∃ out, out.length ≤ s.cfg.outDepth ∧ u = decoded s out) ∨
    (i = .ctclr ∧ u = { s with ct := clearTable s.ct }) := by
  cases i with
  | nop => exact .inl ⟨rfl, by cases h; rfl⟩
  | count =>
    refine .inr (.inl ⟨rfl, ?_⟩)
    rw [bodyOf, countBody_eq] at h
    split at h
    · cases h
    · cases h; exact ⟨by omega, rfl⟩
  | build =>
    refine .inr (.inr (.inl ⟨rfl, ?_⟩))
    rcases buildBody_cases s with ⟨-, hb⟩ | ⟨-, -, hb⟩ | ⟨root, hn, -, hb, hl, hw⟩ <;>
      rw [bodyOf, hb] at h <;> cases h
    exact ⟨root, hn, hl, hw, rfl⟩
  | pack =>
    refine .inr (.inr (.inr (.inl ⟨rfl, ?_⟩)))
    rcases packBody_cases s with ⟨-, hb⟩ | ⟨-, ⟨i, -, hb⟩ | ⟨-, ⟨i, -, hb⟩ | ⟨hf, hb⟩⟩⟩ <;>
      rw [bodyOf, hb] at h <;> cases h
    exact ⟨hf, rfl⟩
  | encode =>
    refine .inr (.inr (.inr (.inr (.inl ⟨rfl, ?_⟩))))
    rcases encodeBody_cases s with ⟨-, hb⟩ | ⟨hin, ⟨-, hb⟩ | ⟨root, -, -, -, -, -, hw, hp, hpf, ⟨i, -, hb⟩ | ⟨hf, hb⟩⟩⟩ <;>
      rw [bodyOf, hb] at h <;> cases h
    exact ⟨root, hin, hw, hp, hpf, hf, rfl⟩
  | decode =>
    refine .inr (.inr (.inr (.inr (.inr (.inl ⟨rfl, ?_⟩)))))
    rcases decodeBody_cases s with ⟨-, hb⟩ | ⟨-, ⟨x, -, hb⟩ |
        ⟨-, ⟨-, -, hb⟩ | ⟨xs, tail, -, -, -, hd, ⟨-, hb⟩ | ⟨-, -, hb⟩ | ⟨-, -, -, hb⟩⟩⟩⟩ <;>
      rw [bodyOf, hb] at h <;> cases h
    exact ⟨xs, hd, rfl⟩
  | ctclr => exact .inr (.inr (.inr (.inr (.inr (.inr ⟨rfl, by cases h; rfl⟩)))))

/-- What a body can raise or fault with. -/
theorem bodyOf_error {i : Instr} {s : State} {e : Stop} (h : bodyOf i s = .error e) :
    (∃ c p, e = .raise c p ∧ c ≠ .none ∧ c ≠ .emptyQueue) ∨
      (i = .build ∧ s.ndist ≠ 0 ∧ s.ranked = [] ∧ e = .fault .emptyQueue) := by
  cases i with
  | nop => cases h
  | count =>
    rw [bodyOf, countBody_eq] at h
    split at h <;> cases h
    exact .inl ⟨_, _, rfl, by decide, by decide⟩
  | build =>
    rcases buildBody_cases s with ⟨-, hb⟩ | ⟨hn, hr, hb⟩ | ⟨root, -, -, hb, -⟩ <;> rw [bodyOf, hb] at h <;> cases h
    · exact .inl ⟨_, _, rfl, by decide, by decide⟩
    · exact .inr ⟨rfl, hn, hr, rfl⟩
  | pack =>
    rcases packBody_cases s with ⟨-, hb⟩ | ⟨-, ⟨i, -, hb⟩ | ⟨-, ⟨i, -, hb⟩ | ⟨-, hb⟩⟩⟩ <;>
      rw [bodyOf, hb] at h <;> cases h <;> exact .inl ⟨_, _, rfl, by decide, by decide⟩
  | encode =>
    rcases encodeBody_cases s with ⟨-, hb⟩ | ⟨-, ⟨-, hb⟩ | ⟨root, -, -, -, -, -, -, -, -, ⟨i, -, hb⟩ | ⟨-, hb⟩⟩⟩ <;>
      rw [bodyOf, hb] at h <;> cases h <;> exact .inl ⟨_, _, rfl, by decide, by decide⟩
  | decode =>
    rcases decodeBody_cases s with ⟨-, hb⟩ | ⟨-, ⟨x, -, hb⟩ |
        ⟨-, ⟨-, -, hb⟩ | ⟨xs, tail, -, -, -, -, ⟨-, hb⟩ | ⟨-, -, hb⟩ | ⟨-, -, -, hb⟩⟩⟩⟩ <;>
      rw [bodyOf, hb] at h <;> cases h <;> exact .inl ⟨_, _, rfl, by decide, by decide⟩
  | ctclr => cases h

end Sys2Proof.Machine
end

