-- ==== Sys2Proof/Laws/Host.lean ====
section
/-! SUPPORT. The register map and the host's accesses: which register an offset names, and what an access does. -/

namespace Sys2Proof.Machine

/-! ### The register map -/

theorem mem_allRegs (r : Reg) : r ∈ allRegs := by
  cases r with
  | ctCode k => fin_cases k <;> decide
  | _ => decide

theorem offsetOf_injective : ∀ r ∈ allRegs, ∀ q ∈ allRegs, offsetOf r = offsetOf q → r = q := by decide

/-- An offset names the register whose word it lies in. -/
theorem regAt_eq_some {off : Offset} {r : Reg} : regAt off = some r ↔ off &&& 0xFFC = offsetOf r := by
  constructor
  · intro h
    have := List.find?_some h
    exact (by simpa using this : offsetOf r = off &&& 0xFFC).symm
  · intro h
    cases hf : regAt off with
    | none =>
      exact absurd h.symm (by simpa using List.find?_eq_none.1 hf r (mem_allRegs r))
    | some q =>
      have hq : offsetOf q = off &&& 0xFFC := by simpa using List.find?_some hf
      rw [offsetOf_injective q (mem_allRegs q) r (mem_allRegs r) (hq.trans h)]

theorem regAt_offsetOf (r : Reg) : regAt (offsetOf r) = some r := by
  rw [regAt_eq_some]
  cases r with
  | ctCode k => fin_cases k <;> decide
  | _ => decide

/-! ### The busy guard -/

theorem busy_iff (s : State) : s.busy = true ↔ s.phase = .run := by
  unfold State.busy; cases s.phase <;> simp

theorem blocked_of_idle {s : State} (h : s.phase = .idle) (r : Reg) : blocked s r = false := by
  simp [blocked, State.busy, h]

theorem blocked_of_run {s : State} (h : s.phase = .run) (r : Reg) : blocked s r = guarded r := by
  simp [blocked, State.busy, h]

theorem blocked_of_unguarded (s : State) {r : Reg} (h : guarded r = false) : blocked s r = false := by
  simp [blocked, h]

theorem hostRead_reg {s : State} {off : Offset} {r : Reg} (hr : regAt off = some r) (hb : blocked s r = false) :
    hostStep (.read off) s = returned (regValue s r) (afterRead s r) := by
  simp [hostStep, hostRead, hr, hb]

theorem hostWrite_reg {s : State} {off : Offset} {r : Reg} (v : Word) (hr : regAt off = some r)
    (hb : blocked s r = false) : hostStep (.write off v) s = writeReg v s r := by
  simp [hostStep, hostWrite, hr, hb]

theorem hostRead_blocked {s : State} {off : Offset} {r : Reg} (hr : regAt off = some r) (hb : blocked s r = true) :
    hostStep (.read off) s = returned 0 (refuse s) := by
  simp [hostStep, hostRead, hr, hb]

theorem hostWrite_blocked {s : State} {off : Offset} {r : Reg} (v : Word) (hr : regAt off = some r)
    (hb : blocked s r = true) : hostStep (.write off v) s = refuse s := by
  simp [hostStep, hostWrite, hr, hb]

theorem hostRead_unmapped {s : State} {off : Offset} (hr : regAt off = none) :
    hostStep (.read off) s = returned 0 s := by simp [hostStep, hostRead, hr]

theorem hostWrite_unmapped {s : State} {off : Offset} (v : Word) (hr : regAt off = none) :
    hostStep (.write off v) s = s := by simp [hostStep, hostWrite, hr]

/-! ### The words of CODE -/

/-- Bit `b` of CODE after a write of its word `k`. -/
theorem getLsbD_setCodeWord (c : Code) (k : Fin 8) (w : Word) {b : Nat} (hb : b < 256) :
    (setCodeWord c k w).getLsbD b = if b / 32 = k.val then w.getLsbD (b % 32) else c.getLsbD b := by
  have hk := k.isLt
  simp only [setCodeWord, BitVec.getLsbD_or, BitVec.getLsbD_and, BitVec.getLsbD_not, BitVec.getLsbD_shiftLeft,
    BitVec.getLsbD_setWidth, BitVec.getLsbD_allOnes, hb, decide_true, Bool.true_and]
  rcases Nat.lt_trichotomy (b / 32) k.val with h | h | h
  · have h1 : b < 32 * k.val := by omega
    have h2 : b / 32 ≠ k.val := by omega
    simp [h1, h2]
  · have h1 : ¬ b < 32 * k.val := by omega
    have h2 : b - 32 * k.val = b % 32 := by omega
    have h3 : b % 32 < 32 := Nat.mod_lt _ (by decide)
    simp [h1, h2, h3, h, show b % 32 < 256 by omega]
  · have h1 : ¬ b < 32 * k.val := by omega
    have h2 : b / 32 ≠ k.val := by omega
    have h3 : ¬ b - 32 * k.val < 32 := by omega
    simp [h1, h2, h3, BitVec.getLsbD_of_ge w _ (by omega : 32 ≤ b - 32 * k.val)]

theorem getLsbD_codeWord (c : Code) (k : Fin 8) {i : Nat} (hi : i < 32) :
    (codeWord c k).getLsbD i = c.getLsbD (32 * k.val + i) := by
  simp [codeWord, hi]

/-- A word of CODE reads back what was written to it. -/
theorem codeWord_setCodeWord (c : Code) (k : Fin 8) (w : Word) : codeWord (setCodeWord c k w) k = w := by
  refine BitVec.eq_of_getLsbD_eq fun i hi => ?_
  have hk := k.isLt
  rw [getLsbD_codeWord _ _ hi, getLsbD_setCodeWord _ _ _ (by omega), if_pos (by omega)]
  congr 1
  omega

/-- Writing all eight words of CODE leaves nothing of what it held. -/
theorem setCodeWord_all (c v : Code) :
    (List.finRange 8).foldl (fun u k => setCodeWord u k (codeWord v k)) c = v := by
  refine BitVec.eq_of_getLsbD_eq fun b hb => ?_
  have h : ∀ (l : List (Fin 8)) (u : Code), (l.foldl (fun u k => setCodeWord u k (codeWord v k)) u).getLsbD b
      = if (∃ k ∈ l, b / 32 = k.val) then v.getLsbD b else u.getLsbD b := by
    intro l
    induction l with
    | nil => simp
    | cons k l ih =>
      intro u
      rw [List.foldl_cons, ih, getLsbD_setCodeWord _ _ _ hb]
      by_cases h1 : b / 32 = k.val
      · have : (codeWord v k).getLsbD (b % 32) = v.getLsbD b := by
          rw [getLsbD_codeWord _ _ (Nat.mod_lt _ (by decide))]; congr 1; omega
        simp [h1, this]
      · simp [h1]
  rw [h, if_pos ⟨⟨b / 32, by omega⟩, List.mem_finRange _, rfl⟩]

/-! ### The STATUS word -/

theorem statusWord_bits (s : State) :
    (statusWord s).getLsbD 0 = s.busy ∧ (statusWord s).getLsbD 1 = s.done ∧ (statusWord s).getLsbD 2 = s.err ∧
      (statusWord s).getLsbD 3 = s.accErr := by
  unfold statusWord
  generalize s.busy = a, s.done = b, s.err = c, s.accErr = d, s.errCode = e
  revert a b c d
  cases e <;> decide

/-! ### Steps that are host accesses -/

theorem step_host {s : State} {a : Access} {ts : List Turn} (h : s.schedule = .host a :: ts) :
    step s = .next (hostStep a { s with schedule := ts }) := by
  simp [step, nextTurn, h, takeTurn]

theorem steps_host {s : State} {a : Access} {ts : List Turn} (k : Nat) (h : s.schedule = .host a :: ts) :
    steps (k + 1) s = steps k (hostStep a { s with schedule := ts }) := by
  rw [steps, step_host h]

theorem hostWrite_idle {s : State} (hs : s.phase = .idle) (r : Reg) (v : Word) :
    hostStep (.write (offsetOf r) v) s = writeReg v s r :=
  hostWrite_reg v (regAt_offsetOf r) (blocked_of_idle hs r)

theorem steps_add (a b : Nat) (s : State) :
    steps (a + b) s = match steps a s with
      | .next t => steps b t
      | .fault f => .fault f
      | .refused r => .refused r := by
  induction a generalizing s with
  | zero => simp [steps]
  | succ a ih =>
    rw [show a + 1 + b = (a + b) + 1 by omega]
    simp only [steps]
    cases step s with
    | next t => exact ih t
    | fault f => rfl
    | refused r => rfl

/-! ### The loop of a WAIT -/

theorem read_status (s : State) : hostStep (.read (offsetOf .status)) s = returned (statusWord s) s :=
  hostRead_reg (r := .status) (regAt_offsetOf _) (blocked_of_unguarded _ rfl)

theorem pollStatus_idle {s : State} (again : Turn) (h : s.phase = .idle) :
    pollStatus again s = returned (statusWord s) s := by
  have hb : (regValue s .status).getLsbD 0 = false := by
    rw [show regValue s .status = statusWord s from rfl, (statusWord_bits s).1, State.busy, h]
  simp only [pollStatus, hb, Bool.false_eq_true, if_false, read_status]

theorem pollStatus_run {s : State} (again : Turn) (h : s.phase = .run) :
    pollStatus again s = returned (statusWord s) { s with schedule := again :: s.schedule } := by
  have hb : (regValue s .status).getLsbD 0 = true := by
    rw [show regValue s .status = statusWord s from rfl, (statusWord_bits s).1, State.busy, h]
  simp only [pollStatus, hb, if_true, read_status]
  rfl

/-- On an idle engine the first read has BUSY = 0 and ends the loop. -/
theorem waitTurn_idle {s : State} (n : Nat) (h : s.phase = .idle) : waitTurn n s = .next (returned (statusWord s) s) := by
  cases n <;> simp only [waitTurn, h, pollStatus_idle _ h]

/-- On a running engine a read with polls left has BUSY = 1 and goes on. -/
theorem waitTurn_poll {s : State} (n : Nat) (h : s.phase = .run) :
    waitTurn (n + 1) s = .next (returned (statusWord s) { s with schedule := .wait n :: s.schedule }) := by
  rw [waitTurn, pollStatus_run _ h]

/-- On a running engine with no polls left the command completes, and the loop goes on. -/
theorem waitTurn_engine {s : State} (h : s.phase = .run) :
    waitTurn 0 s = engineStep { s with schedule := .wait 0 :: s.schedule } := by
  simp only [waitTurn, h]

theorem step_wait {s : State} {n : Nat} {ts : List Turn} (h : s.schedule = .wait n :: ts) :
    step s = waitTurn n { s with schedule := ts } := by
  simp [step, nextTurn, h, takeTurn]

/-- The reads of BUSY = 1 of a WAIT, one after the other. -/
theorem steps_wait_polls {s : State} {ts : List Turn} (n k : Nat) (h : s.schedule = .wait n :: ts) (hr : s.phase = .run) :
    steps (n + k) s = steps k { s with
      schedule := .wait 0 :: ts, reads := List.replicate n (statusWord s) ++ s.reads } := by
  induction n generalizing s with
  | zero => simp [← h]
  | succ n ih =>
    rw [show n + 1 + k = n + k + 1 by omega, steps, step_wait h, waitTurn_poll n (by exact hr)]
    refine (ih (s := returned (statusWord s) { s with schedule := .wait n :: ts }) rfl hr).trans ?_
    rw [show statusWord (returned (statusWord s) { s with schedule := .wait n :: ts }) = statusWord s from rfl,
      List.replicate_succ', List.append_assoc]
    rfl

/-! ### What an access can change -/

/-- A read changes the window pointers, ACC_ERR and what the bus returned, and nothing else. -/
theorem hostRead_frame (off : Offset) (s : State) :
    hostStep (.read off) s = { s with
      inAddr := (hostStep (.read off) s).inAddr, pkAddr := (hostStep (.read off) s).pkAddr
      outAddr := (hostStep (.read off) s).outAddr, accErr := (hostStep (.read off) s).accErr
      reads := (hostStep (.read off) s).reads } := by
  cases hr : regAt off with
  | none => rw [hostRead_unmapped hr]; rfl
  | some r =>
    cases hb : blocked s r with
    | true => rw [hostRead_blocked hr hb]; rfl
    | false =>
      rw [hostRead_reg hr hb]
      cases r <;> simp only [afterRead] <;> (try split) <;> rfl

/-- While RUN an access changes CTRL, the w1c bits of STATUS and what the bus returned, and nothing else. -/
theorem hostStep_running {s : State} (a : Access) (h : s.phase = .run) :
    hostStep a s = { s with
      irqEn := (hostStep a s).irqEn, done := (hostStep a s).done, err := (hostStep a s).err
      accErr := (hostStep a s).accErr, reads := (hostStep a s).reads } := by
  cases a with
  | read off =>
    cases hr : regAt off with
    | none => rw [hostRead_unmapped hr]; rfl
    | some r =>
      cases hb : blocked s r with
      | true => rw [hostRead_blocked hr hb]; rfl
      | false =>
        rw [hostRead_reg hr hb]
        rw [blocked_of_run h] at hb
        cases r <;> first | rfl | cases hb
  | write off v =>
    cases hr : regAt off with
    | none => rw [hostWrite_unmapped v hr]
    | some r =>
      cases hb : blocked s r with
      | true => rw [hostWrite_blocked v hr hb]; rfl
      | false =>
        rw [hostWrite_reg v hr hb]
        rw [blocked_of_run h] at hb
        have hc : writeReg v s .cmd = refuse s := by simp [writeReg, issue, h]
        cases r <;> first | (rw [hc]; rfl) | rfl | cases hb

/-- No access changes the parameters. -/
theorem hostStep_cfg (a : Access) (s : State) : (hostStep a s).cfg = s.cfg := by
  cases a with
  | read off => rw [hostRead_frame]
  | write off v =>
    simp only [hostStep, hostWrite]
    split
    · rfl
    · split
      · rfl
      · rename_i r _ _
        cases r <;> simp only [writeReg, issue, setSelected] <;> (try split) <;> rfl

end Sys2Proof.Machine
end

