-- ==== Sys2Proof/Laws/Invariant.lean ====
section
/-! SUPPORT. Each operation of the machine keeps the invariant of Safety.lean. -/

namespace Sys2Proof.Machine

theorem Config.wf_default : Config.default.wf := by decide

theorem length_bytify_le {bs : BitString} {depth : Nat} (h : bs.length ≤ 8 * depth) : (bytify bs).length ≤ depth := by
  rw [length_bytify, ceilDiv_eight]; split <;> omega

/-- Writing the packed bytes of a bit string that fits keeps a memory canonical and within its depth. -/
theorem packed_memory {m : Memory} {depth : Nat} {bs : BitString} (h : Memory.wf m ∧ Memory.within m depth)
    (hb : bs.length ≤ 8 * depth) :
    Memory.wf (Memory.writeFrom m 0 (bytify bs)) ∧ Memory.within (Memory.writeFrom m 0 (bytify bs)) depth :=
  ⟨Memory.wf_writeFrom h.1 _ _, Memory.within_writeFrom h.2 _ _ (by simpa using length_bytify_le hb)⟩

theorem inv_counted {s : State} (h : s.Inv) (hl : s.inLen.toNat ≤ s.cfg.inDepth) : (counted s).Inv :=
  { h with
    distinct := tally_nodup (input_length_lt s)
    rankCount := counted_ndist s
    counted := fun x => by
      have h1 := (tally_order (input_length_lt s)).1 x
      have h2 := tally_freq_toNat (input_length_lt s) x
      change x ∈ (tally s.input).2 ↔ 1 ≤ (Table.get (tally s.input).1 x).toNat
      rw [h1, h2, ← List.count_pos_iff, Nat.lt_iff_add_one_le, Nat.zero_add]
    total := (counted_total s).trans_le hl }

theorem inv_built {s : State} (h : s.Inv) {root : Node} (hw : root.weight ≤ s.cfg.inDepth) : (built s root).Inv :=
  { h with
    weight := by
      have := h.config.1.2
      change (BitVec.ofNat 32 root.weight).toNat ≤ s.cfg.inDepth
      rw [BitVec.toNat_ofNat, Nat.mod_eq_of_lt (by omega)]
      exact hw }

theorem inv_packed {s : State} (h : s.Inv) (hf : (stringify s.ct s.input).length ≤ 8 * s.cfg.pkDepth) :
    (packed s).Inv :=
  { h with pkMem := packed_memory h.pkMem hf }

theorem inv_decoded {s : State} (h : s.Inv) {out : List Symbol} (hd : out.length ≤ s.cfg.outDepth) :
    (decoded s out).Inv :=
  { h with
    outMem := ⟨Memory.wf_writeFrom h.outMem.1 _ _, Memory.within_writeFrom h.outMem.2 _ _ (by simpa using hd)⟩
    decoded := by
      have := h.config.2.2.2
      change (BitVec.ofNat 32 out.length).toNat ≤ s.cfg.outDepth
      rw [BitVec.toNat_ofNat, Nat.mod_eq_of_lt (by omega)]
      exact hd }

/-- A body that succeeds keeps the invariant. -/
theorem inv_bodyOf {i : Instr} {s u : State} (h : s.Inv) (hb : bodyOf i s = .ok u) : u.Inv := by
  rcases bodyOf_ok hb with ⟨-, rfl⟩ | ⟨-, hl, rfl⟩ | ⟨-, root, -, -, hw, rfl⟩ | ⟨-, hf, rfl⟩ |
      ⟨-, root, hl, hw, -, -, hf, rfl⟩ | ⟨-, out, hd, rfl⟩ | ⟨-, rfl⟩
  · exact h
  · exact inv_counted h hl
  · refine inv_built h ?_
    rw [hw, ranked_eq h.rankCount]
    exact (countSum_le_total h.distinct).trans h.total
  · exact inv_packed h hf
  · exact inv_packed (inv_built (inv_counted h hl) (hw.trans_le hl)) hf
  · exact inv_decoded h hd
  · exact { h with }

theorem inv_reportSuccess {s : State} (h : s.Inv) : (reportSuccess s).Inv :=
  { h with
    reachable := fun he => by cases he
    errCoded := fun he => by cases he
    posCoded := fun _ => rfl
    running := fun hr => by cases hr }

theorem inv_reportError {s : State} (h : s.Inv) {c : ErrorCode} (hc : c ≠ .none) (hq : c ≠ .emptyQueue)
    (p : Nat) : (reportError c p s).Inv :=
  { h with
    reachable := hq
    errCoded := fun _ => hc
    posCoded := fun he => absurd he hc
    running := fun hr => by cases hr }

theorem State.Inv.ranked_ne_nil {s : State} (h : s.Inv) (hn : s.ndist ≠ 0) : s.ranked ≠ [] := by
  rw [ranked_eq h.rankCount]
  intro he
  have := h.rankCount
  rw [he] at this
  exact ndist_ne_zero hn this

/-! ### Acceptance, the host and reset -/

theorem inv_accept {s : State} (h : s.Inv) (w : Word) : (accept w s).Inv :=
  { h with
    reachable := fun he => by cases he
    errCoded := fun he => by cases he
    posCoded := fun _ => rfl
    running := fun _ => ⟨rfl, rfl, rfl⟩ }

theorem inv_refuse {s : State} (h : s.Inv) : (refuse s).Inv := { h with }

theorem inv_returned {s : State} (h : s.Inv) (v : Word) : (returned v s).Inv := { h with }

theorem inv_clearReport {s : State} (h : s.Inv) (v : Word) : (clearReport v s).Inv :=
  { h with
    errCoded := fun he => h.errCoded (by simp only [clearReport, Bool.and_eq_true] at he; exact he.1)
    running := fun hr => by
      obtain ⟨h1, h2, h3⟩ := h.running hr
      simp [clearReport, h1, h2, h3] }

theorem inv_afterRead {s : State} (h : s.Inv) (r : Reg) : (afterRead s r).Inv := by
  cases r <;> simp only [afterRead] <;> (try split) <;> first | exact h | exact inv_refuse h | exact { h with }

theorem inv_writeReg {s : State} (h : s.Inv) (v : Word) (r : Reg) : (writeReg v s r).Inv := by
  cases r <;> simp only [writeReg, issue, setSelected] <;> (try split)
  all_goals first
    | exact h
    | exact inv_refuse h
    | exact inv_accept h v
    | exact inv_clearReport h v
    | exact { h with }
    | skip
  · rename_i hr
    exact { h with inMem := ⟨Memory.wf_write h.inMem.1 _ _, Memory.within_write h.inMem.2 (of_decide_eq_true hr) _⟩ }
  · rename_i hr
    exact { h with pkMem := ⟨Memory.wf_write h.pkMem.1 _ _, Memory.within_write h.pkMem.2 (of_decide_eq_true hr) _⟩ }

theorem inv_hostStep {s : State} (h : s.Inv) (a : Access) : (hostStep a s).Inv := by
  cases a with
  | read off =>
    simp only [hostStep, hostRead]
    split
    · exact inv_returned h _
    · split
      · exact inv_returned (inv_refuse h) _
      · exact inv_returned (inv_afterRead h _) _
  | write off v =>
    simp only [hostStep, hostWrite]
    split
    · exact h
    · split
      · exact inv_refuse h
      · exact inv_writeReg h v _

theorem inv_resetTo {s : State} (h : s.Inv) (d : Draw) : (resetTo d s).Inv :=
  { config := h.config
    inMem := Memory.wf_drawn _ _
    pkMem := Memory.wf_drawn _ _
    outMem := Memory.wf_drawn _ _
    distinct := List.nodup_nil
    rankCount := rfl
    counted := fun x => by simp [resetTo, State.reset]
    total := by
      have : totalCount (resetTo d s).freq = 0 := by
        simp [totalCount, resetTo, State.reset]
      omega
    weight := Nat.zero_le _
    decoded := Nat.zero_le _
    reachable := fun he => by cases he
    errCoded := fun he => by cases he
    posCoded := fun _ => rfl
    running := fun hr => by cases hr }

theorem inv_withSchedule {s : State} (h : s.Inv) (ts : List Turn) : ({ s with schedule := ts } : State).Inv :=
  { h with }

theorem inv_pollStatus {s : State} (h : s.Inv) (again : Turn) : (pollStatus again s).Inv := by
  have ht := inv_hostStep h (.read (offsetOf .status))
  unfold pollStatus
  split
  · exact inv_withSchedule ht _
  · exact ht

end Sys2Proof.Machine
end

