-- ==== Sys2Proof/Laws/Optimality.lean ====
section
/-! SUPPORT. The merge loop makes the cheapest tree: an assignment of lengths that obeys Kraft's inequality costs at least as
much. -/

namespace Sys2Proof.Machine

/-! ### Weights with lengths -/

/-- Weights, each beside the length of a code for it. -/
abbrev Lengths := List (Nat × Nat)

/-- What an assignment of lengths costs: each weight times its length. -/
def Lengths.cost (l : Lengths) : Nat := (l.map fun e => e.1 * e.2).sum

/-- The Kraft sum, in units of 2^(-N). -/
def Lengths.kraft (N : Nat) (l : Lengths) : Nat := (l.map fun e => 2 ^ (N - e.2)).sum

@[simp] theorem Lengths.cost_cons (e : Nat × Nat) (l : Lengths) : Lengths.cost (e :: l) = e.1 * e.2 + Lengths.cost l := by
  simp [Lengths.cost]

@[simp] theorem Lengths.kraft_cons (N : Nat) (e : Nat × Nat) (l : Lengths) :
    Lengths.kraft N (e :: l) = 2 ^ (N - e.2) + Lengths.kraft N l := by
  simp [Lengths.kraft]

theorem Lengths.cost_perm {l m : Lengths} (h : l.Perm m) : Lengths.cost l = Lengths.cost m := (h.map _).sum_eq

theorem Lengths.kraft_perm {N : Nat} {l m : Lengths} (h : l.Perm m) : Lengths.kraft N l = Lengths.kraft N m :=
  (h.map _).sum_eq

/-- A longest code of a nonempty assignment. -/
theorem Lengths.exists_longest {l : Lengths} (h : l ≠ []) : ∃ e ∈ l, ∀ f ∈ l, f.2 ≤ e.2 := by
  induction l with
  | nil => exact absurd rfl h
  | cons a l ih =>
    by_cases hl : l = []
    · subst hl; exact ⟨a, by simp, by simp⟩
    · obtain ⟨e, he, hmax⟩ := ih hl
      by_cases hae : a.2 ≤ e.2
      · exact ⟨e, by simp [he], by simpa [hae] using hmax⟩
      · refine ⟨a, by simp, fun f hf => ?_⟩
        rcases List.mem_cons.1 hf with rfl | hf
        · exact le_rfl
        · have := hmax f hf; omega

/-- The least weight may as well have the longest code. -/
theorem Lengths.exchange {l : Lengths} {a : Nat} {ws : List Nat} (hl : (l.map (·.1)).Perm (a :: ws)) (ha : ∀ w ∈ ws, a ≤ w) :
    ∃ L r, (r.map (·.1)).Perm ws ∧ (L :: r.map (·.2)).Perm (l.map (·.2)) ∧ (∀ e ∈ r, e.2 ≤ L) ∧
      a * L + Lengths.cost r ≤ Lengths.cost l := by
  obtain ⟨⟨a', k⟩, hak, rfl⟩ := List.mem_map.1 (hl.mem_iff.2 (List.mem_cons_self ..))
  have hp := List.perm_cons_erase hak
  set r := l.erase (a', k)
  have hr : (r.map (·.1)).Perm ws := (List.perm_cons a').1 ((hp.map Prod.fst).symm.trans hl)
  obtain ⟨⟨c, L⟩, he, hmax⟩ := Lengths.exists_longest (List.ne_nil_of_mem hak)
  rcases List.mem_cons.1 (hp.mem_iff.1 he) with heq | her
  · cases heq
    refine ⟨k, r, hr, (hp.map Prod.snd).symm, fun e he => hmax e (hp.mem_iff.2 (by simp [he])), ?_⟩
    rw [Lengths.cost_perm hp, Lengths.cost_cons]
  · have hq := List.perm_cons_erase her
    set r' := r.erase (c, L)
    have hall := hp.trans (hq.cons (a', k))
    refine ⟨L, (c, k) :: r', ?_, ?_, fun e he => ?_, ?_⟩
    · exact (hq.map Prod.fst).symm.trans hr
    · refine List.Perm.trans ?_ (hall.map Prod.snd).symm
      exact List.Perm.swap _ _ _
    · rcases List.mem_cons.1 he with rfl | he
      · exact hmax (a', k) hak
      · exact hmax e (hall.mem_iff.2 (by simp [he]))
    · have hac : a' ≤ c := ha c (hr.mem_iff.1 (List.mem_map.2 ⟨(c, L), her, rfl⟩))
      have hkL : k ≤ L := hmax (a', k) hak
      obtain ⟨d, rfl⟩ := Nat.exists_eq_add_of_le hac
      obtain ⟨m, rfl⟩ := Nat.exists_eq_add_of_le hkL
      rw [Lengths.cost_perm hall]
      simp only [Lengths.cost_cons]
      nlinarith [Nat.zero_le (d * m)]

theorem Lengths.kraft_of_lengths {N : Nat} {l m : Lengths} (h : (l.map (·.2)).Perm (m.map (·.2))) :
    Lengths.kraft N l = Lengths.kraft N m := by
  have := (h.map fun k => 2 ^ (N - k)).sum_eq
  simpa [Lengths.kraft, List.map_map, Function.comp_def] using this

theorem Lengths.dvd_kraft {N M : Nat} {l : Lengths} (h : ∀ e ∈ l, e.2 ≤ M) : 2 ^ (N - M) ∣ Lengths.kraft N l := by
  refine List.dvd_sum fun x hx => ?_
  obtain ⟨e, he, rfl⟩ := List.mem_map.1 hx
  exact pow_dvd_pow 2 (by have := h e he; omega)

/-- The two least weights merged: an assignment for all of them gives one for the merged weights that costs their sum less. -/
theorem Lengths.merge {N : Nat} {l : Lengths} {a b : Nat} {ws : List Nat} (hl : (l.map (·.1)).Perm (a :: b :: ws))
    (hab : a ≤ b) (hb : ∀ w ∈ ws, b ≤ w) (hN : ∀ e ∈ l, e.2 ≤ N) (hk : Lengths.kraft N l ≤ 2 ^ N) :
    ∃ k r, (r.map (·.1)).Perm ws ∧ (∀ e ∈ (a + b, k) :: r, e.2 ≤ N) ∧ Lengths.kraft N ((a + b, k) :: r) ≤ 2 ^ N ∧
      (a + b) + Lengths.cost ((a + b, k) :: r) ≤ Lengths.cost l := by
  obtain ⟨L, l1, h1, h1s, h1m, h1c⟩ := Lengths.exchange hl fun w hw => by
    rcases List.mem_cons.1 hw with rfl | hw
    · exact hab
    · exact hab.trans (hb w hw)
  obtain ⟨M, r, h2, h2s, h2m, h2c⟩ := Lengths.exchange h1 hb
  have hs : (L :: M :: r.map (·.2)).Perm (l.map (·.2)) := (h2s.cons L).trans h1s
  have hsN : ∀ k ∈ L :: M :: r.map (·.2), k ≤ N := fun k hkm => by
    obtain ⟨e, he, rfl⟩ := List.mem_map.1 (hs.mem_iff.1 hkm)
    exact hN e he
  have hM : M ≤ N := hsN M (by simp)
  have hLM : M ≤ L := by
    obtain ⟨e, he, rfl⟩ := List.mem_map.1 ((h2s.mem_iff (a := M)).1 (by simp))
    exact h1m e he
  have hkr : Lengths.kraft N l = 2 ^ (N - L) + (2 ^ (N - M) + Lengths.kraft N r) := by
    rw [← Lengths.kraft_of_lengths (l := (0, L) :: (0, M) :: r) (by simpa using hs)]
    simp
  rw [hkr] at hk
  have hpos : 0 < 2 ^ (N - L) := Nat.pow_pos (by decide)
  have hstep : 2 ^ (N - M) + Lengths.kraft N r + 2 ^ (N - M) ≤ 2 ^ N := by
    obtain ⟨x, hx⟩ : 2 ^ (N - M) ∣ 2 ^ (N - M) + Lengths.kraft N r := Nat.dvd_add dvd_rfl (Lengths.dvd_kraft h2m)
    obtain ⟨y, hy⟩ : 2 ^ (N - M) ∣ 2 ^ N := pow_dvd_pow 2 (by omega)
    have hp : 0 < 2 ^ (N - M) := Nat.pow_pos (by decide)
    rw [hx, hy] at hk ⊢
    have hxy : x < y := by
      by_contra hc
      have := Nat.mul_le_mul_left (2 ^ (N - M)) (not_lt.1 hc)
      omega
    calc 2 ^ (N - M) * x + 2 ^ (N - M) = 2 ^ (N - M) * (x + 1) := by ring
      _ ≤ 2 ^ (N - M) * y := Nat.mul_le_mul_left _ hxy
  have hM1 : 1 ≤ M := by
    by_contra hc
    obtain rfl : M = 0 := by omega
    have : 0 < 2 ^ N := Nat.pow_pos (by decide)
    simp only [Nat.sub_zero] at hstep
    omega
  obtain ⟨K, rfl⟩ : ∃ K, M = K + 1 := ⟨M - 1, by omega⟩
  refine ⟨K, r, h2, fun e he => ?_, ?_, ?_⟩
  · rcases List.mem_cons.1 he with rfl | he
    · show K ≤ N; omega
    · exact hsN e.2 (by simp only [List.mem_cons]; exact .inr (.inr (List.mem_map_of_mem he)))
  · have : 2 ^ (N - K) = 2 ^ (N - (K + 1)) + 2 ^ (N - (K + 1)) := by
      rw [← Nat.two_mul, ← pow_succ']; congr 1; omega
    rw [Lengths.kraft_cons]
    simp only
    omega
  · rw [Lengths.cost_cons]
    have : a * (K + 1) ≤ a * L := Nat.mul_le_mul_left _ hLM
    simp only
    nlinarith

/-! ### The merge loop -/

/-- What the merges below a node cost: the weights of its internal nodes. -/
def Node.mergeCost : Node → Nat
  | .leaf _ _ => 0
  | .internal w left right => w + left.mergeCost + right.mergeCost

/-- The weights of a queue fall from head to tail (`42_priority_queue.md` R220). -/
def Queue.Descending (q : Queue) : Prop := q.Pairwise fun a b => b.weight ≤ a.weight

theorem push_descending (n : Node) {q : Queue} (h : Queue.Descending q) : Queue.Descending (push n q) := by
  induction q with
  | nil => exact List.pairwise_singleton _ _
  | cons m q ih =>
    obtain ⟨hm, hq⟩ := List.pairwise_cons.1 h
    rw [push]
    split
    · rename_i hlt
      refine List.pairwise_cons.2 ⟨fun k hk => ?_, h⟩
      rcases List.mem_cons.1 hk with rfl | hk
      · omega
      · have := hm k hk; omega
    · rename_i hge
      refine List.pairwise_cons.2 ⟨fun k hk => ?_, ih hq⟩
      rcases mem_push.1 hk with rfl | hk
      · omega
      · exact hm k hk

/-- One tree by the merge loop costs no more than any assignment of lengths to the weights of the queue. -/
theorem mergeLoop_cheapest {fuel : Nat} {q : Queue} {root : Node} (hr : mergeLoop fuel q = some [root])
    (hq : Queue.Descending q) {N : Nat} {l : Lengths} (hl : (l.map (·.1)).Perm (q.map Node.weight))
    (hN : ∀ e ∈ l, e.2 ≤ N) (hk : Lengths.kraft N l ≤ 2 ^ N) :
    root.mergeCost ≤ (q.map Node.mergeCost).sum + Lengths.cost l := by
  induction fuel generalizing q l with
  | zero =>
    cases hr; simp
  | succ fuel ih =>
    rw [mergeLoop] at hr
    split at hr
    · rename_i h1
      rcases List.eq_nil_or_concat q with rfl | ⟨q1, left, rfl⟩
      · simp [size] at h1
      rcases List.eq_nil_or_concat q1 with rfl | ⟨q2, right, rfl⟩
      · simp [size] at h1
      simp only [List.concat_eq_append] at *
      rw [mergeOnce_append] at hr
      simp only at hr
      obtain ⟨hd1, -, hlr⟩ := List.pairwise_append.1 hq
      obtain ⟨hd2, -, hrr⟩ := List.pairwise_append.1 hd1
      have hperm : (l.map (·.1)).Perm (left.weight :: right.weight :: q2.map Node.weight) := by
        refine hl.trans ?_
        simp only [List.map_append, List.map_cons, List.map_nil]
        refine (List.perm_append_singleton _ _).trans (List.Perm.cons _ (List.perm_append_singleton _ _))
      obtain ⟨k, r, h1r, h2r, h3r, h4r⟩ := Lengths.merge hperm (hlr right (by simp) left (by simp))
        (fun w hw => by
          obtain ⟨n, hn, rfl⟩ := List.mem_map.1 hw
          exact hrr n hn right (by simp)) hN hk
      have := ih hr (push_descending _ hd2) (l := (left.weight + right.weight, k) :: r)
        ((h1r.cons (left.weight + right.weight)).trans
          ((push_perm (.internal (left.weight + right.weight) left right) q2).map Node.weight).symm) h2r h3r
      rw [((push_perm _ _).map Node.mergeCost).sum_eq] at this
      simp only [List.map_append, List.map_cons, List.map_nil, List.sum_append, List.sum_cons, List.sum_nil,
        Node.mergeCost] at this ⊢
      omega
    · cases hr; simp

theorem pushLeaves_descending (freq : Table Word) (order : List Symbol) : Queue.Descending (pushLeaves freq order) := by
  induction order using List.reverseRecOn with
  | nil => exact List.Pairwise.nil
  | append_singleton l s ih =>
    simp only [pushLeaves, List.foldl_append, List.foldl_cons, List.foldl_nil]
    exact push_descending _ ih

/-- The tree of BUILD costs no more than any assignment of lengths to the counts. -/
theorem buildTree_cheapest {freq : Table Word} {order : List Symbol} {root : Node} (hb : buildTree freq order = some root)
    (len : Symbol → Nat) {N : Nat} (hN : ∀ x ∈ order, len x ≤ N) (hk : (order.map fun x => 2 ^ (N - len x)).sum ≤ 2 ^ N) :
    root.mergeCost ≤ (order.map fun x => (Table.get freq x).toNat * len x).sum := by
  have hloop : ∃ q, mergeLoop (size (pushLeaves freq order)) (pushLeaves freq order) = some (q ++ [root]) := by
    simp only [buildTree, mergeAll] at hb
    split at hb
    · cases hb
    · rename_i q' hq'
      rcases List.eq_nil_or_concat q' with rfl | ⟨q, n, rfl⟩
      · simp at hb
      · rw [List.concat_eq_append] at hb hq'
        simp only [pop_append, Option.map_some, Option.some.injEq] at hb
        exact ⟨q, by rw [hq', hb]⟩
  obtain ⟨q, hq⟩ := hloop
  have hp := pushLeaves_spec freq order
  have hne : pushLeaves freq order ≠ [] := by
    intro he
    rw [he] at hq
    simp [mergeLoop, size] at hq
  have hw : ∀ n ∈ pushLeaves freq order, n.Weighs freq := by
    intro n hn
    obtain ⟨s, -, rfl⟩ := List.mem_map.1 (hp.mem_iff.1 hn)
    simp [Node.Weighs, leafOf, Node.weight, Node.leaves, countSum]
  obtain ⟨root', hr', -, -⟩ := mergeLoop_spec freq (fuel := (pushLeaves freq order).length) (Nat.le_succ _) hne hw
  have hq' : mergeLoop (size (pushLeaves freq order)) (pushLeaves freq order) = some [root'] := hr'
  have hroot : root' = root := by
    rw [hq'] at hq
    have h := Option.some.inj hq
    cases q with
    | nil => simpa using h
    | cons a q => simp at h
  subst hroot
  have := mergeLoop_cheapest hq' (pushLeaves_descending freq order) (N := N)
    (l := order.map fun x => ((Table.get freq x).toNat, len x))
    (by
      refine List.Perm.trans ?_ (hp.map Node.weight).symm
      simp [List.map_map, Function.comp_def, leafOf, Node.weight])
    (fun e he => by obtain ⟨x, hx, rfl⟩ := List.mem_map.1 he; exact hN x hx)
    (by simpa [Lengths.kraft, List.map_map, Function.comp_def] using hk)
  rw [(hp.map Node.mergeCost).sum_eq] at this
  simpa [Lengths.cost, List.map_map, Function.comp_def, leafOf, Node.mergeCost] using this

/-! ### What a merge keeps, and the cost of a tree in its paths -/

/-- A property of nodes that a merge of two keeps holds of whatever the merge loop leaves. -/
theorem mergeLoop_keeps {P : Node → Prop}
    (hP : ∀ l r : Node, P l → P r → P (.internal (l.weight + r.weight) l r)) {fuel : Nat} {q q' : Queue}
    (h : mergeLoop fuel q = some q') (hq : ∀ n ∈ q, P n) : ∀ n ∈ q', P n := by
  induction fuel generalizing q with
  | zero => cases h; exact hq
  | succ fuel ih =>
    rw [mergeLoop] at h
    split at h
    · split at h
      · cases h
      · rename_i q1 hm
        refine ih h ?_
        simp only [mergeOnce] at hm
        split at hm
        · cases hm
        · rename_i left q2 hl
          split at hm
          · cases hm
          · rename_i right q3 hr
            cases hm
            rw [pop_eq_some] at hl hr
            subst hl
            subst hr
            intro n hn
            rcases mem_push.1 hn with rfl | hn
            · exact hP _ _ (hq left (by simp)) (hq right (by simp))
            · exact hq n (by simp [hn])
    · cases h; exact hq

/-- A property of the leaves that a merge of two nodes keeps holds of the tree of BUILD. -/
theorem buildTree_keeps {P : Node → Prop} {freq : Table Word} (hleaf : ∀ x, P (leafOf freq x))
    (hP : ∀ l r : Node, P l → P r → P (.internal (l.weight + r.weight) l r)) {order : List Symbol} {root : Node}
    (hb : buildTree freq order = some root) : P root := by
  simp only [buildTree, mergeAll] at hb
  split at hb
  · cases hb
  · rename_i q hq
    refine mergeLoop_keeps hP hq (fun n hn => ?_) root ?_
    · obtain ⟨s, -, rfl⟩ := List.mem_map.1 ((pushLeaves_spec freq order).mem_iff.1 hn)
      exact hleaf s
    · rw [Option.map_eq_some_iff] at hb
      obtain ⟨⟨n, q'⟩, hp, rfl⟩ := hb
      rw [pop_eq_some.1 hp]
      simp

/-- The counts of the leaves, each times the length of its path. -/
def Node.pathCost (freq : Table Word) (n : Node) : Nat :=
  (n.paths.map fun e => (Table.get freq e.1).toNat * e.2.length).sum

theorem Node.pathCost_internal (freq : Table Word) (w : Nat) (l r : Node) :
    (Node.internal w l r).pathCost freq
      = l.pathCost freq + r.pathCost freq + (countSum freq l.leaves + countSum freq r.leaves) := by
  have h : ∀ (n : Node) (b : Bool),
      ((n.paths.map fun e => (e.1, b :: e.2)).map fun e => (Table.get freq e.1).toNat * e.2.length).sum
        = n.pathCost freq + countSum freq n.leaves := by
    intro n b
    rw [← Node.map_fst_paths, Node.pathCost, countSum, List.map_map, List.map_map]
    induction n.paths with
    | nil => rfl
    | cons e es ih => simp only [List.map_cons, List.sum_cons, Function.comp_def, List.length_cons] at ih ⊢; rw [ih]; ring
  rw [Node.pathCost, Node.paths, List.map_append, List.sum_append, h, h]
  omega

/-- The paths of the tree of BUILD cost what its merges cost. -/
theorem buildTree_pathCost {freq : Table Word} {order : List Symbol} {root : Node}
    (hb : buildTree freq order = some root) : root.pathCost freq = root.mergeCost := by
  have h := buildTree_keeps (P := fun n => n.Weighs freq ∧ n.pathCost freq = n.mergeCost)
    (fun x => ⟨by simp [Node.Weighs, leafOf, Node.weight, Node.leaves, countSum],
      by simp [leafOf, Node.pathCost, Node.paths, Node.mergeCost]⟩)
    (fun l r hl hr => ⟨by
        have h1 := hl.1
        have h2 := hr.1
        unfold Node.Weighs at *
        rw [Node.leaves, countSum_append, ← h1, ← h2]; rfl, by
        have h1 := hl.1
        have h2 := hr.1
        unfold Node.Weighs at h1 h2
        rw [Node.pathCost_internal, hl.2, hr.2, Node.mergeCost, ← h1, ← h2]
        omega⟩) hb
  exact h.2

/-! ### Kraft's inequality -/

/-- Bit strings none of which is the beginning of another obey Kraft's inequality. -/
theorem kraft_of_prefixFree {N : Nat} {l : List BitString} (hN : ∀ b ∈ l, b.length ≤ N)
    (hp : l.Pairwise fun a b => ¬ a <+: b ∧ ¬ b <+: a) : (l.map fun b => 2 ^ (N - b.length)).sum ≤ 2 ^ N := by
  induction N generalizing l with
  | zero =>
    match l, hN, hp with
    | [], _, _ => simp
    | [a], hN, _ => simp
    | a :: b :: l, hN, hp =>
      have ha : a = [] := List.length_eq_zero_iff.1 (Nat.le_zero.1 (hN a (by simp)))
      exact absurd (by simp [ha]) ((List.pairwise_cons.1 hp).1 b (by simp)).1
  | succ M ih =>
    by_cases hnil : [] ∈ l
    · obtain ⟨r, hr⟩ : ∃ r, l.Perm ([] :: r) := ⟨_, List.perm_cons_erase hnil⟩
      have hp' := (hr.pairwise_iff (fun h => ⟨h.2, h.1⟩)).1 hp
      have : r = [] := by
        rw [List.eq_nil_iff_forall_not_mem]
        intro b hb
        exact ((List.pairwise_cons.1 hp').1 b hb).1 (by simp)
      subst this
      rw [(hr.map _).sum_eq]
      simp
    · have half : ∀ b : Bool, ((l.filterMap fun s => if s.head? = some b then some s.tail else none).map
          fun s => 2 ^ (M - s.length)).sum ≤ 2 ^ M := by
        intro b
        refine ih (fun s hs => ?_) ?_
        · obtain ⟨t, ht, he⟩ := List.mem_filterMap.1 hs
          have := hN t ht
          split at he
          · cases he; simp; omega
          · cases he
        · refine List.pairwise_filterMap.2 (hp.imp fun {x y} hxy u hu v hv => ?_)
          have hc : ∀ s w : BitString, (if s.head? = some b then some s.tail else none) = some w → s = b :: w := by
            intro s w h
            cases s with
            | nil => simp at h
            | cons c s => split at h <;> simp_all
          rw [hc x u hu, hc y v hv] at hxy
          simpa [List.cons_prefix_cons] using hxy
      have hsplit : ∀ l : List BitString, [] ∉ l → (l.map fun b => 2 ^ (M + 1 - b.length)).sum
          = ((l.filterMap fun s => if s.head? = some false then some s.tail else none).map fun s => 2 ^ (M - s.length)).sum
          + ((l.filterMap fun s => if s.head? = some true then some s.tail else none).map fun s => 2 ^ (M - s.length)).sum := by
        intro l hl
        induction l with
        | nil => simp
        | cons s l ihl =>
          have h0 := ihl fun h => hl (by simp [h])
          cases s with
          | nil => simp at hl
          | cons b s =>
            cases b <;> simp only [List.map_cons, List.sum_cons, List.length_cons, Nat.add_sub_add_right, h0,
              List.filterMap_cons, List.head?_cons, List.tail_cons] <;> simp <;> omega
      rw [hsplit l hnil]
      have h1 := half false
      have h2 := half true
      rw [pow_succ]
      omega

/-! ### The cost of an encoding -/

/-- The bits the table of a tree gives the counted input: the cost of the merges, or one bit a symbol for a leaf root. -/
theorem encoded_length {s : State} {root : Node} (hb : buildTree (tally s.input).1 (tally s.input).2 = some root)
    (hl : root.leaves.Perm (tally s.input).2) (hn : root.leaves.Nodup) (hc : root.leaves.length ≤ 256)
    (hw : root.weight = s.inLen.toNat) :
    (stringify (writeTable (genCodes root)) s.input).length
      = match root with
        | .leaf _ _ => s.inLen.toNat
        | .internal _ _ _ => root.mergeCost := by
  have hin := input_length_lt s
  rw [length_stringify, sum_by_symbol _ hn fun x hx => hl.mem_iff.2 (((tally_order hin).1 x).2 hx)]
  have hcode := (writeTable_spec hn hc).code
  have h1 : (root.leaves.map fun x => s.input.count x * (codeOf (writeTable (genCodes root)) x).length).sum
      = ((genCodes root).map fun e => (Table.get (tally s.input).1 e.1).toNat * e.2.length).sum := by
    rw [← map_fst_genCodes, List.map_map]
    congr 1
    refine List.map_congr_left fun e he => ?_
    simp only [Function.comp_def, hcode e he, tally_freq_toNat hin]
  rw [h1, genCodes_eq]
  cases root with
  | leaf x w =>
    have hx : w = (Table.get (tally s.input).1 x).toNat :=
      buildTree_keeps (P := fun n => match n with
        | .leaf y v => v = (Table.get (tally s.input).1 y).toNat
        | .internal _ _ _ => True) (fun y => rfl) (fun l r _ _ => trivial) hb
    simp only [List.map_cons, List.map_nil, List.sum_cons, List.sum_nil, List.length_cons, List.length_nil]
    rw [← hw, Node.weight, hx]
    omega
  | internal w l r => exact buildTree_pathCost hb

end Sys2Proof.Machine
end

