-- ==== Sys2Proof/Laws/PerInstr.lean ====
section
/-! SUPPORT. Statements for all commands, made command by command. -/

/-- The command is well formed, its word is well formed, and the word has the command's opcode and a zero RSVD field
(`30_encoding.md` R150, R152). -/
def Sys2Proof.Laws.WellFormedWord.Statement (i : Sys2Proof.Instr) : Prop :=
  i.wf = true ∧ (Sys2Proof.CommandWord.ofWord (Sys2Proof.encode i)).wf = true ∧
    Sys2Proof.CommandWord.ofWord (Sys2Proof.encode i) = ⟨Sys2Proof.opOf i, 0⟩

theorem Sys2Proof.Laws.WellFormedWord.nop : Sys2Proof.Laws.WellFormedWord.Statement .nop := by
  unfold Statement; decide

theorem Sys2Proof.Laws.WellFormedWord.count : Sys2Proof.Laws.WellFormedWord.Statement .count := by
  unfold Statement; decide

theorem Sys2Proof.Laws.WellFormedWord.build : Sys2Proof.Laws.WellFormedWord.Statement .build := by
  unfold Statement; decide

theorem Sys2Proof.Laws.WellFormedWord.pack : Sys2Proof.Laws.WellFormedWord.Statement .pack := by
  unfold Statement; decide

theorem Sys2Proof.Laws.WellFormedWord.encode : Sys2Proof.Laws.WellFormedWord.Statement .encode := by
  unfold Statement; decide

theorem Sys2Proof.Laws.WellFormedWord.decode : Sys2Proof.Laws.WellFormedWord.Statement .decode := by
  unfold Statement; decide

theorem Sys2Proof.Laws.WellFormedWord.ctclr : Sys2Proof.Laws.WellFormedWord.Statement .ctclr := by
  unfold Statement; decide
end

