-- ==== Sys2Proof/Tests/Slice0.lean ====
section
/-! SUPPORT. Tests: what well-formedness refuses, decoding of written-out words, one or two steps of each command against the
vectors of `95_test_vectors.md`, and for every statement with hypotheses a state that meets them. -/

namespace Sys2Proof.Machine

/-! ### Well-formedness refuses -/

theorem test_config_depth_zero : ¬ Config.wf ⟨0, 4, 8⟩ ∧ ¬ Config.wf ⟨4, 0, 8⟩ ∧ ¬ Config.wf ⟨4, 4, 0⟩ := by decide

theorem test_config_depth_over :
    ¬ Config.wf ⟨2 ^ 24 + 1, 4, 8⟩ ∧ ¬ Config.wf ⟨4, 2 ^ 24 + 1, 8⟩ ∧ ¬ Config.wf ⟨4, 4, 2 ^ 27 + 1⟩ := by decide

theorem test_config_limits : Config.wf ⟨2 ^ 24, 2 ^ 24, 2 ^ 27⟩ ∧ Config.wf ⟨1, 1, 1⟩ := by decide

theorem test_command_word_reserved_bits : CommandWord.wf ⟨1, 1⟩ = false := by decide

theorem test_command_word_reserved_op : CommandWord.wf ⟨7, 0⟩ = false ∧ CommandWord.wf ⟨6, 0⟩ = true := by decide

theorem test_line_windows : Line.wf (.wrb .outData [1]) = true ∧ Line.wf (.wrb .outLen [1]) = false ∧ Line.wf (.wrb .inData []) = false ∧
    Line.wf (.rdb .inLen 3) = false ∧ Line.wf (.rdb .outData 3) = true := by decide

/-! ### Words written out from `30_encoding.md` R150 and R152: `0000 0000 0000 0000 0000 0000 0000 oooo` -/

theorem test_decode_nop : Sys2Proof.decode 0b00000000000000000000000000000000#32 = .ok .nop := by decide
theorem test_decode_count : Sys2Proof.decode 0b00000000000000000000000000000001#32 = .ok .count := by decide
theorem test_decode_build : Sys2Proof.decode 0b00000000000000000000000000000010#32 = .ok .build := by decide
theorem test_decode_pack : Sys2Proof.decode 0b00000000000000000000000000000011#32 = .ok .pack := by decide
theorem test_decode_encode : Sys2Proof.decode 0b00000000000000000000000000000100#32 = .ok .encode := by decide
theorem test_decode_decode : Sys2Proof.decode 0b00000000000000000000000000000101#32 = .ok .decode := by decide
theorem test_decode_ctclr : Sys2Proof.decode 0b00000000000000000000000000000110#32 = .ok .ctclr := by decide

/-- Vectors L2-C2 to L2-C4. -/
theorem test_decode_illegal : Sys2Proof.decode 0x7#32 = .error .reservedOp ∧ Sys2Proof.decode 0xF#32 = .error .reservedOp ∧
    Sys2Proof.decode 0x10#32 = .error .reservedBits ∧ Sys2Proof.decode 0x80000001#32 = .error .reservedBits := by decide

theorem test_decode_table_word : Sys2Proof.decodeTableWord 32 5 = some .decode ∧ Sys2Proof.decodeTableWord 32 8 = none := by
  decide

/-! ### The states of the tests -/

/-- A small machine with an input loaded. -/
def loaded (input : List Byte) : State :=
  { State.reset with
    cfg := ⟨8, 1, 8⟩
    inMem := Memory.writeFrom [] 0 input
    inLen := BitVec.ofNat 32 input.length }

/-- A code table written by the host. -/
def tableOf (entries : List (Symbol × BitVec 8 × Code)) : Table CtEntry :=
  entries.foldl (fun ct e => Table.set ct e.1 ⟨e.2.1, e.2.2⟩) (Vector.replicate 256 ⟨0, 0⟩)

/-- A packed stream loaded beside a table. -/
def packedStream (entries : List (Symbol × BitVec 8 × Code)) (bitLen : Word) (bytes : List Byte) : State :=
  { State.reset with
    cfg := ⟨8, 1, 2⟩
    ct := tableOf entries
    pkMem := Memory.writeFrom [] 0 bytes
    bitLen := bitLen }

/-- Whether an outcome is a next state with a property. -/
def after (o : Host.Outcome State Fault Refusal) (p : State → Bool) : Bool :=
  match o with
  | .next t => p t
  | .fault _ => false
  | .refused _ => false

theorem exists_of_after {o : Host.Outcome State Fault Refusal} {p : State → Bool} (h : after o p = true) :
    ∃ t, o = .next t ∧ p t = true := by
  cases o with
  | next t => exact ⟨t, rfl, h⟩
  | fault f => cases h
  | refused r => cases h

/-- 'a' and 'b'. -/
def symA : Symbol := 0x61
def symB : Symbol := 0x62

/-- The report of a command: ERR_CODE, ERR_POS. -/
def reports (c : ErrorCode) (pos : Word) (t : State) : Bool := t.errCode == c && t.errPos == pos && t.done

/-! ### One step of each command -/

/-- Vector L2-C1. -/
theorem test_nop : after (exec .nop State.reset) (fun t => statusWord t == 0x00000002) = true := by decide

/-- Vector L2-F2: "xyzzy". -/
theorem test_count : after (exec .count (loaded [0x78, 0x79, 0x7A, 0x7A, 0x79])) (fun t =>
    t.order == [0x78, 0x79, 0x7A] && Table.get t.freq 0x7A == 2 && Table.get t.freq 0x78 == 1 && t.ndist == 3) = true := by
  decide

/-- Vector L2-F6: LENGTH. -/
theorem test_count_length : after (exec .count { State.reset with cfg := ⟨4, 1, 1⟩, inLen := 5 })
    (fun t => statusWord t == 0x00000606 && t.errPos == 0) = true := by decide

/-- Vector L2-B3: "abc" gives a 0, c 10, b 11. -/
theorem test_build : after (exec .build (counted (loaded [0x61, 0x62, 0x63]))) (fun t =>
    Table.get t.ct 0x61 == ⟨1, 0⟩ && Table.get t.ct 0x63 == ⟨2, 2⟩ && Table.get t.ct 0x62 == ⟨2, 3⟩ && t.rootWeight == 3
      && t.maxLen == 2) = true := by decide

/-- Vector L2-B16: BUILD of an empty table. -/
theorem test_build_empty : after (exec .build State.reset) (fun t => statusWord t == 0x00000106) = true := by decide

/-- Vector L2-P27: the table need not be prefix-free. -/
theorem test_pack : after (exec .pack { loaded [0x61, 0x62] with ct := tableOf [(0x61, 1, 1), (0x62, 1, 1)] })
    (fun t => t.bitLen == 2 && t.pkMem == [(0, 0x03)]) = true := by decide

/-- Vector L2-P22: UNKNOWN_SYMBOL(2). -/
theorem test_pack_unknown : after (exec .pack { loaded [0x61, 0x61, 0x62] with ct := tableOf [(0x61, 1, 0)] })
    (fun t => statusWord t == 0x00000306 && t.errPos == 2 && t.bitLen == 0) = true := by decide

/-- Vector L2-P5: "abb" packs to 011, right-aligned. -/
theorem test_encode : after (exec .encode (loaded [0x61, 0x62, 0x62])) (fun t =>
    Table.get t.ct 0x61 == ⟨1, 0⟩ && Table.get t.ct 0x62 == ⟨1, 1⟩ && t.bitLen == 3 && t.pkMem == [(0, 0x03)]) = true := by
  decide

/-- Vector L1-4: ENCODE of nothing. -/
theorem test_encode_empty : after (exec .encode State.reset) (fun t => statusWord t == 0x00000106) = true := by decide

/-- Vector L2-D4: the bits 0010 with the table a = 0. -/
theorem test_decode_undecodable : after (exec .decode { packedStream [(0x61, 1, 0)] 4 [0x02] with cfg := ⟨8, 1, 8⟩ })
    (fun t => statusWord t == 0x00000406 && t.errPos == 2 && t.outLen == 0) = true := by decide

/-- The first two symbols of vector L2-D6: the bits 1110 are r, then a. -/
theorem test_decode_stream : after (exec .decode (packedStream [(0x61, 1, 0), (0x62, 2, 2), (0x72, 3, 7)] 4 [0x0E]))
    (fun t => t.outLen == 2 && t.outMem == [(0, 0x72), (1, 0x61)]) = true := by decide

/-- CTCLR keeps CODE and MAXLEN. -/
theorem test_ctclr : after (exec .ctclr { State.reset with ct := tableOf [(0x63, 2, 2)], maxLen := 2 }) (fun t =>
    Table.get t.ct 0x63 == ⟨0, 2⟩ && t.maxLen == 2 && statusWord t == 0x00000002) = true := by decide

/-! ### Host accesses -/

/-- Vector L2-M6. -/
theorem test_window_edge :
    (hostSteps [.write 0x040 3, .write 0x044 0x41, .write 0x044 0x42] { State.reset with cfg := ⟨4, 4, 4⟩ }).inMem = [(3, 0x41)] ∧
    statusWord (hostSteps [.write 0x040 3, .write 0x044 0x41, .write 0x044 0x42] { State.reset with cfg := ⟨4, 4, 4⟩ })
      = 0x00000008 := by decide

/-- Vector L2-M10. -/
theorem test_busy_guard :
    (hostSteps [.write 0x00C 1, .read 0x028, .write 0x018 9, .read 0x010] State.reset).reads = [0x00000009, 0] ∧
    (hostSteps [.write 0x00C 1, .read 0x028, .write 0x018 9, .read 0x010] State.reset).inLen = 0 := by decide

/-- Vectors L2-M2, L2-M4 and L2-M5. -/
theorem test_register_reads :
    (hostSteps [.write 0x060 0x123, .read 0x060, .read 0x013, .write 0x01C 17, .read 0x020] State.reset).reads
      = [0x00000003, 0, 0x00000023] := by decide

/-- Vectors L2-Q1 and L2-Q4. -/
theorem test_queue :
    push (.leaf 4 3) [.leaf 0 5, .leaf 1 3, .leaf 2 3, .leaf 3 1]
      = [.leaf 0 5, .leaf 1 3, .leaf 2 3, .leaf 4 3, .leaf 3 1] ∧
    listPops [] [.push (.leaf 0 5), .push (.leaf 1 3), .push (.leaf 2 3), .push (.leaf 3 1), .push (.leaf 4 3), .pop, .pop, .pop]
      = [some (.leaf 3 1), some (.leaf 4 3), some (.leaf 2 3)] := by decide

/-! ### The hypotheses of the statements are met -/

theorem test_hyp_StepRunsTheDecodedCommand :
    (∃ s : State, s.phase = .run ∧ s.op = .command .pack ∧ s.schedule = []) ∧
    (∃ s : State, s.phase = .run ∧ s.op = .command .ctclr ∧ s.schedule = .engine :: [.engine]) ∧
    Sys2Proof.decode 0x00000006#32 = .ok .ctclr :=
  ⟨⟨{ State.reset with phase := .run, op := .command .pack }, rfl, rfl, rfl⟩,
   ⟨{ State.reset with phase := .run, op := .command .ctclr, schedule := [.engine, .engine] }, rfl, rfl, rfl⟩, by decide⟩

theorem test_hyp_IllegalWordsCompleteWithIllegalCmd :
    (((0x10#32).toNat / 16 ≠ 0 ∨ 7 ≤ (0x10#32).toNat % 16) ∧ ((7#32).toNat / 16 ≠ 0 ∨ 7 ≤ (7#32).toNat % 16)) ∧
    (∃ s : State, s.phase = .idle ∧ s.schedule = .host (.write 0x00C 0x10) :: .engine :: []) ∧
    ∃ s : State, s.phase = .run ∧ s.schedule = .host (.write 0x00C 7) :: [] :=
  ⟨by decide, ⟨{ State.reset with schedule := [.host (.write 0x00C 0x10), .engine] }, rfl, rfl⟩,
   ⟨{ State.reset with phase := .run, schedule := [.host (.write 0x00C 7)] }, rfl, rfl⟩⟩

theorem test_hyp_TurnsOfTheSchedule :
    (∃ s : State, s.schedule = .host (.read 0x010) :: []) ∧
    (∃ (s : State) (d : Draw), s.schedule = .reset d :: []) ∧
    (∃ s : State, s.phase = .idle ∧ s.schedule = .engine :: []) ∧
    ∃ s : State, s.phase = .idle ∧ s.schedule = [] :=
  ⟨⟨{ State.reset with schedule := [.host (.read 0x010)] }, rfl⟩,
   ⟨{ State.reset with schedule := [.reset ⟨.illegal, Vector.replicate 256 1, [], [], []⟩] }, _, rfl⟩,
   ⟨{ State.reset with schedule := [.engine] }, rfl, rfl⟩, ⟨State.reset, rfl, rfl⟩⟩

theorem test_hyp_CommandAcceptance :
    ((0x00C#12 &&& 0xFFC = 0x00C) ∧ (0x00F#12 &&& 0xFFC = 0x00C)) ∧
    (∃ s : State, s.schedule = .host (.write 0x00F 1) :: [] ∧ s.phase = .idle) ∧
    ∃ s : State, s.schedule = .host (.write 0x00C 1) :: [] ∧ s.phase = .run :=
  ⟨by decide, ⟨{ State.reset with schedule := [.host (.write 0x00F 1)] }, rfl, rfl⟩,
   ⟨{ State.reset with phase := .run, schedule := [.host (.write 0x00C 1)] }, rfl, rfl⟩⟩

/-- The limit IN_LEN = IN_DEPTH, and one more. -/
theorem test_hyp_Count :
    (loaded [1, 2, 3, 4, 5, 6, 7, 8]).inLen.toNat = (loaded [1, 2, 3, 4, 5, 6, 7, 8]).cfg.inDepth ∧
    (loaded [1, 2, 3, 4, 5, 6, 7, 8, 9]).cfg.inDepth < (loaded [1, 2, 3, 4, 5, 6, 7, 8, 9]).inLen.toNat := by decide

theorem test_hyp_QueueStaysDescending :
    ([Node.leaf 0 5, .leaf 1 3, .leaf 2 3, .leaf 3 1].Pairwise fun a b => b.weight ≤ a.weight) ∧
    pop [Node.leaf 0 5, .leaf 1 3, .leaf 2 3, .leaf 3 1] = some (.leaf 3 1, [.leaf 0 5, .leaf 1 3, .leaf 2 3]) := by decide

/-- One symbol, and more than one. -/
theorem test_hyp_BuildWritesThePathsOfTheMergedTree :
    (∃ s : State, s.ndist ≠ 0 ∧ s.ndist.toNat = s.order.length ∧ s.order.Nodup ∧ s.order.length = 1) ∧
    ∃ s : State, s.ndist ≠ 0 ∧ s.ndist.toNat = s.order.length ∧ s.order.Nodup ∧ s.order.length ≠ 1 :=
  ⟨⟨counted (loaded [0x61]), by decide, by decide, by decide, by decide⟩,
   ⟨counted (loaded [0x61, 0x62, 0x63]), by decide, by decide, by decide, by decide⟩⟩

theorem test_hyp_GeneratedTableIsCompleteAndPrefixFree :
    (∃ t, (counted (loaded [0x61, 0x62])).ndist.toNat = (counted (loaded [0x61, 0x62])).order.length ∧
      (counted (loaded [0x61, 0x62])).order.Nodup ∧ exec .build (counted (loaded [0x61, 0x62])) = .next t ∧
      (t.errCode == .none) = true) ∧
    ∃ t, exec .encode (loaded [0x61]) = .next t ∧ (t.errCode == .none) = true := by
  obtain ⟨t, ht, he⟩ := exists_of_after
    (show after (exec .build (counted (loaded [0x61, 0x62]))) (fun t => t.errCode == .none) = true by decide)
  exact ⟨⟨t, by decide, by decide, ht, he⟩,
    exists_of_after (show after (exec .encode (loaded [0x61])) (fun t => t.errCode == .none) = true by decide)⟩

theorem test_hyp_RootWeightIsTheInputLength :
    1 ≤ (loaded [0x61]).inLen.toNat ∧ (loaded [0x61]).inLen.toNat ≤ (loaded [0x61]).cfg.inDepth := by decide

/-- All 256 symbols. -/
theorem test_hyp_TreeFitsTheNodeStoreAndTheLenField : symbols ≠ [] ∧ symbols.Nodup ∧ symbols.length = 256 :=
  ⟨List.ne_nil_of_mem (mem_symbols 0), symbols_nodup, length_symbols⟩

theorem test_hyp_BuildRefusesAnEmptyTable : State.reset.ndist = 0 := rfl

theorem test_hyp_BuildDependsOnTheFrequencyTableOnly :
    ∃ a b, exec .build (counted (loaded [0x61, 0x62])) = .next a ∧
      exec .build { counted (loaded [0x61, 0x62]) with maxLen := 9, bitLen := 3 } = .next b ∧ (a.errCode == .none) = true := by
  obtain ⟨a, ha, he⟩ := exists_of_after
    (show after (exec .build (counted (loaded [0x61, 0x62]))) (fun t => t.errCode == .none) = true by decide)
  obtain ⟨b, hb, -⟩ := exists_of_after (show after (exec .build { counted (loaded [0x61, 0x62]) with maxLen := 9, bitLen := 3 })
    (fun t => t.errCode == .none) = true by decide)
  exact ⟨a, b, ha, hb, he⟩

/-- The limit: eight bits in one byte (vector L2-P25). -/
def packLimit : State := { loaded [0x61, 0x61, 0x61, 0x61, 0x61, 0x61, 0x61, 0x61] with ct := tableOf [(0x61, 1, 0)] }

theorem test_hyp_PackWritesTheGroupsOfTheBitString :
    packLimit.cfg.wf ∧ Memory.wf packLimit.pkMem ∧ packLimit.inLen.toNat ≤ packLimit.cfg.inDepth ∧
    (∀ x ∈ packLimit.input, 1 ≤ (Table.get packLimit.ct x).len.toNat) ∧
    (packLimit.input.flatMap (codeOf packLimit.ct)).length = 8 * packLimit.cfg.pkDepth := by decide

/-- Vectors L2-P26, L2-P22 and one past the limit of one byte. -/
theorem test_hyp_PackErrorsInOrder :
    (∃ s : State, s.cfg.inDepth < s.inLen.toNat) ∧
    (∃ s : State, s.inLen.toNat ≤ s.cfg.inDepth ∧ 2 < s.inLen.toNat ∧
      (Table.get s.ct (Memory.read s.inMem 2)).len = 0 ∧ ∀ j < 2, (Table.get s.ct (Memory.read s.inMem j)).len ≠ 0) ∧
    ∃ s : State, s.inLen.toNat ≤ s.cfg.inDepth ∧
      (∀ j < s.inLen.toNat, (Table.get s.ct (Memory.read s.inMem j)).len ≠ 0) ∧ 1 < s.inLen.toNat ∧
      8 * s.cfg.pkDepth < ((s.input.take 2).flatMap (codeOf s.ct)).length ∧
      ∀ j < 1, ((s.input.take (j + 1)).flatMap (codeOf s.ct)).length ≤ 8 * s.cfg.pkDepth :=
  ⟨⟨{ State.reset with cfg := ⟨4, 1, 1⟩, inLen := 5 }, by decide⟩,
   ⟨{ loaded [0x61, 0x61, 0x62] with ct := tableOf [(0x61, 1, 0)] }, by decide⟩,
   ⟨{ loaded [0x61, 0x62] with ct := tableOf [(0x61, 8, 0), (0x62, 1, 1)] }, by decide⟩⟩

theorem test_hyp_UnbytifyInvertsBytify : Memory.wf [(3, 0x41#8)] := by decide

theorem test_hyp_OneByteStandsForSevenBitStrings : (2 ≤ 2 ∧ 2 ≤ 8) ∧ 2 ≤ 8 ∧ 8 ≤ 8 := by decide

/-- A table with the codes 0, 10 and 111. -/
def threeCodes : List (Symbol × BitVec 8 × Code) := [(0x61, 1, 0), (0x62, 2, 2), (0x72, 3, 7)]

theorem prefixFree_threeCodes : PrefixFree (tableOf threeCodes) :=
  (firstOffender_eq_none _).1 (by decide)

/-- The output just fits. -/
theorem test_hyp_DecodeWritesTheSymbolsOfTheBitString :
    Memory.wf (packedStream threeCodes 4 [0x0E]).outMem ∧
    (packedStream threeCodes 4 [0x0E]).bitLen.toNat ≤ 8 * (packedStream threeCodes 4 [0x0E]).cfg.pkDepth ∧
    PrefixFree (packedStream threeCodes 4 [0x0E]).ct ∧
    (∀ x ∈ [0x72#8, 0x61#8], isPresent (packedStream threeCodes 4 [0x0E]).ct x = true) ∧
    [0x72#8, 0x61#8].length = (packedStream threeCodes 4 [0x0E]).cfg.outDepth ∧
    unbytify (packedStream threeCodes 4 [0x0E]).pkMem (packedStream threeCodes 4 [0x0E]).bitLen.toNat
      = .ok ([0x72#8, 0x61#8].flatMap (codeOf (packedStream threeCodes 4 [0x0E]).ct)) :=
  ⟨by decide, by decide, prefixFree_threeCodes, by decide, by decide, by decide⟩

/-- Vectors L2-D15, L2-D12 and L2-D9. -/
theorem test_hyp_DecodeChecksLengthTableAndPadding :
    (∃ s : State, 8 * s.cfg.pkDepth < s.bitLen.toNat) ∧
    (∃ s : State, s.bitLen.toNat ≤ 8 * s.cfg.pkDepth ∧ isPresent s.ct 0x62 = true ∧ isPresent s.ct 0x7A = true ∧
      codeOf s.ct 0x62 <+: codeOf s.ct 0x7A ∧ ∀ a : Symbol, a.toNat < 0x62 → isPresent s.ct a = false) ∧
    ∃ s : State, s.bitLen.toNat ≤ 8 * s.cfg.pkDepth ∧ PrefixFree s.ct ∧ s.bitLen.toNat % 8 ≠ 0 ∧
      2 ^ (s.bitLen.toNat % 8) ≤ (Memory.read s.pkMem (s.bitLen.toNat / 8)).toNat :=
  ⟨⟨packedStream [] 9 [], by decide⟩,
   ⟨packedStream [(0x62, 1, 0), (0x7A, 2, 0)] 1 [], by decide, by decide, by decide, by decide, by decide⟩,
   ⟨packedStream threeCodes 3 [0x08], by decide, prefixFree_threeCodes, by decide, by decide⟩⟩

/-- The bits 0 then 11, where no code ends, and the bits 0 0 0, where the output is full at the third. -/
theorem test_hyp_DecodeStopsAtTheCursor :
    (∃ s : State, s.bitLen.toNat ≤ 8 * s.cfg.pkDepth ∧ PrefixFree s.ct ∧ isPresent s.ct symA = true ∧ 1 ≤ s.cfg.outDepth ∧
      unbytify s.pkMem s.bitLen.toNat = .ok ([symA].flatMap (codeOf s.ct) ++ [true, true]) ∧
      ∀ x ∈ presentSymbols s.ct, ¬ codeOf s.ct x <+: [true, true]) ∧
    ∃ s : State, s.bitLen.toNat ≤ 8 * s.cfg.pkDepth ∧ PrefixFree s.ct ∧ isPresent s.ct symA = true ∧
      unbytify s.pkMem s.bitLen.toNat = .ok ([symA, symA].flatMap (codeOf s.ct) ++ [false]) ∧
      codeOf s.ct symA <+: [false] ∧ [symA, symA].length = s.cfg.outDepth :=
  ⟨⟨packedStream threeCodes 3 [0x03], by decide, prefixFree_threeCodes, by decide, by decide, by decide, by decide⟩,
   ⟨packedStream threeCodes 3 [], by decide, prefixFree_threeCodes, by decide, by decide, by decide, by decide⟩⟩

theorem test_hyp_AtMostOneCodeMatches : PrefixFree (tableOf threeCodes) ∧
    matchesAt (tableOf threeCodes) [true, false, true] = [symB] := ⟨prefixFree_threeCodes, by decide⟩

theorem test_hyp_DecodeNeverFillsADeepOutput :
    8 * (loaded []).cfg.pkDepth ≤ (loaded []).cfg.outDepth ∧ ∃ t, exec .decode (loaded []) = .next t ∧ t.done = true :=
  ⟨by decide, exists_of_after (by decide)⟩

/-- Eight bits in one byte: the limit. -/
theorem test_hyp_EncodeCountsBuildsAndPacks :
    (loaded [1, 1, 1, 1, 2, 2, 2, 2]).cfg.wf ∧ Memory.wf (loaded [1, 1, 1, 1, 2, 2, 2, 2]).pkMem ∧
    1 ≤ (loaded [1, 1, 1, 1, 2, 2, 2, 2]).inLen.toNat ∧
    (loaded [1, 1, 1, 1, 2, 2, 2, 2]).inLen.toNat = (loaded [1, 1, 1, 1, 2, 2, 2, 2]).cfg.inDepth ∧
    ((loaded [1, 1, 1, 1, 2, 2, 2, 2]).input.flatMap (codeOf (encodeTable (loaded [1, 1, 1, 1, 2, 2, 2, 2])))).length
      = 8 * (loaded [1, 1, 1, 1, 2, 2, 2, 2]).cfg.pkDepth := by decide

/-- Three symbols in one byte are too many at index 5. -/
theorem test_hyp_EncodeErrorsInOrder :
    (∃ s : State, s.cfg.inDepth < s.inLen.toNat) ∧ (∃ s : State, s.inLen = 0) ∧
    ∃ s : State, s.inLen.toNat ≤ s.cfg.inDepth ∧ 5 < s.inLen.toNat ∧
      8 * s.cfg.pkDepth < ((s.input.take 6).flatMap (codeOf (encodeTable s))).length ∧
      ∀ j < 5, ((s.input.take (j + 1)).flatMap (codeOf (encodeTable s))).length ≤ 8 * s.cfg.pkDepth :=
  ⟨⟨{ State.reset with cfg := ⟨4, 1, 1⟩, inLen := 5 }, by decide⟩, ⟨State.reset, rfl⟩,
   ⟨loaded [1, 2, 3, 1, 2, 3], by decide⟩⟩

theorem test_hyp_EncodeIsCountThenBuildThenPack :
    (loaded [1, 2]).inLen.toNat ≤ (loaded [1, 2]).cfg.inDepth ∧ ∃ a b c, exec .count (loaded [1, 2]) = .next a ∧
      exec .build (accept (Sys2Proof.encode .build) a) = .next b ∧
      exec .pack (accept (Sys2Proof.encode .pack) b) = .next c ∧ (b.errCode == .none && c.errCode == .none) = true := by
  have h : after (exec .count (loaded [1, 2])) (fun a =>
      after (exec .build (accept (Sys2Proof.encode .build) a)) (fun b =>
        after (exec .pack (accept (Sys2Proof.encode .pack) b)) (fun c => b.errCode == .none && c.errCode == .none)))
      = true := by decide
  obtain ⟨a, ha, h⟩ := exists_of_after h
  obtain ⟨b, hb, h⟩ := exists_of_after h
  obtain ⟨c, hc, h⟩ := exists_of_after h
  exact ⟨by decide, a, b, c, ha, hb, hc, h⟩

/-- ENCODE and DECODE of "abb", with a poll of STATUS before each completion and a read of BIT_LEN between them. -/
def roundTrip : State :=
  { loaded [0x61, 0x62, 0x62] with
    schedule := .host (.write 0x00C 0x00000004) :: (readTurns [0x010] ++ .engine :: (readTurns [0x010, 0x01C]
      ++ .host (.write 0x00C 0x00000005) :: (readTurns [0x010] ++ [.engine]))) }

theorem test_hyp_DecodeRecoversWhatEncodePacked :
    roundTrip.cfg.wf ∧ Memory.wf roundTrip.pkMem ∧ Memory.wf roundTrip.outMem ∧ roundTrip.phase = .idle ∧
    roundTrip.inLen.toNat ≤ roundTrip.cfg.outDepth ∧
    ∃ t, steps ([0x010#12].length + 2) roundTrip = .next t ∧ (t.errCode == .none) = true :=
  ⟨by decide, by decide, by decide, rfl, by decide, exists_of_after (by decide)⟩

theorem test_hyp_EncodedLengthIsMinimal :
    (loaded [0x61, 0x62, 0x62]).cfg.wf ∧
    (∃ t, exec .encode (loaded [0x61, 0x62, 0x62]) = .next t ∧ (t.errCode == .none) = true) ∧
    (∀ x ∈ (loaded [0x61, 0x62, 0x62]).input, bin 8 x.toNat ≠ []) ∧
    ∀ x ∈ (loaded [0x61, 0x62, 0x62]).input, ∀ y ∈ (loaded [0x61, 0x62, 0x62]).input, x ≠ y →
      ¬ bin 8 x.toNat <+: bin 8 y.toNat :=
  ⟨by decide, exists_of_after (by decide), by decide, by decide⟩

theorem test_hyp_EncodeAlwaysFitsADeepPackMemory :
    ∃ s : State, s.cfg.wf ∧ s.cfg.inDepth = s.cfg.pkDepth ∧ 1 ≤ s.inLen.toNat ∧ s.inLen.toNat ≤ s.cfg.inDepth :=
  ⟨{ State.reset with inLen := 4096 }, by decide⟩

/-- A command that fails and one that does not. -/
theorem test_hyp_FailedCommands :
    (∃ t, exec .build State.reset = .next t ∧ (t.errCode != .none) = true) ∧
    ∃ t, exec .nop State.reset = .next t ∧ (t.errCode == .none) = true :=
  ⟨exists_of_after (by decide), exists_of_after (by decide)⟩

theorem test_hyp_CommandsWriteOnlyTheirOwnState :
    packLimit.cfg.wf ∧ Memory.wf packLimit.pkMem ∧ Memory.wf packLimit.outMem ∧
    ∃ t, exec .pack packLimit = .next t ∧ (t.bitLen == 8) = true :=
  ⟨by decide, by decide, by decide, exists_of_after (by decide)⟩

/-- A state while RUN. -/
def running : State := { State.reset with phase := .run, op := .command .nop }

theorem test_hyp_BusyGuardRefusesGuardedRegisters :
    running.phase = .run ∧ regAt 0x018 = some .inLen ∧ Reg.inLen ∉ neverGuarded ∧
    regAt 0x0A7 = some (.ctCode 7) ∧ Reg.ctCode 7 ∉ neverGuarded := by decide

theorem test_hyp_UnmappedOffsetsReadZeroAndIgnoreWrites :
    regAt 0x058 = none ∧ regAt 0x05F = none ∧ regAt 0x070 = none ∧ regAt 0x07F = none ∧ regAt 0x0A8 = none ∧
    regAt 0xFFF = none ∧ regAt 0x057 = some .outData ∧ regAt 0x060 = some .ftSel ∧ regAt 0x0A7 = some (.ctCode 7) := by
  decide

/-- The last element of each memory, and the first index past it. -/
theorem test_hyp_Windows :
    (∃ s : State, s.cfg.wf ∧ s.phase = .idle ∧ s.inAddr.toNat + 1 = s.cfg.inDepth ∧ s.pkAddr.toNat + 1 = s.cfg.pkDepth ∧
      s.outAddr.toNat + 1 = s.cfg.outDepth) ∧
    ∃ s : State, s.cfg.wf ∧ s.phase = .idle ∧ s.inAddr.toNat = s.cfg.inDepth ∧ s.pkAddr.toNat = s.cfg.pkDepth ∧
      s.outAddr.toNat = s.cfg.outDepth :=
  ⟨⟨{ State.reset with inAddr := 4095, pkAddr := 4095, outAddr := 32767 }, by decide⟩,
   ⟨{ State.reset with inAddr := 4096, pkAddr := 4096, outAddr := 32768 }, by decide⟩⟩

theorem test_hyp_ReadOnlyRegistersIgnoreWrites :
    (State.reset.phase = .idle ∧ regAt 0x054 = some .outData ∧ Reg.outData ∈ readOnly) ∧
    running.phase = .run ∧ regAt 0x03F = some .cfgOutDepth ∧ Reg.cfgOutDepth ∈ readOnly ∧ Reg.cfgOutDepth ∈ neverGuarded := by
  decide

theorem test_hyp_InterruptFollowsDoneAndEnable :
    (∃ t, exec .nop State.reset = .next t ∧ t.done = true) ∧
    (∃ t, execIllegal State.reset = .next t ∧ t.done = true) ∧
    (0x2#32).getLsbD 1 = true ∧ (0xFFFFFFFE#32).getLsbD 0 = false ∧ State.reset.phase = .idle :=
  ⟨exists_of_after (by decide), exists_of_after (by decide), by decide, by decide, rfl⟩

theorem test_hyp_WrittenRegistersReadBack :
    State.reset.phase = .idle ∧ regAt 0x0A4 = some (.ctCode 7) ∧ storedBits (.ctCode 7) = some 0xFFFFFFFF ∧
    regAt 0x008 = some .ctrl ∧ storedBits .ctrl = some 1 ∧ regAt 0x084 = some .ctLen ∧ storedBits .ctLen = some 0xFF := by
  decide

theorem test_hyp_RegisterWritesChangeOneRegister : State.reset.phase = .idle := rfl

/-- FT_RANK at the last rank, and at NDIST. -/
theorem test_hyp_ResultRegistersReadTheirState :
    (∃ s : State, s.phase = .idle ∧ s.ndist.toNat = s.order.length ∧ s.ftRank.toNat + 1 = s.order.length) ∧
    (∃ s : State, s.phase = .idle ∧ s.ndist.toNat = s.order.length ∧ s.ndist.toNat = s.ftRank.toNat) ∧
    (∃ p ∈ readValues State.reset, (0x087 : Offset) &&& 0xFFC = p.1) ∧ (0x06F : Offset) &&& 0xFFC = 0x06C ∧
    (0x0A7 : Offset) &&& 0xFFC = 0x088 + BitVec.ofNat 12 (4 * (7 : Fin 8).val) :=
  ⟨⟨{ counted (loaded [1, 2, 3]) with ftRank := 2 }, by decide⟩, ⟨{ counted (loaded [1, 2, 3]) with ftRank := 3 }, by decide⟩,
    ⟨(0x084, 0), by decide, by decide⟩, by decide, by decide⟩

theorem test_hyp_AccErrRecordsRefusedAccesses :
    (∃ t, exec .nop State.reset = .next t ∧ t.done = true) ∧ isRefused running (.write 0x00C 0) = true ∧
    isRefused running (.read 0x00C) = false ∧ isRefused { State.reset with inAddr := 4096 } (.read 0x044) = true ∧
    isRefused State.reset (.write 0x054 5) = false :=
  ⟨exists_of_after (by decide), by decide, by decide, by decide, by decide⟩

theorem test_hyp_HostCannotDisturbARunningCommand :
    running.phase = .run ∧ ∃ t, exec .nop running = .next t ∧ t.done = true := ⟨rfl, exists_of_after (by decide)⟩

theorem test_hyp_SetctWritesOneEntry :
    ∃ s : State, s.phase = .idle ∧ s.schedule = expand (.setct 0xFF 255 (BitVec.allOnes 256)) ++ [] :=
  ⟨{ State.reset with schedule := expand (.setct 0xFF 255 (BitVec.allOnes 256)) }, rfl, by simp⟩

/-- A machine whose parameters are the least: a reset state but for its parameters meets the invariant. -/
theorem inv_least : ({ State.reset with cfg := ⟨1, 1, 1⟩ } : State).Inv where
  config := by decide
  inMem := by decide
  pkMem := by decide
  outMem := by decide
  distinct := List.nodup_nil
  rankCount := rfl
  counted := fun x => by simp [State.reset]
  total := by simp [totalCount, State.reset]
  weight := Nat.zero_le _
  decoded := Nat.zero_le _
  reachable := by decide
  errCoded := by decide
  posCoded := by decide
  running := by decide

/-- COUNT accepted, to be waited for. -/
def waiting : State := accept 1 { { State.reset with cfg := ⟨1, 1, 1⟩ } with schedule := expand (.wait 2 none) ++ [] }

theorem test_hyp_WaitEndsWithBusyClear :
    (waiting.Inv ∧ waiting.phase = .run ∧ waiting.schedule = expand (.wait 2 none) ++ []) ∧
    ∃ s : State, s.Inv ∧ s.phase = .idle ∧ s.schedule = expand (.wait 1 none) ++ [] :=
  ⟨⟨inv_accept (inv_withSchedule inv_least _) 1, rfl, rfl⟩, _, inv_withSchedule inv_least (expand (.wait 1 none) ++ []), rfl,
    rfl⟩

/-- `30_encoding.md` R157: on an idle engine a WAIT stops at its first read, whatever its line says. -/
theorem test_wait_idle : after (step { State.reset with schedule := expand (.wait 1 none) })
    (fun t => t.reads == [0] && t.schedule == []) = true := by decide

theorem test_hyp_ResetReachesTheResetState :
    ∃ (s : State) (d : Draw), s.phase = .run ∧ s.schedule = .reset d :: [] ∧ Memory.wf d.inMem ∧ Memory.wf d.pkMem ∧
      Memory.wf d.outMem ∧ Memory.read d.inMem 7 = 0x41 ∧ 7 < s.cfg.inDepth :=
  ⟨{ running with schedule := [.reset ⟨.illegal, Vector.replicate 256 1, [(7, 0x41)], [(0, 1)], []⟩] }, _, rfl, rfl,
    by decide, by decide, by decide, by decide, by decide⟩

theorem test_hyp_EveryStepKeepsTheInvariant : waiting.Inv ∧ ∃ t, step waiting = .next t ∧ (t.phase == .run) = true :=
  ⟨test_hyp_WaitEndsWithBusyClear.1.1, exists_of_after (by decide)⟩

/-- The fault: a state no run reaches. -/
theorem test_hyp_NoStepFaults :
    (∃ s : State, s.Inv) ∧ ∃ s : State, s.ndist ≠ 0 ∧ s.order = [] :=
  ⟨⟨_, inv_least⟩, { State.reset with ndist := 1 }, by decide, rfl⟩

end Sys2Proof.Machine
end

section
/-! PROOFS. Every step keeps the invariant (`10_state.md` R32, `60_exceptions.md` R402, R403): a completion, the
engine, a WAIT, and so every turn. -/

namespace Sys2Proof.Machine

/-- A completion keeps the invariant when a body that succeeds keeps it and one that raises names a reachable code. -/
theorem inv_complete {s t : State} {r : Body} (h : s.Inv) (hok : ∀ u, r = .ok u → u.Inv)
    (hraise : ∀ c p, r = .error (.raise c p) → c ≠ .none ∧ c ≠ .emptyQueue) (ht : complete s r = .next t) : t.Inv := by
  rcases complete_cases ht with ⟨u, hu, rfl⟩ | ⟨c, p, hr, rfl⟩
  · exact inv_reportSuccess (hok u hu)
  · obtain ⟨hc, hq⟩ := hraise c p hr
    exact inv_reportError h hc hq p

theorem inv_exec {i : Instr} {s t : State} (h : s.Inv) (ht : exec i s = .next t) : t.Inv := by
  rw [exec_eq] at ht
  refine inv_complete h (fun u hu => inv_bodyOf h hu) (fun c p hr => ?_) ht
  rcases bodyOf_error hr with ⟨c', p', he, hc, hq⟩ | ⟨-, -, -, he⟩
  · cases he; exact ⟨hc, hq⟩
  · cases he

theorem inv_execIllegal {s t : State} (h : s.Inv) (ht : execIllegal s = .next t) : t.Inv :=
  inv_complete h (fun u hu => by cases hu) (fun c p hr => by cases hr; decide) ht

theorem inv_engineStep {s t : State} (h : s.Inv) (ht : engineStep s = .next t) : t.Inv := by
  unfold engineStep at ht
  cases hp : s.phase with
  | idle => rw [hp] at ht; cases ht; exact h
  | run =>
    rw [hp] at ht
    cases ho : s.op with
    | command i => rw [ho] at ht; exact inv_exec h ht
    | illegal => rw [ho] at ht; exact inv_execIllegal h ht

theorem inv_waitTurn {polls : Nat} {s t : State} (h : s.Inv) (ht : waitTurn polls s = .next t) : t.Inv := by
  cases hp : s.phase with
  | idle =>
    rw [waitTurn_idle polls hp] at ht
    cases ht
    exact inv_returned h _
  | run =>
    cases polls with
    | zero =>
      rw [waitTurn_engine hp] at ht
      exact inv_engineStep (inv_withSchedule h _) ht
    | succ n =>
      cases ht
      exact inv_pollStatus h _

theorem inv_takeTurn {turn : Turn} {s t : State} (h : s.Inv) (ht : takeTurn turn s = .next t) : t.Inv := by
  cases turn with
  | host a => cases ht; exact inv_hostStep h a
  | engine => exact inv_engineStep h ht
  | reset d => cases ht; exact inv_resetTo h d
  | wait polls => exact inv_waitTurn h ht

/-- Settles O59: the schedule's next turn keeps the invariant, and so does the engine's once the schedule is empty. -/
theorem everyStepKeepsTheInvariant : Obligations.EveryStepKeepsTheInvariant := by
  intro s t h ht
  unfold step nextTurn at ht
  cases hs : s.schedule with
  | nil => rw [hs] at ht; exact inv_engineStep h ht
  | cons turn ts => rw [hs] at ht; exact inv_takeTurn (inv_withSchedule h ts) ht

end Sys2Proof.Machine
end

section
/-! PROOFS. The encoded length is minimal (`00_scope.md` R1): codes none of which is the beginning of another obey
Kraft's inequality, so they cost at least as much as the tree of BUILD. -/

namespace Sys2Proof.Machine

/-- The code of a symbol of the input is no longer than the whole encoding. -/
theorem length_code_le_flatMap {code : Symbol → BitString} {input : List Symbol} {x : Symbol} (hx : x ∈ input) :
    (code x).length ≤ (input.flatMap code).length := by
  rw [List.length_flatMap]
  exact List.le_sum_of_mem (List.mem_map_of_mem hx)

/-- Nonempty codes encode every symbol in at least one bit. -/
theorem length_le_flatMap {code : Symbol → BitString} {input : List Symbol} (h : ∀ x ∈ input, code x ≠ []) :
    input.length ≤ (input.flatMap code).length := by
  have hone : ∀ k ∈ input.map fun x => (code x).length, 1 ≤ k := by
    intro k hk
    obtain ⟨x, hx, rfl⟩ := List.mem_map.1 hk
    exact List.length_pos_iff.2 (h x hx)
  simpa [List.length_flatMap] using List.length_le_sum_of_one_le _ hone

/-- The merges of the tree BUILD makes of the counts of an input cost no more bits than any encoding of it in which
no code is the beginning of another. -/
theorem mergeCost_le_flatMap {input : List Symbol} (hin : input.length < 2 ^ 32) {root : Node}
    (hb : buildTree (tally input).1 (tally input).2 = some root) {code : Symbol → BitString}
    (hpf : ∀ x ∈ input, ∀ y ∈ input, x ≠ y → ¬ code x <+: code y) :
    root.mergeCost ≤ (input.flatMap code).length := by
  have hmem := (tally_order hin).1
  have hlen : ∀ x ∈ (tally input).2, (code x).length ≤ (input.flatMap code).length := fun x hx =>
    length_code_le_flatMap ((hmem x).1 hx)
  have hpair : ((tally input).2.map code).Pairwise fun a b => ¬ a <+: b ∧ ¬ b <+: a := by
    refine List.pairwise_map.2 ((tally_nodup hin).imp_of_mem fun {x y} hx hy hne => ?_)
    have hx := (hmem x).1 hx
    have hy := (hmem y).1 hy
    exact ⟨hpf x hx y hy hne, hpf y hy x hx hne.symm⟩
  have hkraft : ((tally input).2.map fun x => 2 ^ ((input.flatMap code).length - (code x).length)).sum
      ≤ 2 ^ (input.flatMap code).length := by
    simpa [Function.comp_def] using kraft_of_prefixFree (List.forall_mem_map.2 hlen) hpair
  calc root.mergeCost
      ≤ ((tally input).2.map fun x => (Table.get (tally input).1 x).toNat * (code x).length).sum :=
        buildTree_cheapest hb (fun x => (code x).length) hlen hkraft
    _ = ((tally input).2.map fun x => input.count x * (code x).length).sum := by simp only [tally_freq_toNat hin]
    _ = (input.map fun x => (code x).length).sum :=
        (sum_by_symbol (fun x => (code x).length) (tally_nodup hin) fun x hx => (hmem x).2 hx).symm
    _ = (input.flatMap code).length := List.length_flatMap.symm

/-- The table ENCODE writes encodes the input in no more bits than any nonempty codes do, none the beginning of
another. -/
theorem stringify_le_flatMap {s : State} {root : Node} (hb : buildTree (tally s.input).1 (tally s.input).2 = some root)
    (hl : root.leaves.Perm (tally s.input).2) (hn : root.leaves.Nodup) (hc : root.leaves.length ≤ 256)
    (hw : root.weight = s.inLen.toNat) {code : Symbol → BitString} (hne : ∀ x ∈ s.input, code x ≠ [])
    (hpf : ∀ x ∈ s.input, ∀ y ∈ s.input, x ≠ y → ¬ code x <+: code y) :
    (stringify (writeTable (genCodes root)) s.input).length ≤ (s.input.flatMap code).length := by
  rw [encoded_length hb hl hn hc hw]
  cases root with
  | leaf x w => exact (length_input s).symm.trans_le (length_le_flatMap hne)
  | internal w l r => exact mergeCost_le_flatMap (input_length_lt s) hb hpf

/-- An ENCODE that reports no error packed the input with the table of the tree of its counts. -/
theorem exec_encode_success {s t : State} (h : exec .encode s = .next t) (he : t.errCode = .none) :
    ∃ root, buildTree (tally s.input).1 (tally s.input).2 = some root ∧ root.leaves.Perm (tally s.input).2 ∧
      root.leaves.Nodup ∧ root.leaves.length ≤ 256 ∧ root.weight = s.inLen.toNat ∧
      t = reportSuccess (packed (built (counted s) root)) := by
  rw [exec_eq, bodyOf] at h
  rcases encodeBody_cases s with ⟨-, hb⟩ | ⟨-, ⟨-, hb⟩ |
      ⟨root, -, htree, hl, hn, hc, hw, -, -, ⟨i, -, hb⟩ | ⟨-, hb⟩⟩⟩ <;> rw [hb] at h <;> cases h
  case inr.inr.inr => exact ⟨root, htree, hl, hn, hc, hw, rfl⟩
  all_goals cases he

/-- Settles O34: BIT_LEN is the length of the packed bit string, in 32 bits. -/
theorem encodedLengthIsMinimal : Obligations.EncodedLengthIsMinimal := by
  intro s t code _ h he hne hpf
  obtain ⟨root, htree, hl, hn, hc, hw, rfl⟩ := exec_encode_success h he
  calc (reportSuccess (packed (built (counted s) root))).bitLen.toNat
      = (stringify (writeTable (genCodes root)) s.input).length % 2 ^ 32 := BitVec.toNat_ofNat _ _
    _ ≤ (stringify (writeTable (genCodes root)) s.input).length := Nat.mod_le _ _
    _ ≤ (s.input.flatMap code).length := stringify_le_flatMap htree hl hn hc hw hne hpf

end Sys2Proof.Machine
end

section
/-! PROOFS. The register map as the host sees it (`10_state.md` R33 to R56, `20_memory.md` R103 to R106): which offsets
are mapped, the accesses of the registers that are no window, and the words they read. -/

namespace Sys2Proof.Machine

/-! ### Offsets -/

/-- Clearing bits [1:0] rounds an offset down to its word. -/
theorem toNat_and_wordMask (off : Offset) : (off &&& 0xFFC).toNat = 4 * (off.toNat / 4) := by
  have h : off &&& (0xFFC : Offset) = (off >>> 2) <<< 2 := by
    rw [show (0xFFC : Offset) = BitVec.allOnes 12 <<< 2 by decide]
    ext i hi
    rw [BitVec.getElem_and, BitVec.getElem_shiftLeft, BitVec.getElem_shiftLeft, BitVec.getElem_allOnes,
      BitVec.getElem_ushiftRight]
    by_cases h2 : i < 2
    · simp [h2]
    · simp [h2, hi, show 2 + (i - 2) = i by omega]
  have := off.isLt
  rw [h, BitVec.toNat_shiftLeft, BitVec.toNat_ushiftRight, Nat.shiftLeft_eq, Nat.shiftRight_eq_div_pow]
  omega

theorem regAt_and_wordMask (off : Offset) : regAt (off &&& 0xFFC) = regAt off := by
  simp only [regAt, BitVec.and_assoc, BitVec.and_self]

theorem hostStep_read_wordMask (off : Offset) (s : State) :
    hostStep (.read (off &&& 0xFFC)) s = hostStep (.read off) s := by
  simp only [hostStep, hostRead, regAt_and_wordMask]

theorem hostStep_write_wordMask (off : Offset) (v : Word) (s : State) :
    hostStep (.write (off &&& 0xFFC) v) s = hostStep (.write off v) s := by
  simp only [hostStep, hostWrite, regAt_and_wordMask]

/-- The registers fill three runs of words: 0 to 21, 24 to 27 and 32 to 41 (`10_state.md` R34). -/
theorem map_offsetOf_allRegs : allRegs.map (fun r => (offsetOf r).toNat)
    = (List.range 22 ++ List.range' 24 4 ++ List.range' 32 10).map (4 * ·) := by decide

/-- A word number is that of a register exactly when it lies in one of the three runs. -/
theorem exists_offsetOf_toNat {w : Nat} :
    (∃ r ∈ allRegs, (offsetOf r).toNat = 4 * w) ↔ w < 22 ∨ (24 ≤ w ∧ w < 28) ∨ (32 ≤ w ∧ w < 42) := by
  calc (∃ r ∈ allRegs, (offsetOf r).toNat = 4 * w)
      ↔ 4 * w ∈ allRegs.map (fun r => (offsetOf r).toNat) := by simp only [List.mem_map]
    _ ↔ w ∈ List.range 22 ++ List.range' 24 4 ++ List.range' 32 10 := by
        rw [map_offsetOf_allRegs, List.mem_map_of_injective fun a b h => by omega]
    _ ↔ w < 22 ∨ (24 ≤ w ∧ w < 28) ∨ (32 ≤ w ∧ w < 42) := by simp

/-- The unmapped offsets are those of the gaps between the runs and after the last (`10_state.md` R33). -/
theorem regAt_eq_none_iff (off : Offset) : regAt off = none ↔
    (0x058 ≤ off.toNat ∧ off.toNat < 0x060) ∨ (0x070 ≤ off.toNat ∧ off.toNat < 0x080) ∨ 0x0A8 ≤ off.toNat := by
  have h : regAt off = none ↔ ¬ ∃ r ∈ allRegs, (offsetOf r).toNat = 4 * (off.toNat / 4) := by
    simp only [regAt, List.find?_eq_none, beq_iff_eq, ← toNat_and_wordMask, BitVec.toNat_inj, not_exists, not_and]
  rw [h, exists_offsetOf_toNat]
  omega

/-- Settles O41: an offset acts through `regAt` alone, which ignores bits [1:0]. -/
theorem unmappedOffsetsReadZeroAndIgnoreWrites : Obligations.UnmappedOffsetsReadZeroAndIgnoreWrites := fun s off =>
  ⟨(hostStep_read_wordMask off s).symm, fun v => (hostStep_write_wordMask off v s).symm, regAt_eq_none_iff off,
    fun h => ⟨hostRead_unmapped h, fun v => hostWrite_unmapped v h⟩⟩

/-! ### Accesses that the busy guard does not refuse -/

theorem afterRead_of_not_window (s : State) {r : Reg} (h : r.isWindow = false) : afterRead s r = s := by
  cases r with
  | inData | pkData | outData => cases h
  | _ => rfl

/-- A read of a register that is no window returns its value and changes nothing (`20_memory.md` R110). -/
theorem hostRead_not_window {s : State} {off : Offset} {r : Reg} (hr : regAt off = some r) (hb : blocked s r = false)
    (hw : r.isWindow = false) : hostStep (.read off) s = returned (regValue s r) s := by
  rw [hostRead_reg hr hb, afterRead_of_not_window s hw]

theorem isWindow_of_unguarded {r : Reg} (h : guarded r = false) : r.isWindow = false := by
  cases r with
  | inData | pkData | outData => cases h
  | _ => rfl

theorem hostRead_unguarded (s : State) {r : Reg} (h : guarded r = false) :
    hostStep (.read (offsetOf r)) s = returned (regValue s r) s :=
  hostRead_not_window (regAt_offsetOf r) (blocked_of_unguarded s h) (isWindow_of_unguarded h)

theorem hostWrite_unguarded (s : State) {r : Reg} (v : Word) (h : guarded r = false) :
    hostStep (.write (offsetOf r) v) s = writeReg v s r :=
  hostWrite_reg v (regAt_offsetOf r) (blocked_of_unguarded s h)

theorem guarded_of_mem_neverGuarded : ∀ r ∈ neverGuarded, guarded r = false := by decide

theorem writeReg_readOnly (v : Word) (s : State) : ∀ r ∈ readOnly, writeReg v s r = s := by
  simp [readOnly, writeReg]

/-- Settles O44: the busy guard lets the write through, and the register ignores it. -/
theorem readOnlyRegistersIgnoreWrites : Obligations.ReadOnlyRegistersIgnoreWrites := by
  intro s off r v hr hro hfree
  have hb : blocked s r = false := hfree.elim (fun h => blocked_of_idle h r) fun h =>
    blocked_of_unguarded s (guarded_of_mem_neverGuarded r h)
  rw [hostWrite_reg v hr hb, writeReg_readOnly v s r hro]

/-! ### The words of CTRL and STATUS -/

theorem ctrlWord_eq (s : State) : ctrlWord s = if s.irqEn then 1 else 0 := by
  unfold ctrlWord
  cases s.irqEn <;> rfl

/-- Settles O40: none of these registers is guarded. -/
theorem unguardedRegistersStayAccessible : Obligations.UnguardedRegistersStayAccessible := fun s =>
  ⟨hostRead_unguarded s (r := .id) rfl, hostRead_unguarded s (r := .version) rfl,
    hostRead_unguarded s (r := .cfgInDepth) rfl, hostRead_unguarded s (r := .cfgPkDepth) rfl,
    hostRead_unguarded s (r := .cfgOutDepth) rfl, ctrlWord_eq s ▸ hostRead_unguarded s (r := .ctrl) rfl,
    hostRead_unguarded s (r := .cmd) rfl, ⟨statusWord s, read_status s⟩,
    fun v => hostWrite_unguarded s (r := .ctrl) v rfl⟩

/-- Write-one-to-clear: a 1 clears the bit and a 0 leaves it. -/
theorem clearReport_eq (w : Word) (s : State) : clearReport w s = { s with
    done := if w.getLsbD 1 then false else s.done
    err := if w.getLsbD 2 then false else s.err
    accErr := if w.getLsbD 3 then false else s.accErr } := by
  have h : ∀ b c : Bool, (b && !c) = if c then false else b := by decide
  simp only [clearReport, h]

/-- Settles O45: STATUS is never guarded. -/
theorem statusWritesClearByOnes : Obligations.StatusWritesClearByOnes := fun s v =>
  (hostWrite_unguarded s (r := .status) v rfl).trans (clearReport_eq v s)

/-- Concatenation as arithmetic. -/
theorem toNat_append_eq_add {m n : Nat} (x : BitVec m) (y : BitVec n) :
    (x ++ y).toNat = x.toNat * 2 ^ n + y.toNat := by
  rw [BitVec.toNat_append, ← Nat.shiftLeft_add_eq_or_of_lt y.isLt, Nat.shiftLeft_eq]

theorem statusWord_toNat (s : State) : (statusWord s).toNat = s.busy.toNat + s.done.toNat * 2 + s.err.toNat * 4
    + s.accErr.toNat * 8 + 256 * s.errCode.bits.toNat := by
  simp only [statusWord, toNat_append_eq_add, BitVec.toNat_ofBool, BitVec.toNat_ofNat]
  omega

theorem busy_toNat (s : State) : s.busy.toNat = if s.phase = .run then 1 else 0 := by
  unfold State.busy
  cases s.phase <;> rfl

/-- Settles O46: the word read is `statusWord`, whose fields are disjoint. -/
theorem statusReadsItsFields : Obligations.StatusReadsItsFields := by
  intro s
  have hbit : ∀ (b : Bool) (k : Nat), b.toNat * k = if b then k else 0 := by
    intro b k
    cases b <;> simp
  refine ⟨statusWord s, read_status s, ?_⟩
  rw [statusWord_toNat, busy_toNat, hbit, hbit, hbit]
  cases s.errCode <;> rfl

/-! ### Writes when IDLE -/

/-- The implemented bit of CTRL, read back (`10_state.md` R37). -/
theorem ite_getLsbD_zero_eq_and_one (v : Word) : (if v.getLsbD 0 then 1 else 0) = v &&& 1 := by
  refine Eq.trans ?_ BitVec.and_one_eq_setWidth_ofBool_getLsbD.symm
  cases v.getLsbD 0 <;> rfl

/-- The implemented bits of an 8-bit register, read back (`10_state.md` R35). -/
theorem setWidth_setWidth_eq_and_mask (v : Word) : (v.setWidth 8).setWidth 32 = v &&& 0x000000FF := by
  apply BitVec.eq_of_toNat_eq
  rw [BitVec.toNat_and, show (0x000000FF : Word).toNat = 2 ^ 8 - 1 from rfl, Nat.and_two_pow_sub_one_eq_mod,
    BitVec.toNat_setWidth, BitVec.toNat_setWidth]
  omega

/-- A register that stores what is written starts no command and returns nothing. -/
theorem writeReg_phase_reads_of_stored {r : Reg} {m : Word} (h : storedBits r = some m) (v : Word) (s : State) :
    (writeReg v s r).phase = s.phase ∧ (writeReg v s r).reads = s.reads := by
  cases r with
  | cmd | inData | pkData => cases h
  | _ => exact ⟨rfl, rfl⟩

theorem isWindow_of_stored {r : Reg} {m : Word} (h : storedBits r = some m) : r.isWindow = false := by
  cases r with
  | inData | pkData | outData => cases h
  | _ => rfl

/-- A register that stores what is written holds its implemented bits. -/
theorem regValue_writeReg {r : Reg} {m : Word} (h : storedBits r = some m) (v : Word) (s : State) :
    regValue (writeReg v s r) r = v &&& m := by
  cases r with
  | ctrl =>
    cases h
    exact (ctrlWord_eq _).trans (ite_getLsbD_zero_eq_and_one v)
  | inLen | bitLen | inAddr | pkAddr | outAddr =>
    cases h
    exact (BitVec.and_allOnes).symm
  | ftSel | ftRank | ctSel =>
    cases h
    exact setWidth_setWidth_eq_and_mask v
  | ctLen =>
    cases h
    simp [regValue, writeReg, setWidth_setWidth_eq_and_mask]
  | ctCode k =>
    cases h
    simp only [regValue, writeReg, setSelected_ct, setSelected_ctSel, get_set_self, codeWord_setCodeWord]
    exact (BitVec.and_allOnes).symm
  | _ => cases h

/-- Settles O48: the write keeps the engine IDLE, so the read is not refused either. -/
theorem writtenRegistersReadBack : Obligations.WrittenRegistersReadBack := by
  intro s off r v m hs hr hm
  obtain ⟨hphase, hreads⟩ := writeReg_phase_reads_of_stored hm v s
  rw [hostWrite_reg v hr (blocked_of_idle hs r),
    hostRead_not_window hr (blocked_of_idle (hphase.trans hs) r) (isWindow_of_stored hm), regValue_writeReg hm,
    returned, hreads]

/-- Settles O49: the registers by their case of `writeReg`, the code table by what is read after `Table.set`. -/
theorem registerWritesChangeOneRegister : Obligations.RegisterWritesChangeOneRegister := by
  intro s v hs
  refine ⟨hostWrite_idle hs .inLen v, hostWrite_idle hs .bitLen v, hostWrite_idle hs .inAddr v,
    hostWrite_idle hs .pkAddr v, hostWrite_idle hs .outAddr v, hostWrite_idle hs .ftSel v,
    hostWrite_idle hs .ftRank v, hostWrite_idle hs .ctSel v, ?_, fun k => ?_⟩
  · refine ⟨writeReg v s .ctLen, hostWrite_idle hs .ctLen v, rfl, fun x => ?_⟩
    rw [writeReg, setSelected_ct, get_set]
    split
    · subst_vars; rfl
    · rfl
  · refine ⟨writeReg v s (.ctCode k), hostWrite_idle hs (.ctCode k) v, rfl, fun x hx => ?_, ?_, fun b hb => ?_⟩ <;>
      rw [writeReg, setSelected_ct]
    · exact get_set_of_ne s.ct _ hx
    · rw [get_set_self]
    · rw [get_set_self]
      exact getLsbD_setCodeWord _ k v hb

/-! ### Reads when IDLE -/

/-- The registers of `readValues`, in its order. -/
def plainRegs : List Reg :=
  [.id, .version, .ctrl, .cmd, .status, .errPos, .inLen, .bitLen, .pkLen]
  ++ [.outLen, .ndist, .rootWeight, .maxLen, .cfgInDepth, .cfgPkDepth, .cfgOutDepth]
  ++ [.inAddr, .pkAddr, .outAddr, .ftSel, .ftCount, .ftRank, .ctSel, .ctLen]

theorem plainRegs_not_window : ∀ r ∈ plainRegs, r.isWindow = false := by decide

theorem readValues_eq (s : State) : readValues s = plainRegs.map fun r => (offsetOf r, regValue s r) := by
  simp only [readValues, BitVec.ofNat_toNat, ← ctrlWord_eq s]
  rfl

/-- When IDLE a read anywhere in the word of a register that is no window returns its value. -/
theorem hostRead_idle {s : State} (hs : s.phase = .idle) {off : Offset} {r : Reg} (hr : off &&& 0xFFC = offsetOf r)
    (hw : r.isWindow = false) : hostStep (.read off) s = { s with reads := regValue s r :: s.reads } :=
  hostRead_not_window (regAt_eq_some.2 hr) (blocked_of_idle hs r) hw

theorem ranked_eq_order {s : State} (h : s.ndist.toNat = s.order.length) : s.ranked = s.order := by
  rw [State.ranked, h, List.take_length]

theorem rankSym_of_lt {s : State} (h : s.ndist.toNat = s.order.length) (hlt : s.ftRank.toNat < s.order.length) :
    s.rankSym = s.order[s.ftRank.toNat] := by
  rw [State.rankSym, ranked_eq_order h, List.getElem?_eq_getElem hlt, Option.getD_some]

theorem rankSym_of_le {s : State} (hle : s.ndist.toNat ≤ s.ftRank.toNat) : s.rankSym = 0 := by
  have : s.ranked.length ≤ s.ftRank.toNat := (List.length_take_le _ _).trans hle
  rw [State.rankSym, List.getElem?_eq_none this, Option.getD_none]

/-- Settles O50: every register that is no window reads as `regValue` says. -/
theorem resultRegistersReadTheirState : Obligations.ResultRegistersReadTheirState := by
  intro s off hs hn
  refine ⟨fun p hp hoff => ?_, fun hoff => ⟨fun hlt => ?_, fun hle => ?_⟩, fun k hoff => ?_⟩
  · rw [readValues_eq, List.mem_map] at hp
    obtain ⟨r, hr, rfl⟩ := hp
    exact hostRead_idle hs hoff (plainRegs_not_window r hr)
  · rw [hostRead_idle hs (r := .ftRankSym) hoff rfl, regValue, rankSym_of_lt hn hlt]
  · rw [hostRead_idle hs (r := .ftRankSym) hoff rfl, regValue, rankSym_of_le hle]
    rfl
  · exact ⟨_, hostRead_idle hs (r := .ctCode k) hoff rfl, fun b hb => getLsbD_codeWord _ k hb⟩

end Sys2Proof.Machine
end

section
/-! PROOFS. What a step does with each kind of turn (`10_state.md` R32, `60_exceptions.md` R417,
`70_reset_and_hazards.md` R452). -/

namespace Sys2Proof.Machine

theorem engineStep_idle {s : State} (h : s.phase = .idle) : engineStep s = .next s := by
  simp only [engineStep, h]

theorem step_reset {s : State} {d : Draw} {ts : List Turn} (h : s.schedule = .reset d :: ts) :
    step s = .next (resetTo d { s with schedule := ts }) := by
  simp only [step, nextTurn, h, takeTurn]

theorem step_engine {s : State} {ts : List Turn} (h : s.schedule = .engine :: ts) :
    step s = engineStep { s with schedule := ts } := by
  simp only [step, nextTurn, h, takeTurn]

theorem step_unscheduled {s : State} (h : s.schedule = []) : step s = engineStep s := by
  simp only [step, nextTurn, h]

/-- Settles O6, turn by turn. -/
theorem turnsOfTheSchedule : Obligations.TurnsOfTheSchedule := fun s ts =>
  ⟨fun _ h => step_host h, fun _ h => ⟨_, step_reset h, rfl, rfl, rfl⟩,
    fun hidle h => (step_engine h).trans (engineStep_idle (s := { s with schedule := ts }) hidle),
    fun hidle h => (step_unscheduled h).trans (engineStep_idle hidle)⟩

end Sys2Proof.Machine
end

section
/-! PROOFS. The frame of the commands (`20_memory.md` R100, `30_encoding.md` R153): what a body and its report leave
unchanged. -/

namespace Sys2Proof.Machine

/-- A body writes the tables, the result registers and the two result memories at most, and each of them only in the
commands that are there to write it. -/
theorem bodyOf_frame {i : Instr} {s u : State} (h : bodyOf i s = .ok u) :
    u = { s with
      freq := u.freq, order := u.order, ndist := u.ndist, ct := u.ct, rootWeight := u.rootWeight, maxLen := u.maxLen
      pkMem := u.pkMem, bitLen := u.bitLen, outMem := u.outMem, outLen := u.outLen } ∧
    (i ∉ [.count, .encode] → u.freq = s.freq ∧ u.order = s.order ∧ u.ndist = s.ndist) ∧
    (i ∉ [.build, .encode, .ctclr] → u.ct = s.ct) ∧
    (i ∉ [.build, .encode] → u.rootWeight = s.rootWeight ∧ u.maxLen = s.maxLen) ∧
    (i ∉ [.pack, .encode] → u.bitLen = s.bitLen ∧ u.pkMem = s.pkMem) ∧
    (i ≠ .decode → u.outLen = s.outLen ∧ u.outMem = s.outMem) := by
  rcases bodyOf_ok h with ⟨rfl, rfl⟩ | ⟨rfl, -, rfl⟩ | ⟨rfl, root, -, -, -, rfl⟩ | ⟨rfl, -, rfl⟩ |
      ⟨rfl, root, -, -, -, -, -, rfl⟩ | ⟨rfl, out, -, rfl⟩ | ⟨rfl, rfl⟩ <;>
    exact ⟨rfl, by simp [counted, built, packed, decoded]⟩

/-- PACK leaves the elements from ceil_div(BIT_LEN, 8) on. -/
theorem read_pkMem_packed {s : State} (hc : s.cfg.wf) (hm : Memory.wf s.pkMem)
    (hfit : (stringify s.ct s.input).length ≤ 8 * s.cfg.pkDepth) {j : Nat} (hj : (packed s).bitLen.toNat ≤ 8 * j) :
    Memory.read (packed s).pkMem j = Memory.read s.pkMem j := by
  obtain ⟨-, ⟨-, hdepth⟩, -⟩ := hc
  have hlen : (packed s).bitLen.toNat = (stringify s.ct s.input).length := by
    simp only [packed, BitVec.toNat_ofNat]
    omega
  rw [packed, read_packed hm, if_neg (by omega)]

/-- DECODE leaves the elements from OUT_LEN on. -/
theorem read_outMem_decoded {s : State} (hc : s.cfg.wf) (hm : Memory.wf s.outMem) {out : List Symbol}
    (hfit : out.length ≤ s.cfg.outDepth) {j : Nat} (hj : (decoded s out).outLen.toNat ≤ j) :
    Memory.read (decoded s out).outMem j = Memory.read s.outMem j := by
  obtain ⟨-, -, ⟨-, hdepth⟩⟩ := hc
  have hlen : (decoded s out).outLen.toNat = out.length := by
    simp only [decoded, BitVec.toNat_ofNat]
    omega
  rw [decoded, Memory.read_writeFrom hm, if_pos (Nat.zero_le j), List.getElem?_eq_none (by omega), Option.getD_none]

/-- Only PACK writes PK_MEM, by itself or at the end of ENCODE. -/
theorem bodyOf_read_pkMem {i : Instr} {s u : State} (hc : s.cfg.wf) (hm : Memory.wf s.pkMem) (h : bodyOf i s = .ok u)
    {j : Nat} (hj : u.bitLen.toNat ≤ 8 * j) : Memory.read u.pkMem j = Memory.read s.pkMem j := by
  obtain ⟨-, -, -, -, hkeep, -⟩ := bodyOf_frame h
  cases i with
  | pack =>
    obtain ⟨hfit, rfl⟩ : (stringify s.ct s.input).length ≤ 8 * s.cfg.pkDepth ∧ u = packed s := by
      simpa using bodyOf_ok h
    exact read_pkMem_packed hc hm hfit hj
  | encode =>
    have hu := bodyOf_ok h
    simp only [reduceCtorEq, false_and, true_and, false_or, or_false] at hu
    obtain ⟨root, -, -, -, -, hfit, rfl⟩ := hu
    exact read_pkMem_packed (s := built (counted s) root) hc hm hfit hj
  | _ => rw [(hkeep (by decide)).2]

/-- Only DECODE writes OUT_MEM. -/
theorem bodyOf_read_outMem {i : Instr} {s u : State} (hc : s.cfg.wf) (hm : Memory.wf s.outMem) (h : bodyOf i s = .ok u)
    {j : Nat} (hj : u.outLen.toNat ≤ j) : Memory.read u.outMem j = Memory.read s.outMem j := by
  obtain ⟨-, -, -, -, -, hkeep⟩ := bodyOf_frame h
  by_cases hi : i = .decode
  · subst hi
    obtain ⟨out, hfit, rfl⟩ : ∃ out, out.length ≤ s.cfg.outDepth ∧ u = decoded s out := by
      simpa using bodyOf_ok h
    exact read_outMem_decoded hc hm hfit hj
  · rw [(hkeep hi).2]

/-- Settles O38: a success has the frame of its body, a failure writes nothing but the report. -/
theorem commandsWriteOnlyTheirOwnState : Obligations.CommandsWriteOnlyTheirOwnState := by
  intro i s t hc hpk hout ht
  rw [exec_eq] at ht
  rcases complete_cases ht with ⟨u, hu, rfl⟩ | ⟨c, p, -, rfl⟩
  · obtain ⟨hrest, hcounts, hct, htree, hpack, hdecode⟩ := bodyOf_frame hu
    have hin : u.inMem = s.inMem := by rw [hrest]
    exact ⟨congrArg reportSuccess hrest, hcounts, hct, htree,
      fun hi => ⟨(hpack hi).1, fun j => congrArg (Memory.read · j) (hpack hi).2⟩,
      fun hi => ⟨(hdecode hi).1, fun j => congrArg (Memory.read · j) (hdecode hi).2⟩,
      fun _ hj => bodyOf_read_pkMem hc hpk hu hj, fun _ hj => bodyOf_read_outMem hc hout hu hj,
      fun j => congrArg (Memory.read · j) hin⟩
  · exact ⟨rfl, fun _ => ⟨rfl, rfl, rfl⟩, fun _ => rfl, fun _ => ⟨rfl, rfl⟩, fun _ => ⟨rfl, fun _ => rfl⟩,
      fun _ => ⟨rfl, fun _ => rfl⟩, fun _ _ => rfl, fun _ _ => rfl, fun _ => rfl⟩

end Sys2Proof.Machine
end

section
/-! PROOFS. The windows (`20_memory.md` R104, R107): an access in range reaches the element and advances the pointer, one
out of range is refused. -/

namespace Sys2Proof.Machine

theorem Window.inRange_of_lt {w : Window} (h : w.addr.toNat < w.depth) : w.inRange = true := decide_eq_true h

theorem Window.inRange_of_le {w : Window} (h : w.depth ≤ w.addr.toNat) : w.inRange = false :=
  decide_eq_false (Nat.not_lt.2 h)

theorem hostRead_offsetOf {s : State} (hs : s.phase = .idle) (r : Reg) :
    hostStep (.read (offsetOf r)) s = returned (regValue s r) (afterRead s r) :=
  hostRead_reg (regAt_offsetOf r) (blocked_of_idle hs r)

/-! A register `r` is the window `w` when a read of it returns the value of `w`, and an access takes its effect, `advanced`,
exactly when `w` is in range. -/

section
variable {s advanced : State} {r : Reg} {w : Window} {v : Word}

theorem hostRead_window_inRange (hs : s.phase = .idle) (hv : regValue s r = w.value)
    (ha : afterRead s r = if w.inRange then advanced else refuse s) (h : w.addr.toNat < w.depth) :
    hostStep (.read (offsetOf r)) s = returned ((Memory.read w.mem w.addr.toNat).setWidth 32) advanced := by
  rw [hostRead_offsetOf hs, hv, ha, Window.value, if_pos (Window.inRange_of_lt h), if_pos (Window.inRange_of_lt h)]

theorem hostRead_window_outOfRange (hs : s.phase = .idle) (hv : regValue s r = w.value)
    (ha : afterRead s r = if w.inRange then advanced else refuse s) (h : w.depth ≤ w.addr.toNat) :
    hostStep (.read (offsetOf r)) s = returned 0 (refuse s) := by
  simp [hostRead_offsetOf hs, hv, ha, Window.value, Window.inRange_of_le h]

theorem hostWrite_window_inRange (hs : s.phase = .idle)
    (hw : writeReg v s r = if w.inRange then advanced else refuse s) (h : w.addr.toNat < w.depth) :
    hostStep (.write (offsetOf r) v) s = advanced := by
  rw [hostWrite_idle hs, hw, if_pos (Window.inRange_of_lt h)]

theorem hostWrite_window_outOfRange (hs : s.phase = .idle)
    (hw : writeReg v s r = if w.inRange then advanced else refuse s) (h : w.depth ≤ w.addr.toNat) :
    hostStep (.write (offsetOf r) v) s = refuse s := by
  simp [hostWrite_idle hs, hw, Window.inRange_of_le h]

end

/-- A pointer in range does not wrap when it advances. -/
theorem toNat_pointer_add_one {a : Word} {depth : Nat} (h : a.toNat < depth) (hd : depth ≤ 2 ^ 27) :
    (a + 1).toNat = a.toNat + 1 := by
  rw [BitVec.toNat_add, show (1 : Word).toNat = 1 from rfl]
  omega

/-- Settles O42: window by window, with the reads of `Memory.write`; a pointer is a plain register. -/
theorem windowsReachTheElementAndAdvance : Obligations.WindowsReachTheElementAndAdvance := by
  intro s v hc hs
  obtain ⟨⟨-, hin⟩, ⟨-, hpk⟩, -, hout⟩ := hc
  refine ⟨fun h => ?_, fun h => ?_, fun h => ?_, ⟨hostWrite_idle hs .inAddr v, hostRead_offsetOf hs .inAddr⟩,
    ⟨hostWrite_idle hs .pkAddr v, hostRead_offsetOf hs .pkAddr⟩,
    hostWrite_idle hs .outAddr v, hostRead_offsetOf hs .outAddr⟩
  · exact ⟨toNat_pointer_add_one h (by omega),
      hostRead_window_inRange (r := .inData) (w := s.inWindow) hs rfl rfl h,
      _, hostWrite_window_inRange (r := .inData) (w := s.inWindow) hs rfl h, rfl,
      fun hm j => Memory.read_write hm _ j _⟩
  · exact ⟨toNat_pointer_add_one h (by omega),
      hostRead_window_inRange (r := .pkData) (w := s.pkWindow) hs rfl rfl h,
      _, hostWrite_window_inRange (r := .pkData) (w := s.pkWindow) hs rfl h, rfl,
      fun hm j => Memory.read_write hm _ j _⟩
  · exact ⟨toNat_pointer_add_one h hout, hostRead_window_inRange (r := .outData) (w := s.outWindow) hs rfl rfl h⟩

/-- Settles O43: window by window. -/
theorem windowsOutOfRangeAreRefused : Obligations.WindowsOutOfRangeAreRefused := fun s _ hs =>
  ⟨fun h => ⟨hostRead_window_outOfRange (r := .inData) (w := s.inWindow) hs rfl rfl h,
      hostWrite_window_outOfRange (r := .inData) (w := s.inWindow) hs rfl h⟩,
    fun h => ⟨hostRead_window_outOfRange (r := .pkData) (w := s.pkWindow) hs rfl rfl h,
      hostWrite_window_outOfRange (r := .pkData) (w := s.pkWindow) hs rfl h⟩,
    fun h => hostRead_window_outOfRange (r := .outData) (w := s.outWindow) hs rfl rfl h⟩

end Sys2Proof.Machine
end

section
/-! PROOFS. The busy guard (`20_memory.md` R106, R110, R116, R119): what the host can do while a command runs, and which
reads have a side effect. -/

namespace Sys2Proof.Machine

theorem guarded_of_not_mem_neverGuarded {r : Reg} (h : r ∉ neverGuarded) : guarded r = true :=
  (by decide : ∀ q ∈ allRegs, q ∉ neverGuarded → guarded q = true) r (mem_allRegs r) h

theorem not_mem_neverGuarded_of_guarded {r : Reg} (h : guarded r = true) : r ∉ neverGuarded := fun hr =>
  absurd h (by simp [guarded_of_mem_neverGuarded r hr])

/-- Settles O39: the guard refuses the register, whatever else an access of it would do. -/
theorem busyGuardRefusesGuardedRegisters : Obligations.BusyGuardRefusesGuardedRegisters := by
  intro s off r hs hr hn
  have hb : blocked s r = true := (blocked_of_run hs r).trans (guarded_of_not_mem_neverGuarded hn)
  exact ⟨hostRead_blocked hr hb, fun v => hostWrite_blocked v hr hb⟩

theorem run_and_guarded_of_blocked {s : State} {r : Reg} (h : blocked s r = true) :
    s.phase = .run ∧ guarded r = true := by
  simpa [blocked, busy_iff] using h

theorem eq_window_of_isWindow {r : Reg} (h : r.isWindow = true) : r = .inData ∨ r = .pkData ∨ r = .outData := by
  cases r with
  | inData | pkData | outData => decide
  | _ => cases h

/-- Settles O51: an unmapped read, or one of a register that is neither refused nor a window, only returns a word. -/
theorem onlyWindowAndGuardedReadsHaveSideEffects : Obligations.OnlyWindowAndGuardedReadsHaveSideEffects := by
  intro s off
  cases hr : regAt off with
  | none => exact .inl (by rw [hostRead_unmapped hr]; rfl)
  | some r =>
    cases hb : blocked s r with
    | true =>
      obtain ⟨hs, hg⟩ := run_and_guarded_of_blocked hb
      exact .inr (.inl ⟨r, rfl, hs, not_mem_neverGuarded_of_guarded hg⟩)
    | false =>
      cases hw : r.isWindow with
      | true => exact .inr (.inr (by simpa using eq_window_of_isWindow hw))
      | false => exact .inl (by rw [hostRead_not_window hr hb hw]; rfl)

/-! ### Accesses during a run -/

/-- `s` with the fields an access while RUN can change taken from `c`. -/
def State.withHostFields (s c : State) : State :=
  { s with irqEn := c.irqEn, done := c.done, err := c.err, accErr := c.accErr, reads := c.reads }

/-- No list of accesses while RUN changes another field. -/
theorem hostSteps_running {s : State} (as : List Access) (h : s.phase = .run) :
    hostSteps as s = s.withHostFields (hostSteps as s) := by
  induction as generalizing s with
  | nil => rfl
  | cons a as ih =>
    have ha : hostStep a s = s.withHostFields (hostStep a s) := hostStep_running a h
    have hrun : (hostStep a s).phase = .run := (congrArg State.phase ha).trans h
    calc hostSteps (a :: as) s
        = (hostStep a s).withHostFields (hostSteps (a :: as) s) := ih hrun
      _ = (s.withHostFields (hostStep a s)).withHostFields (hostSteps (a :: as) s) :=
          congrArg (·.withHostFields (hostSteps (a :: as) s)) ha
      _ = s.withHostFields (hostSteps (a :: as) s) := rfl

/-- A command completes as it would have without a change of the fields the host can reach: DONE and ERR are its report's,
the others stay as the host left them. -/
theorem exec_withHostFields {i : Instr} {s t : State} (c : State) (h : exec i s = .next t) :
    exec i (s.withHostFields c) = .next { t with irqEn := c.irqEn, accErr := c.accErr, reads := c.reads } := by
  rw [exec_eq] at h
  rw [exec_eq, show s.withHostFields c = s.withControl (s.withHostFields c) from rfl, bodyOf_withControl]
  rcases complete_cases h with ⟨u, hu, rfl⟩ | ⟨e, p, hu, rfl⟩
  · rw [hu, bodyOf_control hu]
    rfl
  · rw [hu]
    rfl

/-- Settles O53: the accesses change the fields of `withHostFields` alone, and the command neither reads nor keeps a trace
of them. -/
theorem hostCannotDisturbARunningCommand : Obligations.HostCannotDisturbARunningCommand := by
  intro s as hs
  have hhost := hostSteps_running as hs
  exact ⟨hhost, fun i t ht => hhost ▸ exec_withHostFields (hostSteps as s) ht⟩

end Sys2Proof.Machine
end

section
/-! PROOFS. The decoder and the encoder (`30_encoding.md` R150 to R155): a word is a command exactly when its fields are the
command's opcode and a zero RSVD. -/

namespace Sys2Proof

theorem CommandWord.toWord_ofWord (w : Word) : (CommandWord.ofWord w).toWord = w :=
  (BitVec.extractLsb'_append_extractLsb'_eq_extractLsb' rfl).trans BitVec.extractLsb'_eq_self

theorem CommandWord.op_ofWord_toNat (w : Word) : (CommandWord.ofWord w).op.toNat = w.toNat % 16 := by
  simp [CommandWord.ofWord]

theorem CommandWord.rsvd_ofWord_eq_zero (w : Word) : (CommandWord.ofWord w).rsvd = 0 ↔ w.toNat / 16 = 0 := by
  have hw := w.isLt
  rw [← BitVec.toNat_inj]
  simp only [CommandWord.ofWord, BitVec.extractLsb'_toNat, Nat.shiftRight_eq_div_pow, BitVec.ofNat_eq_ofNat,
    BitVec.toNat_ofNat]
  omega

/-- The fields of a command's word (`30_encoding.md` R152). -/
theorem CommandWord.ofWord_encode (i : Instr) : CommandWord.ofWord (encode i) = ⟨opOf i, 0⟩ := by
  cases i <;> decide

/-- The opcodes are the numbers below 7 (`30_encoding.md` R152). -/
theorem exists_opOf_eq_iff (o : BitVec 4) : (∃ i, o = opOf i) ↔ o.toNat < 7 := by
  constructor
  · rintro ⟨i, rfl⟩
    cases i <;> decide
  · intro h
    have hmem : o ∈ [Instr.nop, .count, .build, .pack, .encode, .decode, .ctclr].map opOf := by
      revert o
      decide
    obtain ⟨i, -, hi⟩ := List.mem_map.1 hmem
    exact ⟨i, hi.symm⟩

theorem decode_eq_ok_iff_fields (w : Word) (i : Instr) :
    decode w = .ok i ↔ (CommandWord.ofWord w).rsvd = 0 ∧ (CommandWord.ofWord w).op = opOf i := by
  by_cases hr : (CommandWord.ofWord w).rsvd = 0
  · simp only [decode, hr, ne_eq, not_true_eq_false, if_false, true_and]
    generalize (CommandWord.ofWord w).op = o
    revert o
    cases i <;> decide
  · simp only [decode, ne_eq, hr, not_false_eq_true, if_true, reduceCtorEq, false_and]

theorem decode_eq_ok_iff (w : Word) (i : Instr) : decode w = .ok i ↔ w = encode i := by
  rw [decode_eq_ok_iff_fields]
  constructor
  · rintro ⟨hr, ho⟩
    rw [← CommandWord.toWord_ofWord w, encode, ← hr, ← ho]
  · rintro rfl
    simp [CommandWord.ofWord_encode]

theorem decode_encode (i : Instr) : decode (encode i) = .ok i := (decode_eq_ok_iff _ i).2 rfl

theorem exists_decode_eq_ok_iff (w : Word) : (∃ i, decode w = .ok i) ↔ w.toNat / 16 = 0 ∧ w.toNat % 16 < 7 := by
  simp only [decode_eq_ok_iff_fields, exists_and_left, exists_opOf_eq_iff, CommandWord.rsvd_ofWord_eq_zero,
    CommandWord.op_ofWord_toNat]

/-- The illegal words (`30_encoding.md` R154). -/
theorem exists_decode_eq_error_iff (w : Word) :
    (∃ why, decode w = .error why) ↔ w.toNat / 16 ≠ 0 ∨ 7 ≤ w.toNat % 16 := by
  have hex : (∃ why, decode w = .error why) ↔ ¬ ∃ i, decode w = .ok i := by
    cases decode w <;> simp
  rw [hex, exists_decode_eq_ok_iff]
  omega

/-- A word as a row of the opcode table decodes as the word does (`30_encoding.md` R151). -/
theorem decodeTableWord_toNat {w : Word} {i : Instr} (h : decode w = .ok i) : decodeTableWord 32 w.toNat = some i := by
  simp only [decodeTableWord, Nat.mod_eq_of_lt w.isLt, w.isLt, if_true, BitVec.ofNat_toNat, BitVec.setWidth_eq, h]

/-- Settles O1: each clause is `decode_eq_ok_iff` at one row of the opcode map, the last one says which words are none. -/
theorem legalWordsAreTheSevenCommandWords : Obligations.LegalWordsAreTheSevenCommandWords := fun w =>
  ⟨decode_eq_ok_iff w .nop, decode_eq_ok_iff w .count, decode_eq_ok_iff w .build, decode_eq_ok_iff w .pack,
    decode_eq_ok_iff w .encode, decode_eq_ok_iff w .decode, decode_eq_ok_iff w .ctclr, exists_decode_eq_error_iff w⟩

/-- Settles O2, by `decode_encode`. -/
theorem encodedCommandsDecode : Obligations.EncodedCommandsDecode := fun i =>
  ⟨decode_encode i, decodeTableWord_toNat (decode_encode i)⟩

/-- Settles O3: the seven words are those `encode` makes; the others are evaluated. -/
theorem opcodeMapWordsDecode : Obligations.OpcodeMapWordsDecode :=
  ⟨decode_encode .nop, decode_encode .count, decode_encode .build, decode_encode .pack, decode_encode .encode,
    decode_encode .decode, decode_encode .ctclr, by decide⟩

end Sys2Proof
end

section
/-! PROOFS. An illegal word (`30_encoding.md` R154, `47_control_commands.md` R340, R344): it is accepted as any word is, and
its completion reports ILLEGAL_CMD. -/

namespace Sys2Proof.Machine

theorem opOfWord_illegal {w : Word} (h : w.toNat / 16 ≠ 0 ∨ 7 ≤ w.toNat % 16) : opOfWord w = .illegal := by
  obtain ⟨why, hw⟩ := (exists_decode_eq_error_iff w).2 h
  simp only [opOfWord, hw]

theorem issue_idle {s : State} (w : Word) (h : s.phase = .idle) : issue w s = accept w s := by
  simp only [issue, h]

theorem issue_run {s : State} (w : Word) (h : s.phase = .run) : issue w s = refuse s := by
  simp only [issue, h]

theorem steps_succ {s t : State} (k : Nat) (h : step s = .next t) : steps (k + 1) s = steps k t := by
  rw [steps, h]

/-- A host's write to CMD issues the word. -/
theorem step_write_cmd {s : State} {w : Word} {ts : List Turn} (h : s.schedule = .host (.write 0x00C w) :: ts) :
    step s = .next (issue w { s with schedule := ts }) := by
  rw [step_host h]
  exact congrArg Host.Outcome.next (hostWrite_unguarded _ (r := .cmd) w rfl)

theorem engineStep_command {s : State} {i : Instr} (hrun : s.phase = .run) (hop : s.op = .command i) :
    engineStep s = exec i s := by
  simp only [engineStep, hrun, hop]

theorem engineStep_illegal {s : State} (hrun : s.phase = .run) (hop : s.op = .illegal) :
    engineStep s = .next (reportError .illegalCmd 0 s) := by
  simp only [engineStep, hrun, hop, execIllegal, illegalBody, complete_raise]

/-- Settles O5: acceptance makes ENGINE.op ILLEGAL, whose completion writes nothing but the report. -/
theorem illegalWordsCompleteWithIllegalCmd : Obligations.IllegalWordsCompleteWithIllegalCmd := by
  intro s w ts hw
  refine ⟨fun hidle h => ?_, fun hrun h => ?_⟩
  · have haccept : step s = .next (accept w { s with schedule := .engine :: ts }) :=
      (step_write_cmd h).trans (congrArg _ (issue_idle w hidle))
    have hengine : step (accept w { s with schedule := .engine :: ts })
        = .next (reportError .illegalCmd 0 (accept w { s with schedule := ts })) :=
      (step_engine rfl).trans (engineStep_illegal (s := accept w { s with schedule := ts }) rfl (opOfWord_illegal hw))
    rw [steps_succ 1 haccept, steps_succ 0 hengine, steps, reportError, accept, opOfWord_illegal hw, hidle]
    rfl
  · exact (step_write_cmd h).trans (congrArg _ (issue_run w hrun))

end Sys2Proof.Machine
end

section
/-! PROOFS. SETCT (`30_encoding.md` R157): two writes select an entry and set its LEN, eight replace its CODE. -/

namespace Sys2Proof.Machine

theorem set_get {α : Type} (t : Table α) (x : Symbol) : Table.set t x (Table.get t x) = t :=
  Vector.set_getElem_self x.isLt

/-- A byte as the word a host writes stores itself in an 8-bit field (`10_state.md` R35). -/
theorem setWidth_setWidth_byte (b : BitVec 8) : (b.setWidth 32).setWidth 8 = b := by
  rw [BitVec.setWidth_setWidth_of_le b (by decide), BitVec.setWidth_eq]

/-- A turn of `WR r, v` on an idle engine. -/
theorem steps_wr {s : State} {r : Reg} {v : Word} {ts : List Turn} (k : Nat) (hidle : s.phase = .idle)
    (h : s.schedule = wr r v :: ts) : steps (k + 1) s = steps k (writeReg v { s with schedule := ts } r) := by
  rw [steps_host k h, hostWrite_idle (s := { s with schedule := ts }) hidle]

/-- The entry with words `ks` of CODE those of `v`. -/
def CtEntry.withCodeWords (e : CtEntry) (v : Code) (ks : List (Fin 8)) : CtEntry :=
  { e with code := ks.foldl (fun u k => setCodeWord u k (codeWord v k)) e.code }

theorem CtEntry.withCodeWords_all (e : CtEntry) (v : Code) : e.withCodeWords v (List.finRange 8) = ⟨e.len, v⟩ := by
  rw [CtEntry.withCodeWords, setCodeWord_all]

/-- Writes of words `ks` of CODE, one turn each, change the selected entry alone. -/
theorem steps_wr_ctCode {s : State} (v : Code) (ks : List (Fin 8)) {ts : List Turn} (hidle : s.phase = .idle)
    (h : s.schedule = (ks.map fun k => wr (.ctCode k) (codeWord v k)) ++ ts) :
    steps ks.length s = .next (setSelected { s with schedule := ts }
      ((Table.get s.ct s.ctSel).withCodeWords v ks)) := by
  induction ks generalizing s with
  | nil =>
    have hs : s = { s with schedule := ts } := by rw [← show s.schedule = ts from h]
    have he : (Table.get s.ct s.ctSel).withCodeWords v [] = Table.get s.ct s.ctSel := rfl
    rw [he, setSelected, set_get]
    exact congrArg _ hs
  | cons k ks ih =>
    refine (steps_wr ks.length hidle h).trans ((ih (by exact hidle) rfl).trans ?_)
    simp only [writeReg, setSelected, get_set_self, set_set, CtEntry.withCodeWords, List.foldl_cons]

/-- Settles O54: the first two writes select the entry and set LEN, and eight words are all of CODE. -/
theorem setctWritesOneEntry : Obligations.SetctWritesOneEntry := by
  intro s x len v ts hidle h
  refine (steps_wr 9 hidle h).trans ((steps_wr 8 (by exact hidle) rfl).trans
    ((steps_wr_ctCode v (List.finRange 8) (by exact hidle) rfl).trans ?_))
  simp only [CtEntry.withCodeWords_all, writeReg, setSelected, get_set_self, set_set, setWidth_setWidth_byte]

end Sys2Proof.Machine
end

section
/-! PROOFS. A WAIT ends (`30_encoding.md` R157, `70_reset_and_hazards.md` R461): in a state that meets the invariant the
engine's step always completes the running command, and the next read of STATUS has BUSY 0. -/

namespace Sys2Proof.Machine

/-- A completion of `s` ends IDLE with DONE 1, and neither the schedule nor the log of reads is its to change. -/
structure Completes (s t : State) : Prop where
  phase : t.phase = .idle
  done : t.done = true
  schedule : t.schedule = s.schedule
  reads : t.reads = s.reads

theorem completes_reportError (c : ErrorCode) (p : Nat) (s : State) : Completes s (reportError c p s) :=
  ⟨rfl, rfl, rfl, rfl⟩

theorem completes_of_exec {i : Instr} {s t : State} (h : exec i s = .next t) : Completes s t := by
  rw [exec_eq] at h
  rcases complete_cases h with ⟨u, hu, rfl⟩ | ⟨c, p, -, rfl⟩
  · rw [bodyOf_control hu]
    exact ⟨rfl, rfl, rfl, rfl⟩
  · exact completes_reportError c p s

/-- The only fault, BUILD's pop of an empty queue, needs an empty ORDER beside a positive NDIST (`60_exceptions.md` R407). -/
theorem exists_exec_next {s : State} (h : s.Inv) (i : Instr) : ∃ t, exec i s = .next t := by
  rw [exec_eq]
  cases hb : bodyOf i s with
  | ok u => exact ⟨_, rfl⟩
  | error e =>
    rcases bodyOf_error hb with ⟨c, p, rfl, -, -⟩ | ⟨-, hn, hr, -⟩
    · exact ⟨_, rfl⟩
    · exact absurd hr (h.ranked_ne_nil hn)

theorem exists_engineStep_completes {s : State} (h : s.Inv) (hrun : s.phase = .run) :
    ∃ t, engineStep s = .next t ∧ Completes s t := by
  cases hop : s.op with
  | command i =>
    obtain ⟨t, ht⟩ := exists_exec_next h i
    exact ⟨t, (engineStep_command hrun hop).trans ht, completes_of_exec ht⟩
  | illegal => exact ⟨_, engineStep_illegal hrun hop, completes_reportError _ _ s⟩

theorem step_wait_idle {s : State} {n : Nat} {ts : List Turn} (h : s.schedule = .wait n :: ts) (hidle : s.phase = .idle) :
    step s = .next { s with schedule := ts, reads := statusWord s :: s.reads } :=
  (step_wait h).trans (waitTurn_idle n (s := { s with schedule := ts }) hidle)

/-- With no polls left, a WAIT on a running engine takes the completion step and reads STATUS once more. -/
theorem exists_steps_wait_end {s : State} {ts : List Turn} (h : s.Inv) (hrun : s.phase = .run)
    (hs : s.schedule = .wait 0 :: ts) : ∃ u, Completes s u ∧
      steps 2 s = .next { u with schedule := ts, reads := statusWord u :: s.reads } := by
  obtain ⟨u, hu, hc⟩ := exists_engineStep_completes h hrun
  have hengine : step s = .next u := by
    rw [step_wait hs, waitTurn_engine (s := { s with schedule := ts }) hrun, ← hu, ← hs]
  have hread := step_wait_idle (hc.schedule.trans hs) hc.phase
  exact ⟨u, hc, by rw [steps_succ 1 hengine, steps_succ 0 hread, steps, hc.reads]⟩

/-- Settles O55: the polls read BUSY 1, the completion falls after them, and the last read finds the engine IDLE. -/
theorem waitEndsWithBusyClear : Obligations.WaitEndsWithBusyClear := by
  intro s polls e ts hinv h
  refine ⟨fun hidle => ⟨?_, step_wait_idle h hidle⟩, fun hrun => ⟨?_, ?_⟩⟩
  · rw [(statusWord_bits s).1, State.busy, hidle]
  · rw [(statusWord_bits s).1, State.busy, hrun]
  · obtain ⟨u, hc, hu⟩ := exists_steps_wait_end (s := { s with
      schedule := .wait 0 :: ts, reads := List.replicate polls (statusWord s) ++ s.reads }) { hinv with } hrun rfl
    obtain ⟨hbusy, hdone, -, -⟩ := statusWord_bits u
    refine ⟨_, statusWord u, (steps_wait_polls polls 2 h hrun).trans hu, rfl, hc.phase, hc.done, ?_, ?_, rfl⟩
    · rw [hbusy, State.busy, hc.phase]
    · rw [hdone, hc.done]

end Sys2Proof.Machine
end

section
/-! PROOFS. COUNT (`41_frequency_table.md` R201, R203): the input fits and is tallied, or it is refused as a whole. -/

namespace Sys2Proof.Machine

theorem exec_count_of_fits {s : State} (h : s.inLen.toNat ≤ s.cfg.inDepth) :
    exec .count s = .next (succeeded (counted s)) := by
  rw [exec_eq, bodyOf, countBody_eq, if_neg h.not_gt, complete_ok]
  rfl

theorem exec_count_of_too_long {s : State} (h : s.cfg.inDepth < s.inLen.toNat) :
    exec .count s = .next (failed s .length 0) := by
  rw [exec_eq, bodyOf, countBody_eq, if_pos h, complete_raise]
  rfl

/-- Settles O11: the length test comes before any write. -/
theorem countRefusesALongInput : Obligations.CountRefusesALongInput := fun _ => exec_count_of_too_long

/-- Settles O10: the completed state holds the tally of an input whose length fits a 32-bit count. -/
theorem countBuildsTheFrequencyTable : Obligations.CountBuildsTheFrequencyTable := by
  intro s hfits
  have hlen := input_length_lt s
  obtain ⟨hmem, hfirst⟩ := tally_order hlen
  exact ⟨succeeded (counted s), exec_count_of_fits hfits, rfl, tally_freq_toNat hlen, hmem, hfirst,
    counted_ndist s, counted_total s⟩

end Sys2Proof.Machine
end

section
/-! PROOFS. The priority queue (`42_priority_queue.md` R220 to R225): where push inserts, the order push and pop keep, and the
keyed form, which pops the same nodes. -/

namespace Sys2Proof.Machine

/-- Settles O12: the insertion point is the length of the part before the new node. -/
theorem pushInsertsBeforeTheFirstLighterNode : Obligations.PushInsertsBeforeTheFirstLighterNode := by
  intro n q
  obtain ⟨a, b, rfl, hpush, hbefore, hafter⟩ := push_split n q
  refine ⟨a.length, by simp, ?_, ?_, ?_⟩
  · rw [List.take_left, List.drop_left, hpush]
  · rw [List.take_left]
    exact fun m hm => (hbefore m hm).not_gt
  · rwa [List.drop_left]

/-- What stands before the tail of a descending queue is descending, and nothing in it is lighter than the tail. -/
theorem Queue.Descending.of_append_singleton {q : Queue} {n : Node} (h : Queue.Descending (q ++ [n])) :
    Queue.Descending q ∧ ∀ m ∈ q, n.weight ≤ m.weight := by
  obtain ⟨hq, -, htail⟩ := List.pairwise_append.1 h
  exact ⟨hq, fun m hm => htail m hm n (List.mem_singleton_self n)⟩

/-- Settles O13: pop removes the tail, the lightest end of a descending queue. -/
theorem queueStaysDescending : Obligations.QueueStaysDescending := by
  refine fun q hq => ⟨fun n => push_descending n hq, fun n q' hpop => ?_, pop_eq_none⟩
  obtain rfl := pop_eq_some.1 hpop
  exact ⟨rfl, Queue.Descending.of_append_singleton hq⟩

/-! ### The keyed form -/

/-- In a descending queue every node after the insertion point is lighter than the node pushed, not only the first. -/
theorem push_split_of_descending (n : Node) {q : Queue} (h : Queue.Descending q) :
    ∃ a b, q = a ++ b ∧ push n q = a ++ n :: b ∧ (∀ m ∈ a, n.weight ≤ m.weight) ∧ ∀ m ∈ b, m.weight < n.weight := by
  obtain ⟨a, b, rfl, hpush, hbefore, hhead⟩ := push_split n q
  refine ⟨a, b, rfl, hpush, hbefore, ?_⟩
  cases b with
  | nil => simp
  | cons m b =>
    have hm : m.weight < n.weight := hhead m rfl
    obtain ⟨-, hb, -⟩ := List.pairwise_append.1 h
    exact List.forall_mem_cons.2 ⟨hm, fun x hx => (List.rel_of_pairwise_cons hb hx).trans_lt hm⟩

theorem popsBefore_iff {a b : Nat × Node} :
    popsBefore a b = true ↔ a.2.weight < b.2.weight ∨ a.2.weight = b.2.weight ∧ b.1 < a.1 := by
  simp [popsBefore]

theorem KeyedQueue.pop_of_empty {k : KeyedQueue} (h : k.nodes = []) : k.pop = none := by
  simp [KeyedQueue.pop, h]

/-- A keyed pop removes the node that pops before all others. -/
theorem KeyedQueue.pop_of_first {k : KeyedQueue} {e : Nat × Node} (he : e ∈ k.nodes)
    (hfirst : ∀ x ∈ k.nodes, x ≠ e → popsBefore e x = true) :
    k.pop = some (e.2, ⟨k.nodes.erase e, k.next⟩) := by
  obtain ⟨nodes, next⟩ := k
  cases nodes with
  | nil => cases he
  | cons a bs => simp only [KeyedQueue.pop, firstToPop_eq he hfirst]

/-- `l` is the bag of a keyed queue in the order in which the list queue holds its nodes, the next to pop at the tail
(`42_priority_queue.md` R225): the weights fall and the nodes of one weight stand in the order of their pushes. -/
structure KeyedQueue.Lists (k : KeyedQueue) (l : List (Nat × Node)) : Prop where
  perm    : l.Perm k.nodes
  ordered : l.Pairwise fun a b => popsBefore b a = true
  fresh   : ∀ e ∈ l, e.1 < k.next

namespace KeyedQueue.Lists

theorem nil : KeyedQueue.Lists ⟨[], 0⟩ [] := ⟨.nil, .nil, by simp⟩

/-- The nodes listed are a descending queue. -/
theorem descending {k : KeyedQueue} {l : List (Nat × Node)} (h : k.Lists l) : Queue.Descending (l.map Prod.snd) := by
  refine List.pairwise_map.2 (h.ordered.imp fun hab => ?_)
  rcases popsBefore_iff.1 hab with hlt | ⟨heq, -⟩
  · exact hlt.le
  · exact heq.le

/-- A push on both queues: the new number is the greatest, so the node stands right after those of its weight. -/
theorem push {k : KeyedQueue} {l : List (Nat × Node)} (h : k.Lists l) (n : Node) :
    ∃ l', Machine.push n (l.map Prod.snd) = l'.map Prod.snd ∧ (k.push n).Lists l' := by
  obtain ⟨a, b, hab, hpush, hbefore, hafter⟩ := push_split_of_descending n h.descending
  obtain ⟨a, b, rfl, rfl, rfl⟩ := List.map_eq_append_iff.1 hab
  obtain ⟨hperm, hord, hfresh⟩ := h
  obtain ⟨ha, hb, hcross⟩ := List.pairwise_append.1 hord
  have hheavier : ∀ x ∈ a, popsBefore (k.next, n) x = true := fun x hx =>
    popsBefore_iff.2 <| (hbefore x.2 (List.mem_map_of_mem hx)).lt_or_eq.imp_right fun hw =>
      ⟨hw, hfresh x (List.mem_append_left b hx)⟩
  have hlighter : ∀ y ∈ b, popsBefore y (k.next, n) = true := fun y hy =>
    popsBefore_iff.2 (.inl (hafter y.2 (List.mem_map_of_mem hy)))
  refine ⟨a ++ (k.next, n) :: b, hpush.trans (by simp), List.perm_middle.trans (hperm.cons _), ?_, ?_⟩
  · exact List.pairwise_append.2 ⟨ha, List.pairwise_cons.2 ⟨hlighter, hb⟩, fun x hx =>
      List.forall_mem_cons.2 ⟨hheavier x hx, hcross x hx⟩⟩
  · intro e he
    rcases List.mem_cons.1 (List.perm_middle.mem_iff.1 he) with rfl | he
    · exact Nat.lt_succ_self k.next
    · exact Nat.lt_succ_of_lt (hfresh e he)

/-- A pop of the keyed queue takes the tail of the list. -/
theorem pop {k : KeyedQueue} {l : List (Nat × Node)} {e : Nat × Node} (h : k.Lists (l ++ [e])) :
    ∃ k', k.pop = some (e.2, k') ∧ k'.Lists l := by
  obtain ⟨hperm, hord, hfresh⟩ := h
  obtain ⟨hl, -, htail⟩ := List.pairwise_append.1 hord
  have hfirst : ∀ x ∈ k.nodes, x ≠ e → popsBefore e x = true := fun x hx hne => by
    have hx : x ∈ l := by simpa [hne] using hperm.mem_iff.2 hx
    exact htail x hx e (List.mem_singleton_self e)
  have hrest : l.Perm (k.nodes.erase e) := by
    simpa using ((List.perm_append_singleton e l).symm.trans hperm).erase e
  have he : e ∈ k.nodes := hperm.mem_iff.1 (by simp)
  exact ⟨_, pop_of_first he hfirst, hrest, hl, fun x hx => hfresh x (List.mem_append_left _ hx)⟩

theorem pop_nil {k : KeyedQueue} (h : k.Lists []) : k.pop = none := pop_of_empty h.perm.nil_eq.symm

/-- The two queues pop the same nodes from any pair of queues with the same contents. -/
theorem listPops_eq_keyedPops {k : KeyedQueue} {l : List (Nat × Node)} (h : k.Lists l) (script : List QueueOp) :
    listPops (l.map Prod.snd) script = keyedPops k script := by
  induction script generalizing k l with
  | nil => rfl
  | cons op ops ih =>
    cases op with
    | push n =>
      obtain ⟨l', hpush, h'⟩ := h.push n
      rw [listPops, keyedPops, hpush, ih h']
    | pop =>
      rcases List.eq_nil_or_concat' l with rfl | ⟨l, e, rfl⟩
      · simp only [listPops, keyedPops, List.map_nil, Machine.pop_nil, h.pop_nil]
        exact congrArg _ (ih h)
      · obtain ⟨k', hpop, h'⟩ := h.pop
        simp only [listPops, keyedPops, List.map_append, List.map_singleton, pop_append, hpop, ih h']

end KeyedQueue.Lists

/-- Settles O14: the two empty queues have the same contents, and every operation keeps them so. -/
theorem listQueuePopsWhatTheKeyedQueuePops : Obligations.ListQueuePopsWhatTheKeyedQueuePops :=
  KeyedQueue.Lists.nil.listPops_eq_keyedPops

end Sys2Proof.Machine
end

section
/-! PROOFS. BUILD (`43_tree_builder.md` R240 to R249): the merge loop leaves the merged tree, its paths are the codes of the
table, and FREQ, ORDER and NDIST decide all of it. -/

namespace Sys2Proof.Machine

/-! ### The merged tree -/

/-- A pass that answers found two nodes at the tail and pushed their parent. -/
theorem mergeOnce_eq_some {q q' : Queue} (h : mergeOnce q = some q') :
    ∃ rest left right, q = rest ++ [right, left] ∧
      q' = push (.internal (left.weight + right.weight) left right) rest := by
  rw [mergeOnce] at h
  split at h
  · cases h
  next left q1 hleft =>
    split at h
    · cases h
    next right rest hright =>
      cases h
      obtain rfl := pop_eq_some.1 hleft
      obtain rfl := pop_eq_some.1 hright
      exact ⟨rest, left, right, by simp, rfl⟩

/-- With passes enough for all but one of the nodes, the tail the merge loop leaves is the root of the merges. -/
theorem mergesTo_of_mergeLoop {fuel : Nat} {q q' : Queue} {root : Node} (hfuel : q.length ≤ fuel + 1)
    (h : mergeLoop fuel q = some (q' ++ [root])) : MergesTo q root := by
  have hstop : ∀ q : Queue, q.length ≤ 1 → some q = some (q' ++ [root]) → MergesTo q root := by
    rintro _ hlen ⟨⟩
    obtain rfl : q' = [] := by simpa using hlen
    exact .root root
  induction fuel generalizing q with
  | zero => exact hstop q hfuel h
  | succ fuel ih =>
    rw [mergeLoop] at h
    split at h
    · split at h
      · cases h
      next hm =>
        obtain ⟨rest, left, right, rfl, rfl⟩ := mergeOnce_eq_some hm
        exact .merge rest left right root (ih (by simp at hfuel ⊢; omega) h)
    next hone => exact hstop q (not_lt.1 hone) h

theorem mergesTo_of_buildTree {freq : Table Word} {order : List Symbol} {root : Node}
    (h : buildTree freq order = some root) : MergesTo (pushLeaves freq order) root := by
  rw [buildTree, mergeAll] at h
  split at h
  · cases h
  next q hloop =>
    obtain ⟨⟨n, q'⟩, hpop, rfl⟩ := Option.map_eq_some_iff.1 h
    obtain rfl := pop_eq_some.1 hpop
    exact mergesTo_of_mergeLoop (Nat.le_succ _) hloop

/-! ### The codes of the tree -/

theorem Node.follow_path (n : Node) {e : Symbol × BitString} (h : e ∈ n.paths) : n.follow e.2 = some e.1 := by
  induction n generalizing e with
  | leaf sym w =>
    obtain rfl := List.mem_singleton.1 h
    rfl
  | internal w left right ihl ihr =>
    rcases List.mem_append.1 h with h | h <;> obtain ⟨f, hf, rfl⟩ := List.mem_map.1 h
    · exact ihl hf
    · exact ihr hf

theorem exists_mem_genCodes {root : Node} {x : Symbol} (hx : x ∈ root.leaves) : ∃ e ∈ genCodes root, e.1 = x := by
  rwa [← map_fst_genCodes, List.mem_map] at hx

/-- The code of a leaf root (`44_code_table.md` R261). -/
theorem genCodes_of_one_leaf {root : Node} (h : root.leaves.length = 1) {e : Symbol × BitString}
    (he : e ∈ genCodes root) : e.2 = [false] := by
  obtain ⟨sym, w, rfl⟩ := Node.eq_leaf h
  rw [genCodes_eq] at he
  obtain rfl := List.mem_singleton.1 he
  rfl

theorem follow_genCodes {root : Node} (h : root.leaves.length ≠ 1) {e : Symbol × BitString} (he : e ∈ genCodes root) :
    root.follow e.2 = some e.1 := by
  cases root with
  | leaf sym w => exact absurd rfl h
  | internal w left right =>
    rw [genCodes_eq] at he
    exact Node.follow_path _ he

/-- A code that fits CODE is its base-2 integer there (`44_code_table.md` R262). -/
theorem toNat_code_entryOf {bs : BitString} (h : bs.length ≤ 255) : (entryOf (some bs)).code.toNat = val bs :=
  Nat.mod_eq_of_lt ((val_lt bs).trans_le (Nat.pow_le_pow_right two_pos (by omega)))

/-- CODE of an entry write_table writes is its code as a base-2 integer. -/
theorem toNat_code_writeTable {root : Node} (hn : root.leaves.Nodup) (hc : root.leaves.length ≤ 256)
    {e : Symbol × BitString} (he : e ∈ genCodes root) :
    (Table.get (writeTable (genCodes root)) e.1).code.toNat = val e.2 := by
  have hlen := (genCodes_length he).2
  rw [writeTable, get_tabulate, codeIn_of_mem (by rwa [map_fst_genCodes]) he, toNat_code_entryOf (by omega)]

/-! ### What BUILD answers -/

theorem exec_build_of_tree {s : State} {root : Node} (h0 : s.ndist ≠ 0) (hb : buildTree s.freq s.ranked = some root) :
    exec .build s = .next (succeeded (built s root)) := by
  rw [exec_eq, bodyOf, buildBody, if_neg h0, hb]
  rfl

/-- A BUILD that reports no error wrote the codes of the tree of its table. -/
theorem exec_build_success {s t : State} (h : exec .build s = .next t) (he : t.errCode = .none) :
    ∃ root, s.ndist ≠ 0 ∧ buildTree s.freq s.ranked = some root ∧ t = succeeded (built s root) := by
  rw [exec_eq, bodyOf] at h
  rcases buildBody_cases s with ⟨-, hb⟩ | ⟨-, -, hb⟩ | ⟨root, h0, htree, hb, -⟩ <;> rw [hb] at h <;> cases h
  · cases he
  · exact ⟨root, h0, htree, rfl⟩

/-- Settles O19: the emptiness test comes before any write. -/
theorem buildRefusesAnEmptyTable : Obligations.BuildRefusesAnEmptyTable := by
  intro s h
  rw [exec_eq, bodyOf, buildBody_empty h]
  rfl

/-- Settles O20: the two BUILDs build the same tree. -/
theorem buildDependsOnTheFrequencyTableOnly : Obligations.BuildDependsOnTheFrequencyTableOnly := by
  intro s t a b hfreq horder hndist ha hb he
  obtain ⟨root, h0, htree, rfl⟩ := exec_build_success ha he
  have hranked : s.ranked = t.ranked := by rw [State.ranked, State.ranked, horder, hndist]
  have ht := exec_build_of_tree (hndist ▸ h0) (hfreq ▸ hranked ▸ htree)
  cases hb.symm.trans ht
  exact ⟨rfl, rfl, rfl, rfl⟩

/-- Settles O18: a tree of k leaves has 2k - 1 nodes and no path of k bits, and there are at most 256 distinct symbols. -/
theorem treeFitsTheNodeStoreAndTheLenField : Obligations.TreeFitsTheNodeStoreAndTheLenField := by
  intro freq order hne hnodup
  obtain ⟨root, htree, hperm, -⟩ := buildTree_spec freq hne
  have hcount := root.count_eq
  have hmax := maxCodeLen_le root
  have hsyms := length_le_of_nodup hnodup
  rw [hperm.length_eq] at hcount hmax
  refine ⟨root, htree, hperm, hcount, ?_, hmax, ?_⟩
  · rw [Config.nodeCap]; omega
  · rw [Config.maxCodeLen]; omega

/-- Settles O17: the counts of the input's symbols sum to its length, which fits 32 bits. -/
theorem rootWeightIsTheInputLength : Obligations.RootWeightIsTheInputLength := by
  intro s hpos hfits
  have h0 : s.inLen ≠ 0 := fun h => by simp [h] at hpos
  obtain ⟨root, htree, -, -, -, hweight, -⟩ := encode_tree h0
  rw [← counted_ranked] at htree
  have hbuild := exec_build_of_tree (s := succeeded (counted s)) (mt (counted_ndist_eq_zero s).1 h0) htree
  refine ⟨_, _, exec_count_of_fits hfits, hbuild, rfl, ?_⟩
  show BitVec.ofNat 32 root.weight = s.inLen
  rw [hweight, BitVec.ofNat_toNat, BitVec.setWidth_eq]

/-- Settles O15: the leaves of the merged tree are the symbols of ORDER, and gen_codes gives each its path. -/
theorem buildWritesThePathsOfTheMergedTree : Obligations.BuildWritesThePathsOfTheMergedTree := by
  intro s h0 hlen hnodup
  have hranked := ranked_eq hlen
  have hne : s.order ≠ [] := fun h => ndist_ne_zero h0 (by simp [hlen, h])
  obtain ⟨root, htree, hperm, -⟩ := buildTree_spec s.freq hne
  have hn : root.leaves.Nodup := hperm.nodup_iff.2 hnodup
  have hc : root.leaves.length ≤ 256 := length_le_of_nodup hn
  have htab := writeTable_spec hn hc
  obtain ⟨hmaxLe, ⟨deepest, hdeepest, hmax⟩, hmaxLt⟩ := maxCodeLen_spec hn hc
  have hmaxLen : (succeeded (built s root)).maxLen.toNat = maxCodeLen (genCodes root) := Nat.mod_eq_of_lt hmaxLt
  refine ⟨succeeded (built s root), root, exec_build_of_tree h0 (by rwa [hranked]), rfl, mergesTo_of_buildTree htree,
    fun x hx => ?_, ⟨deepest, hperm.mem_iff.1 hdeepest, hmax.trans hmaxLen.symm⟩,
    fun x hx => htab.absent x (mt hperm.mem_iff.1 hx), rfl⟩
  rw [← hperm.mem_iff] at hx
  obtain ⟨e, he, rfl⟩ := exists_mem_genCodes hx
  have hcode : codeOf (succeeded (built s root)).ct e.1 = e.2 := htab.code e he
  refine ⟨(htab.present e.1).2 hx, ?_, ?_, ?_, (hmaxLe e.1).trans_eq hmaxLen.symm⟩ <;> rw [hcode]
  · exact fun hone => genCodes_of_one_leaf (hperm.length_eq.trans hone) he
  · exact fun hmany => follow_genCodes (hperm.length_eq.trans_ne hmany) he
  · exact toNat_code_writeTable hn hc he

end Sys2Proof.Machine
end

section
/-! PROOFS. The code table (`44_code_table.md` R264, R267): the codes of a tree fill the code space and none begins another,
and CTCLR empties the table. -/

namespace Sys2Proof.Machine

/-! ### The table of a tree -/

/-- The present codes are those of gen_codes, none of which is the beginning of another. -/
theorem TreeTable.prefixFree {root : Node} {ct : Table CtEntry} (h : TreeTable root ct) (hn : root.leaves.Nodup) :
    PrefixFree ct := by
  intro x y hne hx hy
  obtain ⟨e, he, rfl⟩ := exists_mem_genCodes ((h.present x).1 hx)
  obtain ⟨f, hf, rfl⟩ := exists_mem_genCodes ((h.present y).1 hy)
  rw [h.code e he, h.code f hf]
  exact genCodes_prefixFree hn he hf hne

theorem TreeTable.presentSymbols_perm {root : Node} {ct : Table CtEntry} (h : TreeTable root ct)
    (hn : root.leaves.Nodup) : (presentSymbols ct).Perm root.leaves :=
  (List.perm_ext_iff_of_nodup (presentSymbols_nodup ct) hn).2 fun x => (mem_presentSymbols ct x).trans (h.present x)

/-- The codes of gen_codes fill the code space, but the one-bit code of a leaf root fills half of it. -/
theorem kraft_genCodes {root : Node} (hc : root.leaves.length ≤ 256) :
    ((genCodes root).map fun e => 2 ^ (255 - e.2.length)).sum
      = if root.leaves.length = 1 then 2 ^ 254 else 2 ^ 255 := by
  cases root with
  | leaf sym w => simp [genCodes_eq, Node.leaves]
  | internal w left right =>
    have hlen : ∀ e ∈ (Node.internal w left right).paths, e.2.length ≤ 255 := fun e he => by
      have := Node.length_path_lt _ he; omega
    have hmany : (Node.internal w left right).leaves.length ≠ 1 := fun h => by
      obtain ⟨sym, v, hleaf⟩ := Node.eq_leaf h
      cases hleaf
    rw [genCodes_eq, if_neg hmany]
    exact Node.kraft _ hlen

theorem TreeTable.kraft {root : Node} {ct : Table CtEntry} (h : TreeTable root ct) (hn : root.leaves.Nodup)
    (hc : root.leaves.length ≤ 256) :
    ((presentSymbols ct).map fun x => 2 ^ (255 - (Table.get ct x).len.toNat)).sum
      = if root.leaves.length = 1 then 2 ^ 254 else 2 ^ 255 := by
  calc ((presentSymbols ct).map fun x => 2 ^ (255 - (Table.get ct x).len.toNat)).sum
      = ((genCodes root).map fun e => 2 ^ (255 - (Table.get ct e.1).len.toNat)).sum := by
        rw [((h.presentSymbols_perm hn).map _).sum_eq, ← map_fst_genCodes, List.map_map]; rfl
    _ = ((genCodes root).map fun e => 2 ^ (255 - e.2.length)).sum := by
        refine congrArg List.sum (List.map_congr_left fun e he => ?_)
        rw [← length_codeOf, h.code e he]
    _ = if root.leaves.length = 1 then 2 ^ 254 else 2 ^ 255 := kraft_genCodes hc

/-! ### What BUILD and ENCODE leave in the table -/

/-- The table is the one of a tree whose leaves are the symbols of ORDER, NDIST distinct ones. -/
def State.TableOfOrder (t : State) : Prop :=
  ∃ root : Node, t.ct = writeTable (genCodes root) ∧ root.leaves.Perm t.order ∧ t.order.Nodup ∧
    t.ndist.toNat = t.order.length

/-- A BUILD of NDIST distinct symbols that reports no error wrote the table of its tree. -/
theorem exec_build_table {s t : State} (hlen : s.ndist.toNat = s.order.length) (hnodup : s.order.Nodup)
    (h : exec .build s = .next t) (he : t.errCode = .none) : t.TableOfOrder := by
  obtain ⟨root, h0, htree, rfl⟩ := exec_build_success h he
  rw [ranked_eq hlen] at htree
  have hne : s.order ≠ [] := fun hnil => ndist_ne_zero h0 (by simp [hlen, hnil])
  obtain ⟨root', htree', hperm, -⟩ := buildTree_spec s.freq hne
  cases htree.symm.trans htree'
  exact ⟨root, rfl, hperm, hnodup, hlen⟩

/-- An ENCODE that reports no error wrote the table of its tree, and ORDER lists the symbols of the input. -/
theorem exec_encode_table {s t : State} (h : exec .encode s = .next t) (he : t.errCode = .none) :
    t.TableOfOrder ∧ ∀ x, x ∈ t.order ↔ x ∈ s.input := by
  obtain ⟨root, -, hperm, -, -, -, rfl⟩ := exec_encode_success h he
  exact ⟨⟨root, rfl, hperm, tally_nodup (input_length_lt s), counted_ndist s⟩, (tally_order (input_length_lt s)).1⟩

/-- Settles O16: either command leaves the table of a tree whose leaves are the symbols of ORDER. -/
theorem generatedTableIsCompleteAndPrefixFree : Obligations.GeneratedTableIsCompleteAndPrefixFree := by
  intro i s t hi h he
  have htree : t.TableOfOrder ∧ (i = .encode → ∀ x, x ∈ t.order ↔ x ∈ s.input) := by
    rcases hi with ⟨rfl, hlen, hnodup⟩ | rfl
    · exact ⟨exec_build_table hlen hnodup h he, nofun⟩
    · exact (exec_encode_table h he).imp_right fun hinput _ => hinput
  obtain ⟨⟨root, hct, hperm, hnodup, hndist⟩, hinput⟩ := htree
  have hn : root.leaves.Nodup := hperm.nodup_iff.2 hnodup
  have hc : root.leaves.length ≤ 256 := length_le_of_nodup hn
  have htab : TreeTable root t.ct := hct ▸ writeTable_spec hn hc
  have hcount : root.leaves.length = t.ndist.toNat := hperm.length_eq.trans hndist.symm
  refine ⟨(htab.presentSymbols_perm hn).length_eq.trans hcount, fun x => (htab.present x).trans hperm.mem_iff, hinput,
    fun _ => codeOf_ne_nil, htab.prefixFree hn, ?_⟩
  rw [htab.kraft hn hc, hcount]

/-! ### CTCLR -/

theorem len_get_clearTable (ct : Table CtEntry) (x : Symbol) : (Table.get (clearTable ct) x).len = 0 := by
  rw [clearTable, get_tabulate]

theorem code_get_clearTable (ct : Table CtEntry) (x : Symbol) :
    (Table.get (clearTable ct) x).code = (Table.get ct x).code := by
  rw [clearTable, get_tabulate]

/-- Settles O9: CTCLR cannot raise, and the table it commits differs from the old one in LEN only. -/
theorem ctclrRemovesEveryEntry : Obligations.CtclrRemovesEveryEntry := fun s =>
  ⟨succeeded { s with ct := clearTable s.ct }, rfl, rfl, fun x =>
    ⟨len_get_clearTable s.ct x, code_get_clearTable s.ct x⟩⟩

end Sys2Proof.Machine
end

section
/-! PROOFS. The bit packer (`45_bit_packer.md` R280 to R287): what PACK writes, the errors it tests for in order, and the
bit string its bytes stand for. -/

namespace Sys2Proof.Machine

/-! ### The bytes of a bit string -/

/-- Settles O23: each byte read back is the group of the bit string that was written. -/
theorem unbytifyInvertsBytify : Obligations.UnbytifyInvertsBytify := by
  intro pk bs hpk
  refine unbytify_of_groups fun j hj => ?_
  rw [Memory.read_writeFrom hpk, if_pos (Nat.zero_le j), Nat.sub_zero, getElem?_bytify bs hj, Option.getD_some]

/-- A bit string of at most one group packs to its base-2 integer. -/
theorem bytify_of_length_le_eight {bs : BitString} (hpos : 0 < bs.length) (hle : bs.length ≤ 8) :
    bytify bs = [BitVec.ofNat 8 (val bs)] := by
  have hone : ceilDiv bs.length 8 = 1 := by rw [ceilDiv]; omega
  rw [bytify, hone, List.range_one, List.map_singleton, group, Nat.mul_zero, List.drop_zero,
    List.take_of_length_le hle]

/-- Settles O24: two bits or more hold the value 3, and unbytify inverts bytify at each of the seven lengths. -/
theorem oneByteStandsForSevenBitStrings : Obligations.OneByteStandsForSevenBitStrings := by
  intro B hlo hhi
  have hval : val (bin B 3) = 3 := by
    rw [val_bin]
    exact Nat.mod_eq_of_lt ((by decide : 3 < 2 ^ 2).trans_le (Nat.pow_le_pow_right two_pos hlo))
  have hbyte : bytify (bin B 3) = [0x03#8] := by
    rw [bytify_of_length_le_eight (by rw [length_bin]; omega) (by rwa [length_bin]), hval]
  have hback := unbytifyInvertsBytify [] (bin B 3) (by simp [Memory.wf])
  rw [hbyte, length_bin] at hback
  exact ⟨hbyte, hback⟩

/-! ### PACK succeeds -/

theorem exec_pack_of_fits {s : State} (hlen : s.inLen.toNat ≤ s.cfg.inDepth)
    (hpresent : ∀ x ∈ s.input, isPresent s.ct x = true)
    (hfit : (stringify s.ct s.input).length ≤ 8 * s.cfg.pkDepth) :
    exec .pack s = .next (succeeded (packed s)) := by
  rw [exec_eq, bodyOf, packBody_ok hlen hpresent hfit, complete_ok]
  rfl

/-- The bits of a bit string that fits PK_MEM are counted in 32 bits. -/
theorem toNat_bitLen_packed {s : State} (hc : s.cfg.wf) (hfit : (stringify s.ct s.input).length ≤ 8 * s.cfg.pkDepth) :
    (packed s).bitLen.toNat = (stringify s.ct s.input).length := by
  obtain ⟨-, ⟨-, hdepth⟩, -⟩ := hc
  exact Nat.mod_eq_of_lt (by omega)

/-- Settles O21: the packed memory holds the groups of the bit string below ceil_div(B, 8) and the old bytes from there. -/
theorem packWritesTheGroupsOfTheBitString : Obligations.PackWritesTheGroupsOfTheBitString := by
  intro s hc hpk hlen hpresent hfit
  have hbits := toNat_bitLen_packed hc hfit
  refine ⟨succeeded (packed s), exec_pack_of_fits hlen (fun x hx => (isPresent_iff s.ct x).2 (hpresent x hx)) hfit, rfl,
    hbits, fun j hj => ?_, fun j => read_pkMem_packed hc hpk hfit⟩
  calc (Memory.read (packed s).pkMem j).toNat
      = (group (stringify s.ct s.input) j).toNat := by
        rw [packed, read_packed hpk, if_pos (hj.trans_eq hbits)]
    _ = val (((stringify s.ct s.input).drop (8 * j)).take 8) := toNat_group _ _

/-! ### PACK fails -/

theorem isPresent_iff_len_ne_zero (ct : Table CtEntry) (x : Symbol) :
    isPresent ct x = true ↔ (Table.get ct x).len ≠ 0 := bne_iff_ne

theorem forall_mem_input {s : State} {p : Symbol → Prop} :
    (∀ x ∈ s.input, p x) ↔ ∀ j < s.inLen.toNat, p (Memory.read s.inMem j) := by
  simp [State.input, Memory.first]

/-- firstUnknown finds the least input index whose symbol has no entry (`45_bit_packer.md` R281). -/
theorem firstUnknown_eq_some {ct : Table CtEntry} {xs : List Symbol} {i : Nat} :
    firstUnknown ct xs = some i ↔
      ∃ h : i < xs.length, ¬ isPresent ct xs[i] = true ∧ ∀ j, (hj : j < i) → isPresent ct xs[j] = true := by
  simp [firstUnknown, List.findIdx?_eq_some_iff_getElem]

theorem firstUnknown_input {s : State} {i : Nat} (hi : i < s.inLen.toNat)
    (habsent : (Table.get s.ct (Memory.read s.inMem i)).len = 0)
    (hbefore : ∀ j < i, (Table.get s.ct (Memory.read s.inMem j)).len ≠ 0) : firstUnknown s.ct s.input = some i := by
  refine firstUnknown_eq_some.2 ⟨by rwa [length_input], ?_, fun j hj => ?_⟩
  · rw [getElem_input, isPresent_iff_len_ne_zero, not_not]
    exact habsent
  · rw [getElem_input, isPresent_iff_len_ne_zero]
    exact hbefore j hj

/-- firstOverflow of a whole input finds the least index at which the running bit count exceeds the limit
(`45_bit_packer.md` R286). -/
theorem firstOverflow_from_zero {ct : Table CtEntry} {limit i : Nat} {xs : List Symbol} (hi : i < xs.length)
    (hover : limit < (stringify ct (xs.take (i + 1))).length)
    (hbefore : ∀ j < i, (stringify ct (xs.take (j + 1))).length ≤ limit) :
    firstOverflow ct limit 0 0 xs = some i := by
  rw [← Nat.zero_add i, firstOverflow_eq_some]
  simp only [Nat.zero_add]
  exact ⟨hi, hover, hbefore⟩

theorem exec_pack_of_too_long {s : State} (h : s.cfg.inDepth < s.inLen.toNat) :
    exec .pack s = .next (failed s .length 0) := by
  rw [exec_eq, bodyOf, packBody, if_pos h, complete_raise]
  rfl

theorem exec_pack_of_unknown {s : State} {i : Nat} (hlen : s.inLen.toNat ≤ s.cfg.inDepth)
    (h : firstUnknown s.ct s.input = some i) : exec .pack s = .next (failed s .unknownSymbol i) := by
  rw [exec_eq, bodyOf, packBody, if_neg hlen.not_gt, h]
  rfl

theorem exec_pack_of_overflow {s : State} {i : Nat} (hlen : s.inLen.toNat ≤ s.cfg.inDepth)
    (hpresent : ∀ x ∈ s.input, isPresent s.ct x = true)
    (h : firstOverflow s.ct (8 * s.cfg.pkDepth) 0 0 s.input = some i) :
    exec .pack s = .next (failed s .capacity i) := by
  rw [exec_eq, bodyOf, packBody, if_neg hlen.not_gt, firstUnknown_eq_none.2 hpresent, h]
  rfl

/-- Settles O22: the length test comes first, then the search for a symbol without entry, then the one for an overflow. -/
theorem packErrorsInOrder : Obligations.PackErrorsInOrder := by
  refine fun s => ⟨exec_pack_of_too_long, fun hlen i hi habsent hbefore => ?_,
    fun hlen hpresent i hi hover hbefore => ?_⟩
  · exact exec_pack_of_unknown hlen (firstUnknown_input hi habsent hbefore)
  · exact exec_pack_of_overflow hlen
      (forall_mem_input.2 fun j hj => (isPresent_iff_len_ne_zero _ _).2 (hpresent j hj))
      (firstOverflow_from_zero (by rwa [length_input]) hover hbefore)

end Sys2Proof.Machine
end

section
/-! PROOFS. The decoder (`46_decoder.md` R311 to R317): the checks before the stream, how the stream ends, and the round
trip of ENCODE and DECODE. -/

namespace Sys2Proof.Machine

/-! ### The match set -/

/-- Settles O28: of two codes that begin the same bits one begins the other. -/
theorem atMostOneCodeMatches : Obligations.AtMostOneCodeMatches := by
  refine fun ct rest hpf => ⟨?_, fun _ => mem_matchesAt⟩
  cases hm : matchesAt ct rest with
  | nil => exact Nat.zero_le 1
  | cons x xs =>
    obtain ⟨hx, hp⟩ := mem_matchesAt.1 (hm ▸ List.mem_cons_self : x ∈ matchesAt ct rest)
    exact (congrArg List.length (hm.symm.trans (matchesAt_eq hpf hx hp))).le

/-! ### The checks before the stream -/

/-- firstOffender finds the least symbol whose code is the beginning of another's (`46_decoder.md` R311). -/
theorem firstOffender_eq_some {ct : Table CtEntry} {x y : Symbol} (hne : x ≠ y) (hx : isPresent ct x = true)
    (hy : isPresent ct y = true) (hp : codeOf ct x <+: codeOf ct y)
    (hmin : ∀ a b : Symbol, a.toNat < x.toNat → a ≠ b → isPresent ct a = true → isPresent ct b = true →
      ¬ codeOf ct a <+: codeOf ct b) : firstOffender ct = some x := by
  rw [firstOffender, presentSymbols_eq, List.find?_filter]
  refine find_symbols ?_ fun a ha => ?_
  · simpa [hx] using (offends_iff ct x).2 ⟨y, hne.symm, hy, hp⟩
  · by_contra hoff
    obtain ⟨hpresent, hoff⟩ : isPresent ct a = true ∧ offends ct a = true := by simpa using hoff
    obtain ⟨b, hab, hb, hbegins⟩ := (offends_iff ct a).1 hoff
    exact hmin a b ha hab.symm hpresent hb hbegins

theorem exec_decode_of_too_long {s : State} (h : 8 * s.cfg.pkDepth < s.bitLen.toNat) :
    exec .decode s = .next (failed s .length 0) := by
  rw [exec_eq, bodyOf, decodeBody, if_pos h, complete_raise]
  rfl

theorem exec_decode_of_offender {s : State} {x : Symbol} (hlen : s.bitLen.toNat ≤ 8 * s.cfg.pkDepth)
    (h : firstOffender s.ct = some x) : exec .decode s = .next (failed s .badTable x.toNat) := by
  rw [exec_eq, bodyOf, decodeBody, if_neg hlen.not_gt, h]
  rfl

theorem exec_decode_of_bad_pad {s : State} (hlen : s.bitLen.toNat ≤ 8 * s.cfg.pkDepth) (hpf : PrefixFree s.ct)
    (hpartial : s.bitLen.toNat % 8 ≠ 0)
    (hpad : 2 ^ (s.bitLen.toNat % 8) ≤ (Memory.read s.pkMem (s.bitLen.toNat / 8)).toNat) :
    exec .decode s = .next (failed s .badPad (s.bitLen.toNat / 8)) := by
  rw [exec_eq, bodyOf, decodeBody, if_neg hlen.not_gt, (firstOffender_eq_none s.ct).2 hpf, unbytify, if_neg hpartial,
    if_pos hpad]
  rfl

/-- Settles O26: the tests in the order of the body. -/
theorem decodeChecksLengthTableAndPadding : Obligations.DecodeChecksLengthTableAndPadding := fun _ =>
  ⟨exec_decode_of_too_long,
    fun hlen _ _ hne hx hy hp hmin => exec_decode_of_offender hlen (firstOffender_eq_some hne hx hy hp hmin),
    exec_decode_of_bad_pad⟩

/-! ### The stream -/

/-- Past its three checks DECODE decodes the bit string that PK_MEM stands for. -/
theorem exec_decode_of_bits {s : State} {bs : BitString} (hlen : s.bitLen.toNat ≤ 8 * s.cfg.pkDepth)
    (hpf : PrefixFree s.ct) (hbits : unbytify s.pkMem s.bitLen.toNat = .ok bs) :
    exec .decode s = complete s ((decodeBits s.ct s.cfg.outDepth bs).map (decoded s)) := by
  rw [exec_eq, bodyOf, decodeBody, if_neg hlen.not_gt, (firstOffender_eq_none s.ct).2 hpf, hbits]
  dsimp only
  cases decodeBits s.ct s.cfg.outDepth bs <;> rfl

/-- The loop arrives at the cursor behind the codes of `xs`, with fuel for the bits that are left. -/
theorem decodeBits_cursor {ct : Table CtEntry} (hpf : PrefixFree ct) {outDepth : Nat} {xs : List Symbol}
    (hpresent : ∀ x ∈ xs, isPresent ct x = true) (hroom : xs.length ≤ outDepth) (rest : BitString) :
    ∃ fuel, rest.length ≤ fuel ∧ decodeBits ct outDepth (stringify ct xs ++ rest)
      = decodeLoop ct outDepth fuel rest (stringify ct xs).length xs := by
  simpa [decodeBits] using decodeLoop_stringify hpf hpresent (rest := rest) (p := 0) (out := [])
    List.length_append.ge (by simpa using hroom)

/-- Settles O27: the loop reads the codes of `out` and stops at its first pass behind them. -/
theorem decodeStopsAtTheCursor : Obligations.DecodeStopsAtTheCursor := by
  intro s out rest hlen hpf hpresent hroom hrest hbits
  obtain ⟨fuel, hfuel, hcursor⟩ := decodeBits_cursor hpf hpresent hroom rest
  have hexec := (exec_decode_of_bits hlen hpf hbits).trans (congrArg (complete s <| ·.map (decoded s)) hcursor)
  refine ⟨fun hnone => ?_, fun x hx hp hfull => ?_⟩
  · have hm : matchesAt s.ct rest = [] := List.eq_nil_iff_forall_not_mem.2 fun x hx =>
      hnone x (mem_matchesAt.1 hx).1 (mem_matchesAt.1 hx).2
    rw [hexec, decodeLoop_undecodable hfuel hrest hm]
    rfl
  · have hm : matchesAt s.ct rest ≠ [] := List.ne_nil_of_mem (mem_matchesAt.2 ⟨hx, hp⟩)
    rw [hexec, decodeLoop_capacity hfuel hrest hm hfull]
    rfl

/-- Settles O29: `OUT_DEPTH` decoded symbols took at least as many bits, and a bit is left: more than PK_MEM holds. -/
theorem decodeNeverFillsADeepOutput : Obligations.DecodeNeverFillsADeepOutput := by
  intro s t hdeep h hcap
  rw [exec_eq, bodyOf] at h
  rcases decodeBody_cases s with ⟨-, hb⟩ | ⟨hlen, ⟨x, -, hb⟩ | ⟨-, ⟨-, -, hb⟩ |
      ⟨xs, tail, hpresent, -, hbits, -, ⟨-, hb⟩ | ⟨-, -, hb⟩ | ⟨htail, -, hfull, -⟩⟩⟩⟩
  case inr.inr.inr.inr.inr =>
    have hsymbols := length_le_stringify hpresent
    have hleft := List.length_pos_iff.2 htail
    rw [List.length_append] at hbits
    omega
  all_goals
    rw [hb] at h
    cases h
    cases hcap

/-! ### DECODE succeeds -/

/-- PK_MEM and BIT_LEN stand for the codes of `xs` in a prefix-free table: what DECODE reads back
(`46_decoder.md` R312). -/
structure State.Packs (s : State) (xs : List Symbol) : Prop where
  fits : s.bitLen.toNat ≤ 8 * s.cfg.pkDepth
  prefixFree : PrefixFree s.ct
  present : ∀ x ∈ xs, isPresent s.ct x = true
  bits : unbytify s.pkMem s.bitLen.toNat = .ok (stringify s.ct xs)

theorem State.Packs.exec_decode {s : State} {xs : List Symbol} (h : s.Packs xs) (hroom : xs.length ≤ s.cfg.outDepth) :
    exec .decode s = .next (succeeded (decoded s xs)) := by
  rw [exec_decode_of_bits h.fits h.prefixFree h.bits, decodeBits_stringify h.prefixFree h.present hroom]
  rfl

/-- Every symbol took at least one of the bits that BIT_LEN counts, so their number fits 32 bits. -/
theorem State.Packs.toNat_outLen_decoded {s : State} {xs : List Symbol} (h : s.Packs xs) :
    (decoded s xs).outLen.toNat = xs.length := by
  have hsymbols := length_le_stringify h.present
  have hbits := length_of_unbytify h.bits
  have hword := s.bitLen.isLt
  exact Nat.mod_eq_of_lt (by omega)

theorem read_outMem_decoded_of_lt {s : State} (hm : Memory.wf s.outMem) {out : List Symbol} {k : Nat}
    (hk : k < out.length) : Memory.read (decoded s out).outMem k = out[k] := by
  rw [decoded, Memory.read_writeFrom hm, if_pos (Nat.zero_le k), Nat.sub_zero, List.getElem?_eq_getElem hk,
    Option.getD_some]

theorem read_outMem_decoded_of_le {s : State} (hm : Memory.wf s.outMem) {out : List Symbol} {k : Nat}
    (hk : out.length ≤ k) : Memory.read (decoded s out).outMem k = Memory.read s.outMem k := by
  rw [decoded, Memory.read_writeFrom hm, if_pos (Nat.zero_le k), Nat.sub_zero, List.getElem?_eq_none hk,
    Option.getD_none]

/-- Settles O25: the loop reads the codes to the end of the bits, and the body commits the symbols. -/
theorem decodeWritesTheSymbolsOfTheBitString : Obligations.DecodeWritesTheSymbolsOfTheBitString := by
  intro s out hm hlen hpf hpresent hroom hbits
  have h : s.Packs out := ⟨hlen, hpf, hpresent, hbits⟩
  exact ⟨succeeded (decoded s out), h.exec_decode hroom, rfl, h.toNat_outLen_decoded,
    fun _ => read_outMem_decoded_of_lt hm, fun _ => read_outMem_decoded_of_le hm⟩

/-! ### What ENCODE leaves for DECODE -/

theorem packs_packed {s : State} (hc : s.cfg.wf) (hm : Memory.wf s.pkMem) (hpf : PrefixFree s.ct)
    (hpresent : ∀ x ∈ s.input, isPresent s.ct x = true)
    (hfit : (stringify s.ct s.input).length ≤ 8 * s.cfg.pkDepth) : (packed s).Packs s.input where
  fits := (toNat_bitLen_packed hc hfit).trans_le hfit
  prefixFree := hpf
  present := hpresent
  bits := by
    rw [toNat_bitLen_packed hc hfit]
    exact unbytifyInvertsBytify s.pkMem _ hm

/-- A successful ENCODE packed its input with the table it wrote, and left the rest of the round trip's state. -/
theorem exec_encode_packs {s t : State} (hc : s.cfg.wf) (hm : Memory.wf s.pkMem) (h : exec .encode s = .next t)
    (he : t.errCode = .none) :
    t.Packs s.input ∧ t.cfg = s.cfg ∧ t.phase = .idle ∧ t.schedule = s.schedule ∧ t.inMem = s.inMem ∧
      t.outMem = s.outMem := by
  rw [exec_eq] at h
  rcases complete_cases h with ⟨u, hu, rfl⟩ | ⟨c, p, hu, rfl⟩
  · have hok := bodyOf_ok hu
    simp only [reduceCtorEq, false_and, true_and, false_or, or_false] at hok
    obtain ⟨root, -, -, hpresent, hpf, hfit, hpacked⟩ := hok
    have hpacks : u.Packs s.input :=
      hpacked ▸ packs_packed (s := built (counted s) root) hc hm hpf (fun x => (hpresent x).2) hfit
    obtain ⟨hframe, -, -, -, -, hkeep⟩ := bodyOf_frame hu
    exact ⟨{ hpacks with }, (congrArg State.cfg hframe :), rfl, (congrArg State.schedule hframe :),
      (congrArg State.inMem hframe :), (hkeep (by decide)).2⟩
  · rcases bodyOf_error hu with ⟨c', p', hraise, hne, -⟩ | ⟨hbuild, -⟩
    · cases hraise
      exact absurd he hne
    · cases hbuild

/-! ### A command among host reads -/

/-- `s` with the turns `ts` left, and the fields a host read can change taken from `c`. -/
def State.afterReads (s : State) (ts : List Turn) (c : State) : State :=
  { s with
    schedule := ts, inAddr := c.inAddr, pkAddr := c.pkAddr, outAddr := c.outAddr, accErr := c.accErr, reads := c.reads }

theorem steps_readTurns {s : State} {offs : List Offset} {ts : List Turn} (k : Nat)
    (h : s.schedule = readTurns offs ++ ts) : ∃ c, steps (offs.length + k) s = steps k (s.afterReads ts c) := by
  induction offs generalizing s with
  | nil =>
    obtain rfl : s.schedule = ts := h
    exact ⟨s, congrArg (steps · s) (Nat.zero_add k)⟩
  | cons off offs ih =>
    obtain ⟨c, hread⟩ : ∃ c, hostStep (.read off) { s with schedule := readTurns offs ++ ts }
        = s.afterReads (readTurns offs ++ ts) c := ⟨_, hostRead_frame off _⟩
    obtain ⟨d, hd⟩ := ih (s := s.afterReads (readTurns offs ++ ts) c) rfl
    refine ⟨d, ?_⟩
    calc steps (offs.length + 1 + k) s
        = steps (offs.length + k + 1) s := by rw [Nat.add_right_comm]
      _ = steps (offs.length + k) (s.afterReads (readTurns offs ++ ts) c) := (steps_host _ h).trans (congrArg _ hread)
      _ = steps k (s.afterReads ts d) := hd

theorem steps_one (s : State) : steps 1 s = step s := by
  rw [steps]
  cases step s <;> rfl

/-- A command written to CMD, and run after some reads by the host, completes on the accepted state, but for what reads
change. -/
theorem steps_command {s : State} {i : Instr} {offs : List Offset} {ts : List Turn} (hs : s.phase = .idle)
    (h : s.schedule = .host (.write 0x00C (Sys2Proof.encode i)) :: (readTurns offs ++ .engine :: ts)) :
    ∃ c, steps (offs.length + 2) s = exec i ((accept (Sys2Proof.encode i) s).afterReads ts c) := by
  have haccept : step s
      = .next (accept (Sys2Proof.encode i) { s with schedule := readTurns offs ++ .engine :: ts }) :=
    (step_write_cmd h).trans (congrArg _ (issue_idle _ hs))
  obtain ⟨c, hreads⟩ := steps_readTurns 1
    (s := accept (Sys2Proof.encode i) { s with schedule := readTurns offs ++ .engine :: ts }) rfl
  have hop : opOfWord (Sys2Proof.encode i) = .command i := by simp only [opOfWord, decode_encode]
  refine ⟨c, ?_⟩
  rw [steps_succ _ haccept, hreads, steps_one, step_engine rfl]
  exact engineStep_command rfl hop

/-- Settles O33: no read changes what ENCODE packed, so DECODE reads the input back. -/
theorem decodeRecoversWhatEncodePacked : Obligations.DecodeRecoversWhatEncodePacked := by
  intro s t reads1 reads2 reads3 hc hpk hout hidle hsched hroom ht he
  obtain ⟨c1, hencode⟩ := steps_command (i := .encode) hidle hsched
  obtain ⟨hpacks, hcfg, hidle', hsched', hin', hout'⟩ :=
    exec_encode_packs (s := (accept _ s).afterReads _ c1) hc hpk (hencode.symm.trans ht) he
  obtain ⟨c2, hreads⟩ := steps_readTurns (reads3.length + 2) hsched'
  obtain ⟨c3, hdecode⟩ := steps_command (s := t.afterReads _ c2) (i := .decode) hidle' rfl
  have hfits : s.input.length ≤ t.cfg.outDepth := by rwa [length_input, hcfg]
  obtain ⟨u, hu, hframe, hlen, hread, -⟩ := decodeWritesTheSymbolsOfTheBitString
    ((accept _ (t.afterReads _ c2)).afterReads [] c3) s.input (hout' ▸ hout) hpacks.fits hpacks.prefixFree
    hpacks.present hfits hpacks.bits
  have hcount : reads2.length + 1 + (reads3.length + 1) = reads2.length + (reads3.length + 2) := by omega
  refine ⟨u, ?_, congrArg State.errCode hframe, congrArg State.done hframe,
    ⟨congrArg State.schedule hframe, congrArg State.phase hframe⟩,
    BitVec.eq_of_toNat_eq (hlen.trans (length_input s)), fun i hi => ?_, (congrArg State.inMem hframe).trans hin'⟩
  · rw [hcount, steps_add, ht]
    exact hreads.trans (hdecode.trans hu)
  · rw [hread i (by rwa [length_input]), getElem_input]

end Sys2Proof.Machine
end

section
/-! PROOFS. Commands and their acceptance (`47_control_commands.md` R340 to R342): a CMD write, the
engine's turn, and NOP. -/

namespace Sys2Proof.Machine

/-- A host's write to any byte of CMD's word issues the word. -/
theorem step_write_cmd_word {s : State} {off : Offset} {w : Word} {ts : List Turn} (hoff : off &&& 0xFFC = 0x00C)
    (h : s.schedule = .host (.write off w) :: ts) : step s = .next (issue w { s with schedule := ts }) :=
  (step_host h).trans
    (congrArg _ (hostWrite_reg (r := .cmd) w (regAt_eq_some.2 hoff) (blocked_of_unguarded _ rfl)))

/-- Settles O7: the busy guard leaves CMD to its own rule, which asks for the phase. -/
theorem commandAcceptance : Obligations.CommandAcceptance := by
  intro s off w ts hoff h
  have hissue := step_write_cmd_word hoff h
  refine ⟨fun hidle => ?_, fun hrun => ?_⟩
  · exact hissue.trans (congrArg _ (issue_idle w hidle))
  · exact hissue.trans (congrArg _ (issue_run w hrun))

theorem opOfWord_command {w : Word} {i : Instr} (h : Sys2Proof.decode w = .ok i) : opOfWord w = .command i := by
  simp only [opOfWord, h]

theorem withFetchWord_toNat (s : State) (w : Word) : s.withFetchWord 32 w.toNat = presentWord w s := by
  rw [State.withFetchWord, Nat.mod_eq_of_lt w.isLt, BitVec.ofNat_toNat, BitVec.setWidth_eq]

theorem step_presentWord (w : Word) (s : State) : step (presentWord w s) = engineStep (accept w s) := step_engine rfl

/-- Settles O4: all three turns are the engine's, running the command in ENGINE.op. -/
theorem stepRunsTheDecodedCommand : Obligations.StepRunsTheDecodedCommand := by
  refine fun s i => ⟨fun hrun hop h => ?_, fun ts hrun hop h => ?_, fun w hw => ?_⟩
  · exact (step_unscheduled h).trans (engineStep_command hrun hop)
  · exact (step_engine h).trans (engineStep_command (s := { s with schedule := ts }) hrun hop)
  · rw [withFetchWord_toNat, step_presentWord]
    exact engineStep_command (s := accept w s) rfl (opOfWord_command hw)

/-- Settles O8: the body of NOP commits the state as it is. -/
theorem nopOnlyCompletes : Obligations.NopOnlyCompletes := by
  intro s
  rw [exec_eq, bodyOf, nopBody, complete_ok]
  rfl

end Sys2Proof.Machine
end

section
/-! PROOFS. ENCODE (`47_control_commands.md` R343, R345): past the checks of COUNT and BUILD it is PACK with the table
of the input's tree, and that table needs at most 8 bits for a symbol. -/

namespace Sys2Proof.Machine

/-! ### The tree of the input -/

/-- BUILD, on the counts of the input of `s`, makes `root`. -/
structure State.EncodeTree (s : State) (root : Node) : Prop where
  tree : buildTree (tally s.input).1 (tally s.input).2 = some root
  leaves : root.leaves.Perm (tally s.input).2
  weight : root.weight = s.inLen.toNat
  build : buildBody (counted s) = .ok (built (counted s) root)

theorem inLen_ne_zero {s : State} (h : 0 < s.inLen.toNat) : s.inLen ≠ 0 := fun h0 => by simp [h0] at h

theorem exists_encodeTree {s : State} (h : s.inLen ≠ 0) : ∃ root, s.EncodeTree root := by
  obtain ⟨root, htree, hleaves, -, -, hweight, hbuild⟩ := encode_tree h
  exact ⟨root, htree, hleaves, hweight, hbuild⟩

/-- The tree BUILD makes after COUNT is that of the input. -/
theorem encodeTree_of_build {s : State} {root : Node} (h0 : (counted s).ndist ≠ 0)
    (htree : buildTree (counted s).freq (counted s).ranked = some root) : s.EncodeTree root := by
  obtain ⟨root', hroot⟩ := exists_encodeTree (mt (counted_ndist_eq_zero s).2 h0)
  rw [counted_ranked] at htree
  cases htree.symm.trans hroot.tree
  exact hroot

namespace State.EncodeTree

variable {s : State} {root : Node}

theorem nodup (h : s.EncodeTree root) : root.leaves.Nodup := h.leaves.nodup_iff.2 (tally_nodup (input_length_lt s))

theorem length_leaves_le (h : s.EncodeTree root) : root.leaves.length ≤ 256 := length_le_of_nodup h.nodup

theorem mem_leaves (h : s.EncodeTree root) (x : Symbol) : x ∈ root.leaves ↔ x ∈ s.input :=
  h.leaves.mem_iff.trans ((tally_order (input_length_lt s)).1 x)

theorem encodeTable_eq (h : s.EncodeTree root) : encodeTable s = writeTable (genCodes root) := by
  simp only [encodeTable, h.tree]

theorem isPresent_iff (h : s.EncodeTree root) (x : Symbol) : isPresent (encodeTable s) x = true ↔ x ∈ s.input := by
  rw [h.encodeTable_eq, (writeTable_spec h.nodup h.length_leaves_le).present, h.mem_leaves]

/-- COUNT and BUILD leave the table that the statements about ENCODE name. -/
theorem built_counted_ct (h : s.EncodeTree root) : (built (counted s) root).ct = encodeTable s := h.encodeTable_eq.symm

theorem ofNat_weight (h : s.EncodeTree root) : BitVec.ofNat 32 root.weight = s.inLen := by
  rw [h.weight, BitVec.ofNat_toNat, BitVec.setWidth_eq]

/-- MAXLEN is the greatest code length of the table (`44_code_table.md` R263). -/
theorem built_counted_maxLen (h : s.EncodeTree root) :
    (∀ x, (codeOf (encodeTable s) x).length ≤ (built (counted s) root).maxLen.toNat) ∧
    ∃ x ∈ s.input, (codeOf (encodeTable s) x).length = (built (counted s) root).maxLen.toNat := by
  obtain ⟨hle, ⟨x, hx, hmax⟩, hlt⟩ := maxCodeLen_spec h.nodup h.length_leaves_le
  have hmaxLen : (built (counted s) root).maxLen.toNat = maxCodeLen (genCodes root) := Nat.mod_eq_of_lt hlt
  rw [hmaxLen, h.encodeTable_eq]
  exact ⟨hle, x, (h.mem_leaves x).1 hx, hmax⟩

/-! ### What ENCODE answers -/

/-- Past the checks of COUNT and BUILD the body is that of PACK. -/
theorem encodeBody_eq (h : s.EncodeTree root) (hlen : s.inLen.toNat ≤ s.cfg.inDepth) :
    encodeBody s = packBody (built (counted s) root) := by
  rw [encodeBody, countBody_eq, if_neg hlen.not_gt]
  simp only [h.build]

theorem isPresent_of_mem_input (h : s.EncodeTree root) :
    ∀ x ∈ (built (counted s) root).input, isPresent (built (counted s) root).ct x = true := by
  rw [h.built_counted_ct]
  exact fun x hx => (h.isPresent_iff x).2 hx

theorem exec_encode_of_fits (h : s.EncodeTree root) (hlen : s.inLen.toNat ≤ s.cfg.inDepth)
    (hfit : (stringify (encodeTable s) s.input).length ≤ 8 * s.cfg.pkDepth) :
    exec .encode s = .next (succeeded (packed (built (counted s) root))) := by
  rw [← h.built_counted_ct] at hfit
  rw [exec_eq, bodyOf, h.encodeBody_eq hlen, packBody_ok (s := built (counted s) root) hlen
    h.isPresent_of_mem_input hfit, complete_ok]
  rfl

end State.EncodeTree

theorem packBody_of_overflow {s : State} {i : Nat} (hlen : s.inLen.toNat ≤ s.cfg.inDepth)
    (hpresent : ∀ x ∈ s.input, isPresent s.ct x = true)
    (h : firstOverflow s.ct (8 * s.cfg.pkDepth) 0 0 s.input = some i) : packBody s = .error (.raise .capacity i) := by
  rw [packBody, if_neg hlen.not_gt, firstUnknown_eq_none.2 hpresent, h]

theorem exec_encode_of_too_long {s : State} (h : s.cfg.inDepth < s.inLen.toNat) :
    exec .encode s = .next (failed s .length 0) := by
  rw [exec_eq, bodyOf, encodeBody, countBody_eq, if_pos h]
  rfl

theorem exec_encode_of_empty {s : State} (h : s.inLen = 0) : exec .encode s = .next (failed s .emptyInput 0) := by
  have hfits : ¬ s.cfg.inDepth < s.inLen.toNat := by simp [h]
  rw [exec_eq, bodyOf, encodeBody, countBody_eq, if_neg hfits]
  simp only [buildBody_empty ((counted_ndist_eq_zero s).2 h), complete_raise]
  rfl

theorem exec_encode_of_overflow {s : State} {i : Nat} (hpos : 0 < s.inLen.toNat) (hlen : s.inLen.toNat ≤ s.cfg.inDepth)
    (h : firstOverflow (encodeTable s) (8 * s.cfg.pkDepth) 0 0 s.input = some i) :
    exec .encode s = .next (failed s .capacity i) := by
  obtain ⟨root, hroot⟩ := exists_encodeTree (inLen_ne_zero hpos)
  rw [← hroot.built_counted_ct] at h
  rw [exec_eq, bodyOf, hroot.encodeBody_eq hlen, packBody_of_overflow (s := built (counted s) root) hlen
    hroot.isPresent_of_mem_input h, complete_raise]
  rfl

/-- Settles O31: the checks in the order of the body, and PACK's search for an overflow last. -/
theorem encodeErrorsInOrder : Obligations.EncodeErrorsInOrder := by
  refine fun s => ⟨exec_encode_of_too_long, exec_encode_of_empty, fun hlen i hi hover hbefore => ?_⟩
  exact exec_encode_of_overflow (Nat.zero_lt_of_lt hi) hlen
    (firstOverflow_from_zero (by rwa [length_input]) hover hbefore)

/-- Settles O30: ENCODE commits COUNT's tables, BUILD's table of their tree, and what PACK writes with it. -/
theorem encodeCountsBuildsAndPacks : Obligations.EncodeCountsBuildsAndPacks := by
  intro s hc hpk hpos hlen hfit
  obtain ⟨root, hroot⟩ := exists_encodeTree (inLen_ne_zero hpos)
  have hin := input_length_lt s
  obtain ⟨hmem, hfirst⟩ := tally_order hin
  obtain ⟨hmax, hattained⟩ := hroot.built_counted_maxLen
  have hct := hroot.built_counted_ct
  have hpackFit : (stringify (built (counted s) root).ct s.input).length ≤ 8 * s.cfg.pkDepth := by rwa [hct]
  obtain ⟨t, hpack, -, hbits, hbytes, hkeep⟩ := packWritesTheGroupsOfTheBitString (built (counted s) root) hc hpk hlen
    (fun x hx => (isPresent_iff _ x).1 (hroot.isPresent_of_mem_input x hx)) hpackFit
  cases hpack.symm.trans (exec_pack_of_fits hlen hroot.isPresent_of_mem_input hpackFit)
  rw [hct] at hbits hbytes
  refine ⟨_, hroot.exec_encode_of_fits hlen hfit, ?_, tally_freq_toNat hin, hmem, hfirst, counted_ndist s, ?_, ?_, ?_,
    hbits, hbytes, hkeep⟩
  · simp only [succeeded, packed, built, counted, hroot.encodeTable_eq, hroot.ofNat_weight]
  · exact hct ▸ hroot.isPresent_iff
  · exact hct ▸ hmax
  · exact hct ▸ hattained

/-! ### COUNT, BUILD and PACK in a row -/

/-- A PACK that reports no error packed bits that fit PK_MEM. -/
theorem exec_pack_success {s t : State} (h : exec .pack s = .next t) (he : t.errCode = .none) :
    (stringify s.ct s.input).length ≤ 8 * s.cfg.pkDepth ∧ t = succeeded (packed s) := by
  rw [exec_eq, bodyOf] at h
  rcases packBody_cases s with ⟨-, hb⟩ | ⟨-, ⟨i, -, hb⟩ | ⟨-, ⟨i, -, hb⟩ | ⟨hfit, hb⟩⟩⟩ <;>
    rw [hb] at h <;> cases h
  case inr.inr.inr => exact ⟨hfit, rfl⟩
  all_goals cases he

/-- Settles O32: acceptance and the reports change nothing a body reads, and the last report covers the earlier ones. -/
theorem encodeIsCountThenBuildThenPack : Obligations.EncodeIsCountThenBuildThenPack := by
  intro s a b c hlen hcount hbuild hb hpack hc
  cases hcount.symm.trans (exec_count_of_fits hlen)
  obtain ⟨root, h0, htree, rfl⟩ := exec_build_success hbuild hb
  obtain ⟨hfit, rfl⟩ := exec_pack_success hpack hc
  have hroot : s.EncodeTree root := encodeTree_of_build h0 htree
  have hencodeFit : (stringify (encodeTable s) s.input).length ≤ 8 * s.cfg.pkDepth := hroot.built_counted_ct ▸ hfit
  rw [hroot.exec_encode_of_fits hlen hencodeFit]
  simp only [succeeded, packed, built, counted, accept, State.input]

/-! ### A deep PK_MEM -/

/-- The symbol itself as a code: 8 bits for each. -/
def symbolBits (x : Symbol) : BitString := bin 8 x.toNat

theorem length_symbolBits (x : Symbol) : (symbolBits x).length = 8 := length_bin 8 x.toNat

theorem symbolBits_ne_nil (x : Symbol) : symbolBits x ≠ [] := List.ne_nil_of_length_pos (by simp [length_symbolBits])

theorem val_symbolBits (x : Symbol) : val (symbolBits x) = x.toNat := by
  rw [symbolBits, val_bin, Nat.mod_eq_of_lt x.isLt]

theorem not_symbolBits_isPrefix {x y : Symbol} (h : x ≠ y) : ¬ symbolBits x <+: symbolBits y := by
  intro hp
  have heq : symbolBits x = symbolBits y := hp.eq_of_length (by rw [length_symbolBits, length_symbolBits])
  exact h (BitVec.eq_of_toNat_eq (by rw [← val_symbolBits, heq, val_symbolBits]))

theorem length_flatMap_symbolBits (xs : List Symbol) : (xs.flatMap symbolBits).length = 8 * xs.length := by
  simp [List.length_flatMap, length_symbolBits, Nat.mul_comm]

/-- ENCODE's table needs no more bits than 8 for each symbol do (`47_control_commands.md` R345). -/
theorem State.EncodeTree.length_stringify_le {s : State} {root : Node} (h : s.EncodeTree root) :
    (stringify (encodeTable s) s.input).length ≤ 8 * s.inLen.toNat := by
  calc (stringify (encodeTable s) s.input).length
      = (stringify (writeTable (genCodes root)) s.input).length := by rw [h.encodeTable_eq]
    _ ≤ (s.input.flatMap symbolBits).length :=
        stringify_le_flatMap h.tree h.leaves h.nodup h.length_leaves_le h.weight (fun x _ => symbolBits_ne_nil x)
          fun _ _ _ _ => not_symbolBits_isPrefix
    _ = 8 * s.inLen.toNat := by rw [length_flatMap_symbolBits, length_input]

/-- Settles O35: the minimal code is no longer than the symbols themselves, and those fit. -/
theorem encodeAlwaysFitsADeepPackMemory : Obligations.EncodeAlwaysFitsADeepPackMemory := by
  intro s _ hdeep hpos hlen
  obtain ⟨root, hroot⟩ := exists_encodeTree (inLen_ne_zero hpos)
  have hbits := hroot.length_stringify_le
  refine ⟨_, hroot.exec_encode_of_fits hlen (by omega), rfl, ?_⟩
  calc (packed (built (counted s) root)).bitLen.toNat
      ≤ (stringify (built (counted s) root).ct s.input).length :=
        (BitVec.toNat_ofNat _ _).trans_le (Nat.mod_le _ _)
    _ ≤ 8 * s.inLen.toNat := by rwa [hroot.built_counted_ct]

end Sys2Proof.Machine
end

section
/-! PROOFS. How a command ends (`60_exceptions.md` R402 to R407): with its body's writes and a success report, with an error
its body checks and nothing but the report, or in BUILD's fault. -/

namespace Sys2Proof.Machine

/-! ### The error reports -/

theorem none_not_mem_mayRaise (i : Instr) : ErrorCode.none ∉ mayRaise i := by cases i <;> decide

/-- A body raises only the errors that R406 lists for its command. -/
theorem mem_mayRaise_of_bodyOf {i : Instr} {s : State} {c : ErrorCode} {p : Nat}
    (h : bodyOf i s = .error (.raise c p)) : c ∈ mayRaise i := by
  cases i with
  | nop | ctclr => cases h
  | count =>
    rw [bodyOf, countBody_eq] at h
    split at h <;> cases h
    decide
  | build =>
    rcases buildBody_cases s with ⟨-, hb⟩ | ⟨-, -, hb⟩ | ⟨root, -, -, hb, -⟩ <;> rw [bodyOf, hb] at h <;> cases h
    decide
  | pack =>
    rcases packBody_cases s with ⟨-, hb⟩ | ⟨-, ⟨_, -, hb⟩ | ⟨-, ⟨_, -, hb⟩ | ⟨-, hb⟩⟩⟩ <;>
      rw [bodyOf, hb] at h <;> cases h <;> decide
  | encode =>
    rcases encodeBody_cases s with ⟨-, hb⟩ | ⟨-, ⟨-, hb⟩ | ⟨_, -, -, -, -, -, -, -, -, ⟨_, -, hb⟩ | ⟨-, hb⟩⟩⟩ <;>
      rw [bodyOf, hb] at h <;> cases h <;> decide
  | decode =>
    rcases decodeBody_cases s with ⟨-, hb⟩ | ⟨-, ⟨_, -, hb⟩ |
        ⟨-, ⟨-, -, hb⟩ | ⟨_, _, -, -, -, -, ⟨-, hb⟩ | ⟨-, -, hb⟩ | ⟨-, -, -, hb⟩⟩⟩⟩ <;>
      rw [bodyOf, hb] at h <;> cases h <;> decide

/-- What a command that completes answers: a success, or an error its body checks. -/
theorem exec_cases {i : Instr} {s t : State} (h : exec i s = .next t) :
    (∃ u, bodyOf i s = .ok u ∧ t = reportSuccess u) ∨
    ∃ c p, bodyOf i s = .error (.raise c p) ∧ c ∈ mayRaise i ∧ t = reportError c p s := by
  rw [exec_eq] at h
  rcases complete_cases h with hok | ⟨c, p, hb, ht⟩
  · exact .inl hok
  · exact .inr ⟨c, p, hb, mem_mayRaise_of_bodyOf hb, ht⟩

/-- Settles O36: of the two completions only an error's has a code, and its report is all it writes. -/
theorem failedCommandsChangeNothingElse : Obligations.FailedCommandsChangeNothingElse := by
  intro i s t h
  rcases exec_cases h with ⟨u, -, rfl⟩ | ⟨c, p, -, hc, rfl⟩
  · exact ⟨fun he => absurd rfl he, fun _ => rfl⟩
  · refine ⟨fun _ => ⟨?_, hc⟩, fun he => absurd (he ▸ hc) (none_not_mem_mayRaise i)⟩
    rw [failed, reportError_errPos, BitVec.ofNat_toNat, BitVec.setWidth_eq]
    rfl

/-- Settles O37: the report and the new acceptance change no field that the body reads. -/
theorem reissuedFailuresRepeat : Obligations.ReissuedFailuresRepeat := by
  intro i s t h he
  rcases exec_cases h with ⟨u, -, rfl⟩ | ⟨c, p, hb, -, rfl⟩
  · exact absurd rfl he
  · have hagain : bodyOf i (accept (Sys2Proof.encode i) (reportError c p s)) = .error (.raise c p) := by
      have hcontrol := bodyOf_withControl i s (accept (Sys2Proof.encode i) (reportError c p s))
      rwa [hb] at hcontrol
    rw [exec_eq, hagain, complete_raise, accept, opOfWord_command (decode_encode i)]
    rfl

/-! ### What every completion keeps -/

theorem exec_keeps {i : Instr} {s t : State} (h : exec i s = .next t) :
    t.cfg = s.cfg ∧ t.irqEn = s.irqEn ∧ t.accErr = s.accErr := by
  rcases exec_cases h with ⟨u, hu, rfl⟩ | ⟨c, p, -, -, rfl⟩
  · rw [(bodyOf_frame hu).1]
    exact ⟨rfl, rfl, rfl⟩
  · exact ⟨rfl, rfl, rfl⟩

/-! ### Faults -/

theorem complete_eq_fault_iff {s : State} {r : Body} {f : Fault} : complete s r = .fault f ↔ r = .error (.fault f) := by
  match r with
  | .ok _ | .error (.raise _ _) | .error (.fault _) => simp

theorem complete_ne_refused (s : State) (r : Body) (why : Refusal) : complete s r ≠ .refused why := by
  match r with
  | .ok _ | .error (.raise _ _) | .error (.fault _) => simp

theorem ranked_eq_nil_iff {s : State} (h : s.ndist ≠ 0) : s.ranked = [] ↔ s.order = [] := by
  simp [State.ranked, ndist_ne_zero h]

theorem exec_eq_fault_iff {i : Instr} {s : State} {f : Fault} :
    exec i s = .fault f ↔ i = .build ∧ s.ndist ≠ 0 ∧ s.order = [] ∧ f = .emptyQueue := by
  rw [exec_eq, complete_eq_fault_iff]
  constructor
  · intro h
    rcases bodyOf_error h with ⟨c, p, he, -, -⟩ | ⟨hi, hn, hr, he⟩
    · cases he
    · exact ⟨hi, hn, (ranked_eq_nil_iff hn).1 hr, by cases he; rfl⟩
  · rintro ⟨rfl, hn, ho, rfl⟩
    rw [bodyOf, buildBody, if_neg hn, (ranked_eq_nil_iff hn).2 ho]
    rfl

theorem exists_engineStep_next {s : State} (h : s.Inv) : ∃ t, engineStep s = .next t ∧ t.cfg = s.cfg := by
  cases hp : s.phase with
  | idle => exact ⟨s, engineStep_idle hp, rfl⟩
  | run =>
    cases hop : s.op with
    | command i =>
      obtain ⟨t, ht⟩ := exists_exec_next h i
      exact ⟨t, (engineStep_command hp hop).trans ht, (exec_keeps ht).1⟩
    | illegal => exact ⟨_, engineStep_illegal hp hop, rfl⟩

theorem exists_waitTurn_next {s : State} (h : s.Inv) (polls : Nat) :
    ∃ t, waitTurn polls s = .next t ∧ t.cfg = s.cfg := by
  cases hp : s.phase with
  | idle => exact ⟨_, waitTurn_idle polls hp, rfl⟩
  | run =>
    cases polls with
    | zero =>
      rw [waitTurn_engine hp]
      exact exists_engineStep_next (inv_withSchedule h _)
    | succ n => exact ⟨_, waitTurn_poll n hp, rfl⟩

theorem exists_takeTurn_next {s : State} (h : s.Inv) (turn : Turn) :
    ∃ t, takeTurn turn s = .next t ∧ t.cfg = s.cfg := by
  cases turn with
  | host a => exact ⟨_, rfl, hostStep_cfg a s⟩
  | engine => exact exists_engineStep_next h
  | reset d => exact ⟨_, rfl, rfl⟩
  | wait polls => exact exists_waitTurn_next h polls

theorem exists_step_next {s : State} (h : s.Inv) : ∃ t, step s = .next t ∧ t.cfg = s.cfg := by
  cases hs : s.schedule with
  | nil => rw [step_unscheduled hs]; exact exists_engineStep_next h
  | cons turn ts =>
    rw [step, nextTurn, hs]
    exact exists_takeTurn_next (inv_withSchedule h ts) turn

/-- Settles O60: every turn answers under the invariant, which the next state meets too; a completion faults only where its
body does, and refuses nothing. -/
theorem noStepFaults : Obligations.NoStepFaults := by
  refine ⟨fun s h => ?_, fun i s f => exec_eq_fault_iff, fun i s why => ?_⟩
  · obtain ⟨t, ht, hcfg⟩ := exists_step_next h
    exact ⟨t, ht, hcfg, (everyStepKeepsTheInvariant s t h ht).reachable⟩
  · rw [exec_eq]
    exact complete_ne_refused s _ why

end Sys2Proof.Machine
end

section
/-! PROOFS. ACC_ERR and the interrupt (`60_exceptions.md` R408, R410): a refused access sets ACC_ERR and changes nothing
else, and IRQ follows DONE and IRQ_EN. -/

namespace Sys2Proof.Machine

/-! ### Refused accesses -/

/-- A read sets ACC_ERR exactly when it is refused, and never clears it. -/
theorem accErr_hostRead_iff (s : State) (off : Offset) :
    (hostStep (.read off) s).accErr = true ↔ isRefused s (.read off) = true ∨ s.accErr = true := by
  cases hr : regAt off with
  | none => simp [hostRead_unmapped hr, isRefused, hr]
  | some r =>
    cases hb : blocked s r with
    | true => simp [hostRead_blocked hr hb, isRefused, hr, hb]
    | false =>
      rw [hostRead_reg hr hb]
      cases r with
      | inData => cases hin : s.inWindow.inRange <;> simp [isRefused, hr, hb, afterRead, hin]
      | pkData => cases hin : s.pkWindow.inRange <;> simp [isRefused, hr, hb, afterRead, hin]
      | outData => cases hin : s.outWindow.inRange <;> simp [isRefused, hr, hb, afterRead, hin]
      | _ => simp [isRefused, hr, hb, afterRead]

/-- A write sets ACC_ERR exactly when it is refused, and only one to STATUS clears it, by a 1 in bit 3. -/
theorem accErr_hostWrite_iff (s : State) (off : Offset) (v : Word) : (hostStep (.write off v) s).accErr = true ↔
    isRefused s (.write off v) = true ∨
    (s.accErr = true ∧ ¬ (regAt off = some .status ∧ v.getLsbD 3 = true)) := by
  cases hr : regAt off with
  | none => simp [hostWrite_unmapped v hr, isRefused, hr]
  | some r =>
    cases hb : blocked s r with
    | true => simp [hostWrite_blocked v hr hb, isRefused, hr, hb]
    | false =>
      rw [hostWrite_reg v hr hb]
      cases r with
      | cmd => cases hp : s.phase <;> simp [isRefused, hr, hb, writeReg, issue, State.busy, hp]
      | inData => cases hin : s.inWindow.inRange <;> simp [isRefused, hr, hb, writeReg, hin]
      | pkData => cases hin : s.pkWindow.inRange <;> simp [isRefused, hr, hb, writeReg, hin]
      | _ => simp [isRefused, hr, hb, writeReg]

theorem accErr_hostStep_iff (s : State) (a : Access) : (hostStep a s).accErr = true ↔
    isRefused s a = true ∨
    (s.accErr = true ∧ ¬ ∃ off v, a = .write off v ∧ off &&& 0xFFC = offsetOf .status ∧ v.getLsbD 3 = true) := by
  cases a with
  | read off => simp [accErr_hostRead_iff]
  | write off v =>
    rw [accErr_hostWrite_iff, regAt_eq_some]
    simp

theorem isRefused_write_iff {s : State} {off : Offset} {v : Word} :
    isRefused s (.write off v) = true ↔ ∃ r, regAt off = some r ∧
      (blocked s r = true ∨ (r = .cmd ∧ s.phase = .run) ∨ (r = .inData ∧ s.inWindow.inRange = false) ∨
        (r = .pkData ∧ s.pkWindow.inRange = false)) := by
  cases hr : regAt off <;> simp [isRefused, hr, busy_iff, or_assoc]

/-- A refused write sets ACC_ERR and does nothing else (`20_memory.md` R106, R107, `47_control_commands.md` R340). -/
theorem hostWrite_refused {s : State} {off : Offset} {v : Word} (h : isRefused s (.write off v) = true) :
    hostStep (.write off v) s = refuse s := by
  obtain ⟨r, hr, hwhy⟩ := isRefused_write_iff.1 h
  cases hb : blocked s r with
  | true => exact hostWrite_blocked v hr hb
  | false =>
    rw [hostWrite_reg v hr hb]
    rcases hwhy with hblocked | ⟨rfl, hrun⟩ | ⟨rfl, hout⟩ | ⟨rfl, hout⟩
    · cases hb.symm.trans hblocked
    · exact issue_run v hrun
    · simp [writeReg, hout]
    · simp [writeReg, hout]

/-- No read changes IRQ, refused or not. -/
theorem irq_hostRead (s : State) (off : Offset) : (hostStep (.read off) s).irq = s.irq := by
  rw [hostRead_frame]
  rfl

/-- Settles O52: ACC_ERR access by access; a command and its acceptance have no part in it. -/
theorem accErrRecordsRefusedAccesses : Obligations.AccErrRecordsRefusedAccesses := by
  intro s
  refine ⟨accErr_hostStep_iff s, fun i t h => ?_, fun w => accept_accErr w s, fun a h => ?_⟩
  · obtain ⟨-, -, haccErr⟩ := exec_keeps h
    exact haccErr
  · cases a with
    | read off => exact irq_hostRead s off
    | write off v => rw [hostWrite_refused h]; rfl

/-! ### The interrupt -/

theorem irq_iff (s : State) : s.irq = true ↔ s.irqEn = true ∧ s.done = true := Bool.and_eq_true_iff

theorem irq_of_done {t : State} (h : t.done = true) : t.irq = t.irqEn := by rw [State.irq, h, Bool.and_true]

theorem irq_of_not_done {t : State} (h : t.done = false) : t.irq = false := by rw [State.irq, h, Bool.and_false]

theorem irq_of_not_irqEn {t : State} (h : t.irqEn = false) : t.irq = false := by rw [State.irq, h, Bool.false_and]

/-- Settles O47: every completion sets DONE, a 1 written to it and an acceptance clear it, and CTRL holds IRQ_EN. -/
theorem interruptFollowsDoneAndEnable : Obligations.InterruptFollowsDoneAndEnable := by
  intro s
  refine ⟨irq_iff s, fun i t h => ?_, fun t h => ?_, fun v hv => ?_, fun v hv => ?_, fun w hidle => ?_⟩
  · obtain ⟨-, hirqEn, -⟩ := exec_keeps h
    rw [irq_of_done (completes_of_exec h).done, hirqEn]
  · cases h
    exact irq_of_done rfl
  · rw [statusWritesClearByOnes s v, hv]
    exact irq_of_not_done rfl
  · have hctrl : hostStep (.write 0x008 v) s = { s with irqEn := v.getLsbD 0 } :=
      hostWrite_unguarded s (r := .ctrl) v rfl
    rw [hctrl]
    exact ⟨irq_of_not_irqEn hv, rfl⟩
  · have haccept : hostStep (.write 0x00C w) s = accept w s :=
      (hostWrite_unguarded s (r := .cmd) w rfl).trans (issue_idle w hidle)
    rw [haccept]
    exact irq_of_not_done rfl

end Sys2Proof.Machine
end

section
/-! PROOFS. Reset (`70_reset_and_hazards.md` R450, R451): the values it leaves, and the invariant. -/

namespace Sys2Proof.Machine

/-! These words read no field that a reset draws or keeps, so they are those of `State.reset`. -/

theorem statusWord_resetTo (d : Draw) (s : State) : statusWord (resetTo d s) = 0 :=
  (rfl : _ = statusWord State.reset).trans rfl

theorem ctrlWord_resetTo (d : Draw) (s : State) : ctrlWord (resetTo d s) = 0 :=
  (rfl : _ = ctrlWord State.reset).trans rfl

theorem pkLen_resetTo (d : Draw) (s : State) : (resetTo d s).pkLen = 0 :=
  (rfl : _ = State.reset.pkLen).trans rfl

/-- Settles O56: the values of R451 do not depend on the state before, a drawn memory reads as its draw below its depth. -/
theorem resetReachesTheResetState : Obligations.ResetReachesTheResetState := by
  intro s d ts h
  refine ⟨_, step_reset h, rfl, statusWord_resetTo d _, ctrlWord_resetTo d _, pkLen_resetTo d _, rfl,
    hostRead_unguarded _ (r := .id) rfl, hostRead_unguarded _ (r := .version) rfl,
    hostRead_unguarded _ (r := .cfgInDepth) rfl, hostRead_unguarded _ (r := .cfgPkDepth) rfl,
    hostRead_unguarded _ (r := .cfgOutDepth) rfl, fun x => ?_, ?_⟩
  · rw [resetTo_ct, get_tabulate]
    exact ⟨rfl, rfl⟩
  · exact ⟨fun hm j hj => Memory.read_drawn hm hj, fun hm j hj => Memory.read_drawn hm hj,
      fun hm j hj => Memory.read_drawn hm hj⟩

/-- Settles O57: the registers by evaluation, the tables entry by entry. -/
theorem resetRegisterValues : Obligations.ResetRegisterValues := by
  refine ⟨rfl, rfl, rfl, rfl, rfl, rfl, rfl, rfl, rfl, rfl, rfl, rfl, rfl, rfl, rfl, rfl, rfl, rfl, rfl, rfl, fun x => ?_⟩
  simp [State.reset]

/-- Settles O58: nothing is counted, listed or reported, and the default parameters are in range. -/
theorem resetMeetsTheInvariant : Obligations.ResetMeetsTheInvariant where
  config := Config.wf_default
  inMem := by decide
  pkMem := by decide
  outMem := by decide
  distinct := List.nodup_nil
  rankCount := rfl
  counted := fun x => by simp [State.reset]
  total := by simp [totalCount, State.reset]
  weight := Nat.zero_le _
  decoded := Nat.zero_le _
  reachable := nofun
  errCoded := nofun
  posCoded := fun _ => rfl
  running := nofun

end Sys2Proof.Machine
end
